-- ==== Sys2Proof/Word.lean ====
section
/-! DEFINITION. The word types of `huffman_tree_builder` (spec 00_scope.md R7 and R9): bytes, node indices and bit
sequences. The block has no general register width: each register has the width its own rule gives it. -/

namespace Sys2Proof

/-- One byte, which is also one symbol (R1, R7 `SYM_W` = 8, R9). -/
abbrev Byte := BitVec 8

/-- A node index as registers and the packed node form carry it (R7 `IDX_W` = 9, R24, R28). The arena has entries
0 to 510; 511 names no entry (R35). -/
abbrev NodeIx := BitVec 9

/-- A bit sequence, first bit first (R9). `true` is the bit 1. -/
abbrev Bits := List Bool

end Sys2Proof
end

