-- ==== Sys2Proof/Config.lean ====
section
/-! DEFINITION. What one implementation of the block fixes, and the one value the spec leaves open.
`CNT_W` is the spec's only open parameter that any rule reads (92_eei_decisions.md, "Open parameters, collected"): the
state carries it (`State.cntW`), so that every claim about a state holds for every width. Here stand the sizes of R7. -/

namespace Sys2Proof

/-- The default of the open parameter `CNT_W` (R7, D6). -/
def Config.cntWDefault : Nat := 32

/-- `LEN_LIMIT`: the longest input stream `FSCAN` accepts, in bytes (R7), for a counter width. -/
def Config.lenLimit (cntW : Nat) : Nat := 2 ^ cntW - 1

/-- `NODE_MAX`: the number of node arena entries (R7, R28). -/
def Config.nodeMax : Nat := 511

/-- `NSYM_MAX`: the number of byte values, so of frequency and code table entries (R7, R27, R29). -/
def Config.symMax : Nat := 256

/-- `CODE_MAX`: the longest code, in bits (R7, R172). -/
def Config.codeMax : Nat := 255

/-- FREE VALUE (R351, U13): what a register other than `STATUS` reads while a command runs. It has no body here, so no
proof can use any value of it. `Registers.lean` applies it to a counter of the state and cuts it to the register's
width. Log entry 5. -/
opaque Config.unspecifiedRead : Nat → Nat

end Sys2Proof
end

