-- ==== Sys2Proof/Syntax.lean ====
section
/-! DEFINITION. The commands (spec 30_encoding.md R91, opcode_table.json) and the items of the two byte streams (spec
20_memory.md R61, R62). A command word carries no operand (R92): a stream operand is offered at the IN port and is
part of the state. -/

namespace Sys2Proof

/-- The six commands, one constructor per row of spec/opcode_table.json. -/
inductive Instr where
  /-- `CLEAR`, word 0x00, R123. -/
  | clear
  /-- `FSCAN`, word 0x01, R141. -/
  | fscan
  /-- `TBUILD`, word 0x02, R174. -/
  | tbuild
  /-- `CASSIGN`, word 0x03, R196. -/
  | cassign
  /-- `ENCODE`, word 0x04, R221. -/
  | encode
  /-- `DECODE`, word 0x05, R252. -/
  | decode
deriving DecidableEq, Repr

/-- One item of a byte stream: `Byte(b)` or the marker `End` (R61, R62). -/
inductive Item where
  /-- `Byte(b)`. -/
  | byte (b : Byte)
  /-- `End`, the end of the stream. -/
  | eos
deriving DecidableEq, Repr

end Sys2Proof
end

