-- ==== Sys2Proof/WellFormed.lean ====
section
/-! DEFINITION. What a well-formed command, stream operand and symbol code are. A command has no operand field (R92), so
every command is well formed; the checks that can fail are those on the words written to `CMD`, on streams and on
codes. -/

namespace Sys2Proof

/-- Every command is well formed: it names no register, immediate or address (R92). -/
def Instr.wf : Instr → Bool
  | .clear | .fscan | .tbuild | .cassign | .encode | .decode => true

/-- The legal command words are exactly 0x00 to 0x05 (R91). -/
def wfCommandWord (w : Byte) : Bool := decide (w.toNat ≤ 5)

/-- A well-formed stream operand: zero or more `Byte` items, then exactly one `End` (R61). -/
def wfStream : List Item → Bool
  | [] => false
  | [.eos] => true
  | .eos :: _ :: _ => false
  | .byte _ :: rest => wfStream rest

/-- A code is a bit sequence of length 1 to 255 (R29). -/
def wfCode (c : Bits) : Bool := decide (1 ≤ c.length ∧ c.length ≤ Config.codeMax)

end Sys2Proof
end

