-- ==== Sys2Proof/Decode.lean ====
section
/-! DEFINITION. Decoding and encoding of command words (spec 30_encoding.md R90, R91, R93). One format, eight bits: bits
7:3 are the field `zero`, bits 2:0 the field `op`. -/

namespace Sys2Proof

/-- Why a word written to `CMD` is no command. -/
inductive DecodeError where
  /-- The field `zero` (bits 7:3) is not 00000 (R90, last row of R91). -/
  | zeroFieldSet (w : Byte)
  /-- The operation 110 or 111, reserved (R91, R93). -/
  | reservedOp (w : Byte)
  /-- No byte is there to decode. -/
  | noWord
deriving DecidableEq, Repr

/-- The field `zero`, bits 7:3 (R90). -/
def zeroField (w : Byte) : BitVec 5 := w.extractLsb' 3 5

/-- The field `op`, bits 2:0 (R90). -/
def opField (w : Byte) : BitVec 3 := w.extractLsb' 0 3

/-- The command a word stands for, or the reason it is illegal (R91, R93). -/
def decodeWord (w : Byte) : Except DecodeError Instr :=
  if zeroField w ≠ 0 then .error (.zeroFieldSet w)
  else match opField w with
    | 0 => .ok .clear
    | 1 => .ok .fscan
    | 2 => .ok .tbuild
    | 3 => .ok .cassign
    | 4 => .ok .encode
    | 5 => .ok .decode
    | _ => .error (.reservedOp w)

/-- The command at the front of a byte sequence, with the bytes after it. There is one length, so a command is decoded
from its one byte alone (R90). -/
def decodeBytes : List Byte → Except DecodeError (Instr × List Byte)
  | [] => .error .noWord
  | w :: rest =>
    match decodeWord w with
    | .ok i => .ok (i, rest)
    | .error e => .error e

/-- The operation number of a command (R91). -/
def opOf : Instr → BitVec 3
  | .clear => 0
  | .fscan => 1
  | .tbuild => 2
  | .cassign => 3
  | .encode => 4
  | .decode => 5

/-- The word of a command: the field `zero` above the field `op` (R90, R91). -/
def encodeWord (i : Instr) : Byte := (0 : BitVec 5) ++ opOf i

/-- The bytes of a command: its one word (R90). -/
def encodeBytes (i : Instr) : List Byte := [encodeWord i]

/-- The command the decoder reads from a row of the opcode table: `nbits` is the row's width, which is 8 for every row
(R90), and `w` the word's bits. -/
def decodeTableWord (nbits w : Nat) : Option Instr :=
  if nbits = 8 then
    match decodeBytes [BitVec.ofNat 8 w] with
    | .ok (i, _) => some i
    | .error _ => none
  else none

end Sys2Proof
end

