-- ==== Sys2Proof/Machine/State.lean ====
section
/-! DEFINITION. The state of the block as plain data (spec 10_state.md R20 to R45), with the host's side of its ports
(spec 20_memory.md R61 to R64, 70_reset_and_hazards.md R346 to R349), the reasons a step can stop, and the state after
reset (R41, R340). -/

namespace Sys2Proof.Machine

/-- `stage`, 3 bits, as an enumeration of the values it can hold (R21, U18). -/
inductive Stage where
  /-- 0: no session. -/
  | cleared
  /-- 1: the counts of one scanned input; no tree, no codes. -/
  | counted
  /-- 2: the tree, or the explicit empty tree, is built; no codes. -/
  | built
  /-- 3: the codes are assigned; the pad count is not yet meaningful. -/
  | assigned
  /-- 4: an `ENCODE` has completed `OK`; the pad count is that of the most recent one. -/
  | encoded
deriving DecidableEq, Repr

/-- `result`, 4 bits, as an enumeration of the codes it can hold (R26, R300, U18). -/
inductive ResultCode where
  /-- 0 `OK`: the command did its work. -/
  | ok
  /-- 1 `E_ILLEGAL_CMD` (R301). -/
  | illegalCmd
  /-- 2 `E_SEQ` (R302). -/
  | seq
  /-- 3 `E_COUNT_OVF` (R303). -/
  | countOvf
  /-- 4 `E_UNKNOWN_SYM` (R304). -/
  | unknownSym
  /-- 5 `E_DANGLING` (R305). -/
  | dangling
  /-- 6 `E_BAD_BIT` (R307). -/
  | badBit
deriving DecidableEq, Repr

/-- One entry of the node arena (R28): both children are always present or both absent. Frequencies are `CNT_W`-bit
unsigned numbers, held as naturals because no rule wraps one (R9, R170); log entry 2. -/
inductive Node where
  /-- `Leaf(freq, sym)`. -/
  | leaf (freq : Nat) (sym : Byte)
  /-- `Internal(freq, left, right)`. -/
  | internal (freq : Nat) (left right : NodeIx)
deriving DecidableEq, Repr

/-- The cleared arena entry `Leaf(0, 0)` (R28). -/
def Node.unused : Node := .leaf 0 0

/-- An indexed table of the block (R27 to R29), held as its entries that differ from the cleared value, each with its
index, in rising order of the index: equal tables are equal lists. `Ops.lean` reads and writes it. Log entry 3. -/
abbrev Table (α : Type) := List (Nat × α)

/-- How a streaming command will end, once the items it still has to take are taken and the items it still has to put
are put (R122, R306). -/
inductive Ending where
  /-- `FSCAN` has counted its stream (R141). -/
  | scanned
  /-- `FSCAN` met one byte too many (R144). -/
  | overflowed
  /-- `ENCODE` has packed its stream, with this pad count (R214). -/
  | encoded (pad : BitVec 3)
  /-- `ENCODE` met this byte, which has no code (R215). -/
  | unknownSym (b : Byte)
  /-- `DECODE` has walked its stream (R246). -/
  | decoded
  /-- `DECODE` ran out of bits inside a code (R246). -/
  | dangling
  /-- `DECODE` met a 1 bit with a single-leaf tree (R245). -/
  | badBit
deriving DecidableEq, Repr

/-- Where a streaming command stands between two items, with its transient state (R37, R38). -/
inductive Phase where
  /-- `FSCAN` counts the next byte. -/
  | counting
  /-- `ENCODE`, with its pending bit buffer `bitbuf` (R37). -/
  | encoding (bitbuf : Bits)
  /-- `DECODE`, with its `cursor` and its look-ahead byte `la` (R38). -/
  | decoding (cursor : NodeIx) (la : Option Byte)
  /-- `In.drain()`: every further item is taken and discarded (R10). -/
  | draining (e : Ending)
  /-- `End` is taken; only items to put on OUT remain. -/
  | finishing (e : Ending)
deriving DecidableEq, Repr

/-- A command that has been accepted and has not completed. -/
structure Running where
  /-- `stage` when the command was accepted: what `STATUS` shows meanwhile (R351). -/
  stage0 : Stage
  /-- Where the command stands. -/
  phase : Phase
  /-- OUT items the command has still to hand over, because the host takes none now; while there are any the command
  takes no further item (R64). They are not yet on the OUT stream. -/
  pend : List Item
deriving DecidableEq, Repr

/-- The IN port: what the host has supplied and the command it is for has not taken yet. `bytes` then, if `ended`, one
`End`. An item after `End` cannot be written down (R61, R348). -/
structure InStream where
  /-- The `Byte` items offered, first to be taken first. -/
  bytes : List Byte
  /-- Whether `End` follows them. -/
  ended : Bool
deriving DecidableEq, Repr

/-- What the host may do (R347). -/
inductive HostMove where
  /-- Write the word `w` to `CMD`, with the whole stream `operand`, `End` included, if there is one: a command as one
  transaction (R5, R36, R348). The stream is handed over when the command is accepted. -/
  | command (w : Byte) (operand : Option (List Byte))
  /-- Write a register by its number (R32). A write of register 0 issues a command with no stream yet; the host supplies
  it afterwards. -/
  | write (reg value : Nat)
  /-- Read a register by its number (R32). -/
  | read (reg : Nat)
  /-- Supply further bytes for the running command at the IN port, and `End` after them if `last` (R61, R347). -/
  | supply (bytes : List Byte) (last : Bool)
  /-- Say how many further OUT items the host will take; `none` is all of them, as R346 asks. -/
  | takeOut (room : Option Nat)
  /-- Assert the reset input (R340, R341). -/
  | reset
deriving DecidableEq, Repr

/-- The reasons for which the machine stops where the spec gives no effect. The block's own faults are no such stops:
each is a next state with a result code (R306). -/
inductive Fault where
  /-- Raised by `CASSIGN` and `DECODE` when the arena is no tree with root `root`: a `let` of R196 or R252 finds a node of
  the other shape, or a path longer than 255 edges. R42 and R171 rule that out in every state a run from reset
  reaches. SAFE: the model stops, so nothing is claimed of such a state. Log entry 4. -/
  | treeIllFormed
deriving DecidableEq, Repr

/-- The reasons for which the model gives no meaning. -/
inductive Refusal where
  /-- An instruction without a meaning yet. No arm of `exec` uses it. SAFE. -/
  | notModelled (mnemonic : String)
  /-- Raised by the IN port, never by a command: the host supplies an item after the running command's `End` (R348, U17
  `refuse`). SAFE: the spec assumes the host never does it. Log entry 7. -/
  | itemAfterEnd
  /-- Raised by the IN port, never by a command: the host supplies an item while no command runs, as after a command that
  was rejected (R348, U17 `refuse`). SAFE: the spec assumes the host never does it. Log entry 7. -/
  | itemForNoCommand
deriving DecidableEq, Repr

/-- The block and the host's side of its ports. -/
structure State where
  /-- The open parameter `CNT_W` (R7, D6). No step writes it. -/
  cntW : Nat
  /-- R21. -/
  stage : Stage
  /-- R22. -/
  total : Nat
  /-- R23. -/
  nsym : BitVec 9
  /-- R24. -/
  root : NodeIx
  /-- R25. -/
  pad : BitVec 3
  /-- R26. -/
  result : ResultCode
  /-- R26. -/
  rinfo : Byte
  /-- The frequency table, R27; an unlisted entry is 0. -/
  freq : Table Nat
  /-- The node arena, R28; an unlisted entry is `Leaf(0, 0)`. -/
  node : Table Node
  /-- The code table, R29; an unlisted entry is `unset`, which is `none`. -/
  code : Table (Option Bits)
  /-- R30. -/
  symSel : Byte
  /-- R30. -/
  nodeSel : BitVec 9
  /-- The running command with its transient state (R37, R38); `busy` (R31) is 1 when there is one. -/
  running : Option Running
  /-- The IN port (R61, R63). The model's own: streams are not state of the block. -/
  inStream : InStream
  /-- Every item put on OUT so far, in order (R62). The model's own. -/
  outStream : List Item
  /-- How many further OUT items the host will take; `none` is all of them. The model's own. -/
  outRoom : Option Nat
  /-- What the host will do next, first move first. The model's own. -/
  hostMoves : List HostMove
  /-- What the host read last. The model's own; no rule of the block reads it. -/
  hostRead : Option Nat
  /-- How many unspecified reads there have been: the argument of the free value of log entry 5. The model's own. -/
  freeReads : Nat
  /-- The (`result`, `rinfo`) pairs of the completed commands in command order (R349). The model's own. -/
  record : List (ResultCode × Byte)
deriving DecidableEq, Repr

/-- The state after reset (R41, R340), with `CNT_W` at its default (R7), no stream offered, a host that takes every OUT
item (R346) and no host move waiting. -/
def State.reset : State where
  cntW := Config.cntWDefault
  stage := .cleared
  total := 0
  nsym := 0
  root := 0
  pad := 0
  result := .ok
  rinfo := 0
  freq := []
  node := []
  code := []
  symSel := 0
  nodeSel := 0
  running := none
  inStream := ⟨[], false⟩
  outStream := []
  outRoom := none
  hostMoves := []
  hostRead := none
  freeReads := 0
  record := []

end Sys2Proof.Machine
end

