-- ==== Sys2Proof/Machine/Flags.lean ====
section
/-! DEFINITION. The block's status-like state (spec 10_state.md R45): the stage numbers (R21), the result codes (R300),
`busy` (R31) and the layout of `STATUS` (R33). The block has no condition codes, so no command computes a flag. -/

namespace Sys2Proof.Machine

/-- The 3-bit number of a stage (R21). -/
def Stage.toBits : Stage → BitVec 3
  | .cleared => 0
  | .counted => 1
  | .built => 2
  | .assigned => 3
  | .encoded => 4

/-- The 4-bit number of a result code (R300). -/
def ResultCode.toBits : ResultCode → BitVec 4
  | .ok => 0
  | .illegalCmd => 1
  | .seq => 2
  | .countOvf => 3
  | .unknownSym => 4
  | .dangling => 5
  | .badBit => 6

/-- `busy`: 1 from the moment a command is accepted until it completes (R31). -/
def State.busy (s : State) : Bool := s.running.isSome

/-- The stage `STATUS` shows: while a command runs, the stage as it was when the command was accepted (R351). -/
def State.shownStage (s : State) : Stage :=
  match s.running with
  | none => s.stage
  | some r => r.stage0

/-- `STATUS`: bit 0 `BUSY`, bits 3:1 `STAGE`, bits 7:4 read as 0 (R33). -/
def State.status (s : State) : BitVec 8 :=
  (0 : BitVec 4) ++ s.shownStage.toBits ++ BitVec.ofBool s.busy

/-- The condition "empty tree" a host computes from `NSYM` (R45). -/
def State.emptyTree (s : State) : Bool := s.nsym == 0

/-- The condition "single-leaf tree" a host computes from `NSYM` (R45). -/
def State.singleLeafTree (s : State) : Bool := s.nsym == 1

end Sys2Proof.Machine
end

