-- ==== Sys2Proof/Machine/Operands.lean ====
section
/-! DEFINITION. Bits and bytes (spec 00_scope.md R9, 20_memory.md R65), the packed forms the registers show (spec
30_encoding.md R94, R95) and the IN stream operand (R61). Every operand of a command is implicit (R92): a command takes
its stream from the IN port and everything else from the session. -/

namespace Sys2Proof.Machine

/-- `bits_of(b)`: the sequence `b[7], b[6], ..., b[0]` (R9). -/
def bitsOf (b : Byte) : Bits :=
  [b.getLsbD 7, b.getLsbD 6, b.getLsbD 5, b.getLsbD 4, b.getLsbD 3, b.getLsbD 2, b.getLsbD 1, b.getLsbD 0]

/-- `byte_of(s)` for an 8-bit sequence: the first bit becomes the most significant bit (R9). -/
def byteOf (s : Bits) : Byte :=
  BitVec.ofNat 8 (s.foldl (fun n x => 2 * n + x.toNat) 0)

/-- `zeros(k)` (R9). -/
def zeros (k : Nat) : Bits := List.replicate k false

/-- The byte values 0 to 255 in ascending order: the visiting order of R162. -/
def allBytes : List Byte := (List.range Config.symMax).map (BitVec.ofNat 8)

/-- The frequency field of a node (R28). -/
def Node.freqOf : Node → Nat
  | .leaf f _ => f
  | .internal f _ _ => f

/-- `NODE_INFO`, 27 bits: `right` 26:18, `left` 17:9, `sym` 8:1, `internal` 0 (R94). -/
def Node.info : Node → BitVec 27
  | .leaf _ v => (0 : BitVec 9) ++ (0 : BitVec 9) ++ v ++ (0 : BitVec 1)
  | .internal _ l r => r ++ l ++ (0 : BitVec 8) ++ (1 : BitVec 1)

/-- `SYM_CLEN`, 9 bits: `valid` in bit 8, the length in bits 7:0, and 0 for `unset` (R34, R95). -/
def codeLenReg : Option Bits → BitVec 9
  | none => 0
  | some c => (1 : BitVec 1) ++ BitVec.ofNat 8 c.length

/-- `SYM_CODE`, 255 bits: code bit i is register bit i, and 0 for `unset` (R34, R95). -/
def codeBitsReg : Option Bits → BitVec 255
  | none => 0
  | some c => BitVec.ofNat 255 (c.foldr (fun x n => x.toNat + 2 * n) 0)

/-- Nothing offered at the IN port. -/
def InStream.nothing : InStream := ⟨[], false⟩

/-- The items of what is offered (R61). -/
def InStream.items (i : InStream) : List Item :=
  i.bytes.map .byte ++ (if i.ended then [.eos] else [])

/-- The commands that take an IN stream operand (R63, R91). -/
def Instr.takesStream : Instr → Bool
  | .clear => false
  | .fscan => true
  | .tbuild => false
  | .cassign => false
  | .encode => true
  | .decode => true

/-- The IN port when the host hands a whole stream over with a command, or nothing yet (R348). -/
def InStream.ofOperand : Option (List Byte) → InStream
  | none => InStream.nothing
  | some d => ⟨d, true⟩

end Sys2Proof.Machine
end

