-- ==== Sys2Proof/Machine/Ops.lean ====
section
/-! DEFINITION. The named operations every command is written with: reading and writing the three tables (spec
10_state.md R27 to R29), `SessionClear()` (R40), the stage check (spec 40_command_dispatch.md R121), completing a
command (R124), `raise` (spec 60_exceptions.md R306), which is the block's counterpart of taking an exception, and
putting items on OUT (R62). There is no return from an exception: R310, "there is no return instruction and nothing to
restore". -/

namespace Sys2Proof.Machine

/-- Read the entry with index `a`; an unlisted entry holds the cleared value `d`. -/
def Table.read {α : Type} (d : α) : Table α → Nat → α
  | [], _ => d
  | (k, v) :: rest, a => if a = k then v else Table.read d rest a

/-- Write the entry with index `a`, keeping the indices rising and no entry equal to the cleared value `d`. -/
def Table.write {α : Type} [DecidableEq α] (d : α) : Table α → Nat → α → Table α
  | [], a, v => if v = d then [] else [(a, v)]
  | (k, w) :: rest, a, v =>
    if a < k then (if v = d then (k, w) :: rest else (a, v) :: (k, w) :: rest)
    else if a = k then (if v = d then rest else (a, v) :: rest)
    else (k, w) :: Table.write d rest a v

/-- The canonical form of a table of `size` entries: indices strictly rising and below `size`, no entry equal to the
cleared value. -/
abbrev Table.Canonical {α : Type} [DecidableEq α] (d : α) (size : Nat) (t : Table α) : Prop :=
  t.Pairwise (fun x y => x.1 < y.1) ∧ ∀ e ∈ t, e.1 < size ∧ e.2 ≠ d

/-- `freq[v]` (R10, R27). -/
def State.freqAt (s : State) (v : Byte) : Nat := Table.read 0 s.freq v.toNat

/-- `code[v]` (R10, R29); `none` is `unset`. -/
def State.codeAt (s : State) (v : Byte) : Option Bits := Table.read none s.code v.toNat

/-- `node[k]` of an arena (R10, R28). Index 511 names no entry and reads as the cleared entry (R35). -/
def arenaAt (a : Table Node) (k : NodeIx) : Node :=
  if k.toNat < Config.nodeMax then Table.read .unused a k.toNat else .unused

/-- `node[k] <- n` (R10, R28). Index 511 names no entry, so nothing is written there. -/
def arenaSet (a : Table Node) (k : NodeIx) (n : Node) : Table Node :=
  if k.toNat < Config.nodeMax then Table.write .unused a k.toNat n else a

/-- `code[v] <- c` (R10, R29). -/
def codeSet (t : Table (Option Bits)) (v : Byte) (c : Bits) : Table (Option Bits) :=
  Table.write none t v.toNat (some c)

/-- The tree of the session: the arena, the number of leaves and the root (R20, R43). -/
structure Tree where
  /-- `node[]`. -/
  node : Table Node
  /-- `nsym`. -/
  nsym : BitVec 9
  /-- `root`. -/
  root : NodeIx
deriving DecidableEq, Repr

/-- The session's tree as it stands. -/
def State.tree (s : State) : Tree := ⟨s.node, s.nsym, s.root⟩

/-- The three tables are in canonical form, every code has a length its entry can hold (R29), and every count fits
`CNT_W` bits (R22, R27, R28). These tables are what this block has for memory (R8, R60). -/
abbrev Memory.wf (s : State) : Prop :=
  Table.Canonical 0 Config.symMax s.freq ∧
  Table.Canonical Node.unused Config.nodeMax s.node ∧
  Table.Canonical none Config.symMax s.code ∧
  s.total < 2 ^ s.cntW ∧
  (∀ e ∈ s.freq, e.2 < 2 ^ s.cntW) ∧
  (∀ e ∈ s.node, e.2.freqOf < 2 ^ s.cntW) ∧
  (∀ e ∈ s.code, e.2.all wfCode = true)

/-- `SessionClear()` (R40): every piece of session state, but not `result`, `rinfo`, `sym_sel` and `node_sel`. -/
def sessionClear (s : State) : State :=
  { s with stage := .cleared, total := 0, nsym := 0, root := 0, pad := 0, freq := [], node := [], code := [] }

/-- Completion of a command (R124): `result` and `rinfo` are written, then `busy <- 0`; the pair joins the run's record
(R349). -/
def State.complete (r : ResultCode) (info : Byte) (s : State) : State :=
  { s with result := r, rinfo := info, running := none, record := s.record ++ [(r, info)] }

/-- Completion with `result <- OK ; rinfo <- 0` (R124). -/
def State.completeOk (s : State) : State := s.complete .ok 0

/-- `raise F(info)` (R306): `result <- F`, `rinfo <- info`, `busy <- 0`, and the command is complete. Nothing is saved
and control goes nowhere. The writes a command's rule lists before its `raise` are made by the caller. -/
def raise (f : ResultCode) (info : Byte) (s : State) : State := s.complete f info

/-- The stages at which a command is legal (R121). -/
def Instr.legalAt : Instr → Stage → Bool
  | .clear, _ => true
  | .fscan, _ => true
  | .tbuild, st => st = .counted
  | .cassign, st => st = .built
  | .encode, st => st = .assigned || st = .encoded
  | .decode, st => st = .encoded

/-- The host hands an IN stream over with a command: only to one that takes a stream and is accepted, so that no item
ever reaches a rejected command (R63, R348). Every such command finds its own stream at the IN port and nothing of an
earlier one's. Log entry 7. -/
def handOver (i : Instr) (operand : Option (List Byte)) (s : State) : State :=
  if Instr.takesStream i && Instr.legalAt i s.stage then { s with inStream := InStream.ofOperand operand } else s

/-- What a step of the machine answers. -/
abbrev StepResult := Host.Outcome State Fault Refusal

/-- The stage check of dispatch (R120 items 2 and 3): a command that is not legal at the current stage is rejected with
`E_SEQ` and its own word, and nothing else changes (R302); otherwise it runs. -/
def ifLegal (i : Instr) (s : State) (run : State → StepResult) : StepResult :=
  if Instr.legalAt i s.stage then run s else .next (raise .seq (encodeWord i) s)

/-- `Out.put` and `Out.end` (R62): the items join those still to be handed over, and as many as the host has room for
are appended to the OUT stream (R64, R74). -/
def putOut (items : List Item) (r : Running) (s : State) : Running × State :=
  let waiting := r.pend ++ items
  match s.outRoom with
  | none => ({ r with pend := [] }, { s with outStream := s.outStream ++ waiting })
  | some k =>
    ({ r with pend := waiting.drop k },
     { s with outStream := s.outStream ++ waiting.take k, outRoom := some (k - waiting.length) })

end Sys2Proof.Machine
end

