-- ==== Sys2Proof/Machine/Registers.lean ====
section
/-! DEFINITION. The host register map (spec 10_state.md R32 to R35) and its read and write sides. -/

namespace Sys2Proof.Machine

/-- The width in bits of register `n` (R32); a number of 15 or above names no register. -/
def regWidth (cntW n : Nat) : Nat :=
  match n with
  | 0 => 8
  | 1 => 8
  | 2 => 4
  | 3 => 8
  | 4 => 3
  | 5 => cntW
  | 6 => 9
  | 7 => 9
  | 8 => 8
  | 9 => cntW
  | 10 => 9
  | 11 => 255
  | 12 => 9
  | 13 => cntW
  | 14 => 27
  | _ => 0

/-- The value of register `n` while no command runs (R32 to R35), as a number. -/
def regValue (s : State) (n : Nat) : Nat :=
  match n with
  | 0 => 0                                            -- `CMD` is write only and reads 0
  | 1 => s.status.toNat
  | 2 => s.result.toBits.toNat
  | 3 => s.rinfo.toNat
  | 4 => s.pad.toNat
  | 5 => s.total
  | 6 => s.nsym.toNat
  | 7 => s.root.toNat
  | 8 => s.symSel.toNat
  | 9 => s.freqAt s.symSel
  | 10 => (codeLenReg (s.codeAt s.symSel)).toNat
  | 11 => (codeBitsReg (s.codeAt s.symSel)).toNat
  | 12 => s.nodeSel.toNat
  | 13 => (arenaAt s.node s.nodeSel).freqOf           -- 511 reads 0: `arenaAt` gives `Leaf(0, 0)` there
  | 14 => (arenaAt s.node s.nodeSel).info.toNat
  | _ => 0                                            -- 15 and above do not exist

/-- A read of register `n` by the host. No register has a side effect on read (R32). While a command runs only
`STATUS` reads correctly; every other register reads an unspecified value of its width (R351): the free value. -/
def readReg (n : Nat) (s : State) : State :=
  if s.busy && n != 1 && n < 15 then
    { s with hostRead := some (Config.unspecifiedRead s.freeReads % 2 ^ regWidth s.cntW n),
             freeReads := s.freeReads + 1 }
  else { s with hostRead := some (regValue s n) }

/-- A host write of register `n` other than `CMD`. `SYM_SEL` and `NODE_SEL` are stored as written, at any time (R30,
R347); a write to any other register is ignored (R32). A register takes the bits of its width. -/
def writeSelector (n value : Nat) (s : State) : State :=
  match n with
  | 8 => { s with symSel := BitVec.ofNat 8 value }
  | 12 => { s with nodeSel := BitVec.ofNat 9 value }
  | _ => s

end Sys2Proof.Machine
end

