-- ==== Sys2Proof/Machine/Clear.lean ====
section
/-! DEFINITION. `CLEAR` (spec 40_command_dispatch.md R123). -/

namespace Sys2Proof.Machine

/-- `CLEAR`: `SessionClear()`, then `result <- OK ; rinfo <- 0`. Legal at any stage, touches no stream, has no fault
(R123). -/
def execClear (s : State) : StepResult :=
  ifLegal .clear s fun s => .next (sessionClear s).completeOk

end Sys2Proof.Machine
end

