-- ==== Sys2Proof/Machine/CodeAssigner.lean ====
section
/-! DEFINITION. The Code Assigner and the command `CASSIGN` (spec 43_code_assigner.md R190 to R199). -/

namespace Sys2Proof.Machine

/-- The walk of R194 below node `k`, whose path is `p`: a leaf's path becomes its symbol's code, "0" is appended for the
left child and "1" for the right (R191). The number bounds the depth: a node at depth 255 is the deepest whose path a
code entry can hold (R29, R172). `none` when the arena is no tree. -/
def assignFrom (node : Table Node) : Nat → NodeIx → Bits → Table (Option Bits) → Option (Table (Option Bits))
  | 0, _, _, _ => none
  | d + 1, k, p, codes =>
    match arenaAt node k with
    | .leaf _ v => some (codeSet codes v p)
    | .internal _ l r =>
      match assignFrom node d l (p ++ [false]) codes with
      | none => none
      | some codes' => assignFrom node d r (p ++ [true]) codes'

/-- The code table `CASSIGN` leaves (R196): nothing is written for the empty tree (R193), the code "0" for the
single-leaf tree (R192), the paths otherwise (R191). -/
def assignCodes (t : Tree) (codes : Table (Option Bits)) : Option (Table (Option Bits)) :=
  if t.nsym = 0 then some codes
  else if t.nsym = 1 then
    match arenaAt t.node t.root with
    | .leaf _ v => some (codeSet codes v [false])
    | .internal _ _ _ => none
  else assignFrom t.node (Config.codeMax + 1) t.root [] codes

/-- `CASSIGN` (R196): legal only at `BUILT`, no stream, no fault of its own (R199). Over an arena that is no tree it
stops (log entry 4). -/
def execCassign (s : State) : StepResult :=
  ifLegal .cassign s fun s =>
    match assignCodes s.tree s.code with
    | none => .fault .treeIllFormed
    | some codes => .next { s with code := codes, stage := .assigned }.completeOk

end Sys2Proof.Machine
end

