-- ==== Sys2Proof/Machine/FrequencyTable.lean ====
section
/-! DEFINITION. The Frequency Table: what `FSCAN` does with one item (spec 41_frequency_scan.md R141 to R144).
`Streaming.lean` runs it over the stream. -/

namespace Sys2Proof.Machine

/-- What a streaming command does with one `Byte` item: the state and the phase after it, and the items it puts on
OUT. -/
structure Taken where
  /-- The session after the item. -/
  state : State
  /-- The phase after the item. -/
  phase : Phase
  /-- The items put on OUT, in order. -/
  out : List Item
deriving DecidableEq, Repr

/-- `freq[b] <- freq[b] + 1 ; total <- total + 1` (R143). -/
def countByte (b : Byte) (s : State) : State :=
  { s with freq := Table.write 0 s.freq b.toNat (s.freqAt b + 1), total := s.total + 1 }

/-- `FSCAN` on `Byte(b)` (R141): one more byte than the counters can hold clears the session again and drains the
stream (R144). -/
def scanByte (b : Byte) (s : State) : Taken :=
  if s.total = Config.lenLimit s.cntW then ⟨sessionClear s, .draining .overflowed, []⟩
  else ⟨countByte b s, .counting, []⟩

end Sys2Proof.Machine
end

