-- ==== Sys2Proof/Machine/Decoder.lean ====
section
/-! DEFINITION. The Tree-Walking Decoder: what `DECODE` does with one bit and with one item (spec 45_decoder.md R242 to
R247, R252). `Streaming.lean` runs it over the stream. -/

namespace Sys2Proof.Machine

/-- Why a walk stops before its bits are used up. -/
inductive WalkStop where
  /-- A retained 1 bit with a single-leaf tree (R245). -/
  | badBit
  /-- A node of the wrong shape: the arena is no tree (log entry 4). -/
  | offTree
deriving DecidableEq, Repr

/-- One bit (R244, R245, R247): the cursor after it and the symbol emitted, if any. -/
def walkBit (t : Tree) (cursor : NodeIx) (x : Bool) : Except WalkStop (NodeIx × Option Byte) :=
  if t.nsym = 1 then
    match arenaAt t.node t.root with
    | .leaf _ v => if x then .error .badBit else .ok (cursor, some v)
    | .internal _ _ _ => .error .offTree
  else
    match arenaAt t.node cursor with
    | .leaf _ _ => .error .offTree
    | .internal _ l r =>
      let c := if x then r else l
      match arenaAt t.node c with
      | .leaf _ v => .ok (t.root, some v)
      | .internal _ _ _ => .ok (c, none)

/-- What a walk over a bit sequence gives. -/
structure Walked where
  /-- The symbols emitted, in order. -/
  out : List Byte
  /-- The cursor when the walk ends. -/
  cursor : NodeIx
  /-- Why it stopped early, if it did. -/
  stop : Option WalkStop
deriving DecidableEq, Repr

/-- `walk_bits` (R252): the bits in order, until one stops the walk. -/
def walkBits (t : Tree) : NodeIx → Bits → Walked
  | cursor, [] => ⟨[], cursor, none⟩
  | cursor, x :: xs =>
    match walkBit t cursor x with
    | .error e => ⟨[], cursor, some e⟩
    | .ok (c, o) =>
      let w := walkBits t c xs
      ⟨o.toList ++ w.out, w.cursor, w.stop⟩

/-- `DECODE` on `Byte(b)` (R242): the byte held back was not the last, so all its 8 bits are walked; then `la <-
some(b)`. A bad bit ends OUT and drains IN (R246). -/
def decodeByte (b : Byte) (cursor : NodeIx) (la : Option Byte) (s : State) : Except Fault Taken :=
  match la with
  | none => .ok ⟨s, .decoding cursor (some b), []⟩
  | some p =>
    let w := walkBits s.tree cursor (bitsOf p)
    match w.stop with
    | none => .ok ⟨s, .decoding w.cursor (some b), w.out.map .byte⟩
    | some .badBit => .ok ⟨s, .draining .badBit, w.out.map .byte ++ [.eos]⟩
    | some .offTree => .error .treeIllFormed

/-- `DECODE` on `End` (R242, R246): the byte held back was the last, so only its first `8 - pad` bits are walked; a cursor
away from the root then is `E_DANGLING`. -/
def decodeEnd (cursor : NodeIx) (la : Option Byte) (s : State) : Except Fault (Ending × List Item) :=
  let w : Walked := match la with
    | none => ⟨[], cursor, none⟩
    | some p => walkBits s.tree cursor ((bitsOf p).take (8 - s.pad.toNat))
  match w.stop with
  | none => .ok (if w.cursor = s.root then .decoded else .dangling, w.out.map .byte ++ [.eos])
  | some .badBit => .ok (.badBit, w.out.map .byte ++ [.eos])
  | some .offTree => .error .treeIllFormed

end Sys2Proof.Machine
end

