-- ==== Sys2Proof/Machine/Encoder.lean ====
section
/-! DEFINITION. The Bit-Packing Encoder: what `ENCODE` does with one item (spec 44_encoder.md R211 to R215, R221).
`Streaming.lean` runs it over the stream. -/

namespace Sys2Proof.Machine

/-- The flush (R212): while the buffer holds 8 bits or more, its first 8 bits leave as one byte. -/
def flush : Bits → List Byte × Bits
  | x0 :: x1 :: x2 :: x3 :: x4 :: x5 :: x6 :: x7 :: rest =>
    let r := flush rest
    (byteOf [x0, x1, x2, x3, x4, x5, x6, x7] :: r.1, r.2)
  | buf => ([], buf)

/-- `ENCODE` on `Byte(b)`: the code joins the bit buffer and full bytes leave (R211, R212); a byte without a code ends
OUT and drains IN, and the buffer is dropped (R215). -/
def encodeByte (b : Byte) (bitbuf : Bits) (s : State) : Taken :=
  match s.codeAt b with
  | none => ⟨s, .draining (.unknownSym b), [.eos]⟩
  | some c =>
    let r := flush (bitbuf ++ c)
    ⟨s, .encoding r.2, r.1.map .byte⟩

/-- `ENCODE` on `End`: leftover bits are padded with 0 bits to one last byte (R214). -/
def encodeEnd (bitbuf : Bits) : Ending × List Item :=
  if bitbuf.length = 0 then (.encoded 0, [.eos])
  else (.encoded (BitVec.ofNat 3 (8 - bitbuf.length)), [.byte (byteOf (bitbuf ++ zeros (8 - bitbuf.length))), .eos])

end Sys2Proof.Machine
end

