-- ==== Sys2Proof/Machine/Streaming.lean ====
section
/-! DEFINITION. The streaming commands `FSCAN`, `ENCODE` and `DECODE` (spec 41_frequency_scan.md R141, 44_encoder.md
R221, 45_decoder.md R252), run over the IN port item by item. When the port offers a whole stream and the host takes
every OUT item, the command completes within the step, as R5 has it; otherwise it stays running and goes on when the
host supplies or takes more (R64, R74). -/

namespace Sys2Proof.Machine

/-- `In.next()` gave `Byte(b)`. -/
def takeByte (b : Byte) (s : State) : Phase → Except Fault Taken
  | .counting => .ok (scanByte b s)
  | .encoding bitbuf => .ok (encodeByte b bitbuf s)
  | .decoding cursor la => decodeByte b cursor la s
  | .draining e => .ok ⟨s, .draining e, []⟩
  | .finishing e => .ok ⟨s, .finishing e, []⟩

/-- The items a drained command still puts after `In.drain()`: for the empty tree `DECODE` drains first and ends OUT
then (R241, R252); on a fault OUT is ended before IN is drained (R215, R246), and `FSCAN` has no OUT. -/
def afterDrain : Ending → List Item
  | .decoded => [.eos]
  | _ => []

/-- `In.next()` gave `End`: how the command ends, and the last items it puts. -/
def takeEnd (s : State) : Phase → Except Fault (Ending × List Item)
  | .counting => .ok (.scanned, [])
  | .encoding bitbuf => .ok (encodeEnd bitbuf)
  | .decoding cursor la => decodeEnd cursor la s
  | .draining e => .ok (e, afterDrain e)
  | .finishing e => .ok (e, [])

/-- The writes that end a command (R122, R124, R306). -/
def finish : Ending → State → State
  | .scanned, s => { s with stage := .counted }.completeOk
  | .overflowed, s => raise .countOvf 0 s
  | .encoded p, s => { s with pad := p, stage := .encoded }.completeOk
  | .unknownSym b, s => raise .unknownSym b { s with pad := 0, stage := .assigned }
  | .decoded, s => s.completeOk
  | .dangling, s => raise .dangling 0 s
  | .badBit, s => raise .badBit 0 s

/-- The command stays running with what the IN port still offers. -/
def park (r : Running) (inS : InStream) (s : State) : StepResult :=
  .next { s with running := some r, inStream := inS }

/-- `End` is taken: the command completes as soon as the host has taken over its last OUT items. -/
def conclude (e : Ending) (r : Running) (s : State) : StepResult :=
  if r.pend.isEmpty then .next (finish e { s with inStream := InStream.nothing })
  else park { r with phase := .finishing e } InStream.nothing s

/-- Run a command over the bytes the IN port offers, `End` after them if `ended`. It stops taking items while OUT items
wait for the host, and waits when the port runs dry without `End` (R64). -/
def feed (ended : Bool) : List Byte → Running → State → StepResult
  | [], r, s =>
    if r.pend.isEmpty && ended then
      match takeEnd s r.phase with
      | .error f => .fault f
      | .ok (e, out) =>
        let p := putOut out r s
        conclude e p.1 p.2
    else park r ⟨[], ended⟩ s
  | b :: bs, r, s =>
    if r.pend.isEmpty then
      match takeByte b s r.phase with
      | .error f => .fault f
      | .ok t =>
        let p := putOut t.out { r with phase := t.phase } t.state
        feed ended bs p.1 p.2
    else park r ⟨b :: bs, ended⟩ s

/-- Start a streaming command at a phase over what the IN port offers; `st0` is the stage at which it was accepted. -/
def start (st0 : Stage) (ph : Phase) (s : State) : StepResult :=
  feed s.inStream.ended s.inStream.bytes ⟨st0, ph, []⟩ s

/-- Go on with the running command, if there is one, after the host has supplied or taken items. -/
def resume (s : State) : StepResult :=
  match s.running with
  | none => .next s
  | some r =>
    let p := putOut [] r s
    match p.1.phase with
    | .finishing e => if p.1.pend.isEmpty then .next (finish e p.2) else .next { p.2 with running := some p.1 }
    | _ => feed p.2.inStream.ended p.2.inStream.bytes p.1 p.2

/-- `FSCAN` (R141): legal at any stage; it clears the session before it takes the first item (R142). -/
def execFscan (s : State) : StepResult :=
  ifLegal .fscan s fun s => start s.stage .counting (sessionClear s)

/-- `ENCODE` (R221): legal at `ASSIGNED` or `ENCODED`; it starts with the empty bit buffer (R211). -/
def execEncode (s : State) : StepResult :=
  ifLegal .encode s fun s => start s.stage (.encoding []) s

/-- `DECODE` (R252): legal at `ENCODED`; with the empty tree it only drains its stream (R241), otherwise it starts with
`cursor = root` and `la = none` (R38). -/
def execDecode (s : State) : StepResult :=
  ifLegal .decode s fun s =>
    if s.nsym = 0 then start s.stage (.draining .decoded) s
    else start s.stage (.decoding s.root none) s

end Sys2Proof.Machine
end

