-- ==== Sys2Proof/Machine/TreeBuilder.lean ====
section
/-! DEFINITION. The Tree Builder and the command `TBUILD` (spec 42_tree_builder.md R160 to R176). -/

namespace Sys2Proof.Machine

/-- What `TBUILD` works on: the arena, the queue `Q` and `next` (R39). `TBUILD` takes no stream item, so it completes in
the step that starts it and neither `Q` nor `next` exists between steps (R39, R41, U25). -/
structure Builder where
  /-- `node[]`. -/
  node : Table Node
  /-- `Q`, a set of node indices; its order is not used (R39). -/
  queue : List NodeIx
  /-- `next`, the next free arena index (R39). -/
  next : NodeIx
deriving DecidableEq, Repr

/-- `node[next] <- n ; Q <- Q with next added ; next <- next + 1` (R162, R165). -/
def Builder.add (n : Node) (b : Builder) : Builder :=
  { node := arenaSet b.node b.next n, queue := b.queue ++ [b.next], next := b.next + 1 }

/-- One visit of the seeding loop: a byte value of non-zero frequency gets a leaf (R162). -/
def seedLeaf (freq : Table Nat) (b : Builder) (v : Byte) : Builder :=
  if Table.read 0 freq v.toNat > 0 then b.add (.leaf (Table.read 0 freq v.toNat) v) else b

/-- The seeding loop, `v = 0 .. 255` ascending, from `n = 0` and the empty queue (R162, R174). -/
def seedLeaves (arena : Table Node) (freq : Table Nat) : Builder :=
  allBytes.foldl (seedLeaf freq) ⟨arena, [], 0⟩

/-- Node `p` leaves the queue before node `q`: its key `(frequency, index)` is lexicographically smaller (R163). -/
def keyBefore (arena : Table Node) (p q : NodeIx) : Bool :=
  let fp := (arenaAt arena p).freqOf
  let fq := (arenaAt arena q).freqOf
  fp < fq || (fp = fq && p.toNat < q.toNat)

/-- The index of smallest key among `q` and the rest (R164). -/
def minKey (arena : Table Node) (q : NodeIx) (rest : List NodeIx) : NodeIx :=
  rest.foldl (fun best x => if keyBefore arena x best then x else best) q

/-- `extract_min(Q)`: the index of smallest key, and `Q` without it; none when `Q` is empty (R164). -/
def extractMin (arena : Table Node) : List NodeIx → Option (NodeIx × List NodeIx)
  | [] => none
  | q :: rest =>
    let m := minKey arena q rest
    some (m, (q :: rest).erase m)

/-- One pass of the merge loop: the first extracted becomes `left`, the second `right` (R165, R166). A queue of fewer
than two indices is left alone. -/
def mergeOnce (b : Builder) : Builder :=
  match extractMin b.node b.queue with
  | none => b
  | some (x, q1) =>
    match extractMin b.node q1 with
    | none => b
    | some (y, q2) =>
      let sum := (arenaAt b.node x).freqOf + (arenaAt b.node y).freqOf
      Builder.add (.internal sum x y) { b with queue := q2 }

/-- `while |Q| >= 2` (R165). Each pass takes one index more than it adds, so the length of the queue bounds the
passes. -/
def mergeLoop : Nat → Builder → Builder
  | 0, b => b
  | k + 1, b => if b.queue.length ≥ 2 then mergeLoop k (mergeOnce b) else b

/-- The root: the one index in `Q`, or 0 when the tree is empty (R167, R168). -/
def rootOf : List NodeIx → NodeIx
  | [k] => k
  | _ => 0

/-- The tree `TBUILD` makes of the frequency table, over the arena as it stands (R161, R174). `nsym` is the number of
leaves seeded, which is `next` when the seeding loop ends. -/
def buildTree (arena : Table Node) (freq : Table Nat) : Tree :=
  let seeded := seedLeaves arena freq
  let done := mergeLoop seeded.queue.length seeded
  ⟨done.node, seeded.next, rootOf done.queue⟩

/-- `TBUILD` (R174): legal only at `COUNTED`, no stream, no fault (R176). -/
def execTbuild (s : State) : StepResult :=
  ifLegal .tbuild s fun s =>
    let t := buildTree s.node s.freq
    .next { s with node := t.node, nsym := t.nsym, root := t.root, stage := .built }.completeOk

end Sys2Proof.Machine
end

