-- ==== Sys2Proof/Machine/Dispatch.lean ====
section
/-! DEFINITION. One arm per command (spec 30_encoding.md R91, opcode_table.json). -/

namespace Sys2Proof.Machine

/-- A legal command word, issued while no command runs: the stage check of R120 stands at the front of each meaning. -/
def exec (i : Instr) (s : State) : Host.Outcome State Fault Refusal :=
  match i with
  | .clear => Sys2Proof.Machine.execClear s
  | .fscan => Sys2Proof.Machine.execFscan s
  | .tbuild => Sys2Proof.Machine.execTbuild s
  | .cassign => Sys2Proof.Machine.execCassign s
  | .encode => Sys2Proof.Machine.execEncode s
  | .decode => Sys2Proof.Machine.execDecode s

end Sys2Proof.Machine
end

