-- ==== Sys2Proof/Machine/HostPort.lean ====
section
/-! DEFINITION. What each move of the host does (spec 10_state.md R32, R36, 20_memory.md R61 to R64,
40_command_dispatch.md R120, 70_reset_and_hazards.md R340 to R348). -/

namespace Sys2Proof.Machine

/-- Dispatch of a word written to `CMD` with `busy = 0` (R120): an illegal word is rejected with `E_ILLEGAL_CMD` and
`rinfo <- w`, and nothing else changes (R301); a command goes to its meaning, with the stream the host has for it. -/
def dispatch (w : Byte) (operand : Option (List Byte)) (s : State) : StepResult :=
  match decodeBytes [w] with
  | .error _ => .next (raise .illegalCmd w s)
  | .ok (i, _) => exec i (handOver i operand s)

/-- A write to `CMD` (R36): ignored while a command runs, and then nothing is handed over either (R343, R348). -/
def writeCmd (w : Byte) (operand : Option (List Byte)) (s : State) : StepResult :=
  if s.busy then .next s else dispatch w operand s

/-- Reset (R340): every piece of the block's own state takes its reset value, whatever ran (R341). The streams, what the
host will do and the run's record are not state of the block, and reset neither creates, consumes nor ends a stream
(R63). -/
def resetBlock (s : State) : State :=
  { sessionClear s with
    result := .ok
    rinfo := 0
    symSel := 0
    nodeSel := 0
    running := none }

/-- Whether the running command has been supplied its `End`: it still waits at the IN port, or it has been taken. -/
def endSupplied (r : Running) (s : State) : Bool :=
  s.inStream.ended || match r.phase with
    | .finishing _ => true
    | _ => false

/-- Further items at the IN port (R61), for the running command. An item with no command to take it, as after a rejected
command, and an item after the command's `End`, whether or not `End` has been taken, are none the host may supply
(R348, U17 `refuse`). A move that supplies no item does nothing. -/
def supplyIn (bytes : List Byte) (last : Bool) (s : State) : StepResult :=
  if bytes.isEmpty && !last then .next s
  else
    match s.running with
    | none => .refused .itemForNoCommand
    | some r =>
      if endSupplied r s then .refused .itemAfterEnd
      else resume { s with inStream := ⟨s.inStream.bytes ++ bytes, last⟩ }

/-- One move of the host. A command as one transaction brings its whole stream; a plain write of register 0 issues a
command whose stream the host supplies afterwards. -/
def hostMove (m : HostMove) (s : State) : StepResult :=
  match m with
  | .command w operand => writeCmd w operand s
  | .write n value => if n = 0 then writeCmd (BitVec.ofNat 8 value) none s else .next (writeSelector n value s)
  | .read n => .next (readReg n s)
  | .supply bytes last => supplyIn bytes last s
  | .takeOut room => resume { s with outRoom := room }
  | .reset => .next (resetBlock s)

end Sys2Proof.Machine
end

