-- ==== Sys2Proof/Machine/Step.lean ====
section
/-! DEFINITION. One step of the machine: the next move of the host (spec 00_scope.md R5, R6). The block has no program
counter and fetches nothing (R44); what selects the next command is the host's next write to `CMD` (R36). -/

namespace Sys2Proof.Machine

/-- One step. With no move of the host waiting, the block waits (R340). -/
def step (s : State) : Host.Outcome State Fault Refusal :=
  match s.hostMoves with
  | [] => .next s
  | m :: rest => hostMove m { s with hostMoves := rest }

/-- `s` with the command word `w` as the host's next write to `CMD`, no command running, and whatever the IN port offers,
`End` after it, as the stream for the command, so that the very next step runs that command to completion. -/
def State.withFetchWord (s : State) (nbits w : Nat) : State :=
  { s with
    hostMoves := .command (BitVec.ofNat 8 (w % 2 ^ nbits)) (some s.inStream.bytes) :: s.hostMoves
    running := none }

end Sys2Proof.Machine
end

