-- ==== Sys2Proof/Safety.lean ====
section
/-! DEFINITION. What claims are stated in terms of: runs, the session invariant of spec 10_state.md R42, the tree as a value
(R43), and the spec's own whole-stream descriptions (30_encoding.md R98, 43_code_assigner.md R191, 44_encoder.md R216,
45_decoder.md R243 and R248), written here without the machine's item-by-item definitions, so that a claim can compare
the two. -/

namespace Sys2Proof.Machine

/-! ### Runs -/

/-- `k` steps, stopping at the first stop. -/
def runSteps : Nat → State → StepResult
  | 0, s => .next s
  | k + 1, s =>
    match step s with
    | .next t => runSteps k t
    | .fault f => .fault f
    | .refused r => .refused r

/-- The next step does not stop with a fault. -/
def SafeStep (s : State) : Prop := ∀ f, step s ≠ .fault f

/-- The host meets its first two duties of R346 for a command about to run: the IN port offers the whole stream `d`,
`End` included, and every OUT item is taken. -/
def HostServes (s : State) (d : List Byte) : Prop := s.inStream = ⟨d, true⟩ ∧ s.outRoom = none

/-- A running command has OUT items still to put before it can complete: some wait for the host, or its phase ends OUT
only later (R63). -/
def OwesOutput (r : Running) : Prop :=
  r.pend ≠ [] ∨
  match r.phase with
  | .encoding _ | .decoding _ _ | .draining .decoded => True
  | _ => False

/-- `COMPRESS d` (R101, R280) as host moves. -/
def compressMoves (d : List Byte) : List HostMove :=
  [.command 0x01 (some d), .command 0x02 none, .command 0x03 none, .command 0x04 (some d)]

/-- `DECODE p` as a host move: `DECOMPRESS p` (R101, R281). -/
def decodeMove (p : List Byte) : HostMove := .command 0x05 (some p)

/-- The items of one whole OUT stream: the bytes, then exactly one `End` (R63). -/
def outItems (bytes : List Byte) : List Item := bytes.map .byte ++ [.eos]

/-! ### The counts and the tree -/

/-- `freq[v]` is the number of occurrences of `v` in `d`, for every `v` (R143). -/
def CountsOf (d : List Byte) (freq : Table Nat) : Prop := ∀ v : Byte, Table.read 0 freq v.toNat = d.count v

/-- The byte values of non-zero frequency, in ascending order (R162). -/
def present (freq : Table Nat) : List Byte := allBytes.filter fun v => decide (0 < Table.read 0 freq v.toNat)

/-- The lexicographic order of the queue's keys `(frequency, index)` (R163). -/
def KeyLess (node : Table Node) (p q : NodeIx) : Prop :=
  (arenaAt node p).freqOf < (arenaAt node q).freqOf ∨
  ((arenaAt node p).freqOf = (arenaAt node q).freqOf ∧ p.toNat < q.toNat)

/-- Node `m` is internal and `k` is one of its children. -/
def IsChild (node : Table Node) (m k : NodeIx) : Prop :=
  ∃ f l r, arenaAt node m = .internal f l r ∧ (l = k ∨ r = k)

/-- A leaf, of some frequency and symbol. -/
def IsLeaf (node : Table Node) (k : NodeIx) : Prop := ∃ f v, arenaAt node k = .leaf f v

/-- An internal node, of some frequency and children. -/
def IsInternal (node : Table Node) (k : NodeIx) : Prop := ∃ f l r, arenaAt node k = .internal f l r

/-- The tree as a value of an inductive type (R43). -/
inductive TreeValue where
  /-- `Leaf(freq, sym)`. -/
  | leaf (freq : Nat) (sym : Byte)
  /-- `Internal(freq, Tree, Tree)`. -/
  | internal (freq : Nat) (left right : TreeValue)
deriving DecidableEq, Repr

/-- `tree_at(k)` (R43), to a given depth. -/
def treeAt (node : Table Node) : Nat → NodeIx → Option TreeValue
  | 0, _ => none
  | d + 1, k =>
    match arenaAt node k with
    | .leaf f v => some (.leaf f v)
    | .internal f l r =>
      match treeAt node d l, treeAt node d r with
      | some tl, some tr => some (.internal f tl tr)
      | _, _ => none

/-- The frequency of a tree's root. -/
def TreeValue.freq : TreeValue → Nat
  | .leaf f _ => f
  | .internal f _ _ => f

/-- The symbols of a tree's leaves, left to right. -/
def TreeValue.symbols : TreeValue → List Byte
  | .leaf _ v => [v]
  | .internal _ l r => l.symbols ++ r.symbols

/-- Every internal node's frequency is the sum of its children's, and every leaf's is its symbol's count. -/
def TreeValue.Sums (freq : Table Nat) : TreeValue → Prop
  | .leaf f v => f = Table.read 0 freq v.toNat
  | .internal f l r => f = l.freq + r.freq ∧ l.Sums freq ∧ r.Sums freq

/-- `p` is the path from node `m` down to node `k`, "0" for left and "1" for right (R191). -/
inductive PathTo (node : Table Node) : NodeIx → Bits → NodeIx → Prop where
  /-- The empty path. -/
  | here (k : NodeIx) : PathTo node k [] k
  /-- A path that begins with the left branch. -/
  | left {m l r k : NodeIx} {f : Nat} {p : Bits} :
      arenaAt node m = .internal f l r → PathTo node l p k → PathTo node m (false :: p) k
  /-- A path that begins with the right branch. -/
  | right {m l r k : NodeIx} {f : Nat} {p : Bits} :
      arenaAt node m = .internal f l r → PathTo node r p k → PathTo node m (true :: p) k

/-! ### The packed stream -/

/-- `code[d_0] ++ code[d_1] ++ ...` (R98); a byte without a code adds nothing. -/
def codeBits (s : State) (d : List Byte) : Bits := d.flatMap fun b => (s.codeAt b).getD []

/-- Every byte of `d` has a code. -/
def AllCoded (s : State) (d : List Byte) : Prop := ∀ b ∈ d, s.codeAt b ≠ none

/-- `pad = (8 - (T mod 8)) mod 8` (R98). -/
def padFor (t : Nat) : Nat := (8 - t % 8) % 8

/-- The first `n` bytes of a bit sequence, byte j being `byte_of(bits[8j .. 8j+8))` (R65, R98). -/
def packedBytes (n : Nat) (bits : Bits) : List Byte :=
  (List.range n).map fun j => byteOf ((bits.drop (8 * j)).take 8)

/-- The packed stream `P` of a bit sequence (R98). -/
def packed (bits : Bits) : List Byte :=
  packedBytes ((bits.length + 7) / 8) (bits ++ zeros (padFor bits.length))

/-- The retained bits of a packed stream (R243). -/
def retained (pad : Nat) (p : List Byte) : Bits := (p.flatMap bitsOf).take (8 * p.length - pad)

/-- `walk(c, s)` for `nsym >= 2` (R248). R248 calls it at internal nodes only; at a leaf it stops. -/
def walk (t : Tree) : NodeIx → Bits → List Byte × NodeIx
  | c, [] => ([], c)
  | c, x :: xs =>
    match arenaAt t.node c with
    | .leaf _ _ => ([], c)
    | .internal _ l r =>
      match arenaAt t.node (if x then r else l) with
      | .leaf _ v => (v :: (walk t t.root xs).1, (walk t t.root xs).2)
      | .internal _ _ _ => walk t (if x then r else l) xs

/-- The OUT bytes and the result of `DECODE` on the packed bytes `p`, by the table of R248. `sym` is the symbol of a
single-leaf tree. -/
def decodeOutcome (t : Tree) (pad : Nat) (sym : Byte) (p : List Byte) : List Byte × ResultCode :=
  if t.nsym = 0 then ([], .ok)
  else if p = [] then ([], .ok)
  else if t.nsym = 1 then
    (List.replicate ((retained pad p).takeWhile (fun x => !x)).length sym,
     if (retained pad p).all (fun x => !x) then .ok else .badBit)
  else
    ((walk t t.root (retained pad p)).1,
     if (walk t t.root (retained pad p)).2 = t.root then .ok else .dangling)

/-- The symbol of a leaf. -/
def symOf : Node → Byte
  | .leaf _ v => v
  | .internal _ _ _ => 0

/-! ### The session invariant -/

/-- The counts are those of some byte sequence no longer than the counters can hold (R42, row `COUNTED`). -/
def CountsHold (s : State) : Prop :=
  Table.Canonical 0 Config.symMax s.freq ∧
  ∃ d : List Byte, d.length = s.total ∧ d.length ≤ Config.lenLimit s.cntW ∧ CountsOf d s.freq

/-- What holds of the session at a stage (R42). -/
def HoldsAt (st : Stage) (s : State) : Prop :=
  match st with
  | .cleared =>
    s.total = 0 ∧ s.nsym = 0 ∧ s.root = 0 ∧ s.pad = 0 ∧ s.freq = [] ∧ s.node = [] ∧ s.code = []
  | .counted => CountsHold s ∧ s.nsym = 0 ∧ s.root = 0 ∧ s.pad = 0 ∧ s.node = [] ∧ s.code = []
  | .built => CountsHold s ∧ s.tree = buildTree [] s.freq ∧ s.code = [] ∧ s.pad = 0
  | .assigned =>
    CountsHold s ∧ s.tree = buildTree [] s.freq ∧ assignCodes s.tree [] = some s.code ∧ s.pad = 0
  | .encoded => CountsHold s ∧ s.tree = buildTree [] s.freq ∧ assignCodes s.tree [] = some s.code

/-- The cursor stands where a bit can be taken (R244, R245). -/
def CursorOnTree (t : Tree) (cursor : NodeIx) : Prop :=
  t.nsym ≠ 0 ∧ (t.nsym = 1 → cursor = t.root) ∧ (t.nsym ≠ 1 → IsInternal t.node cursor)

/-- What holds of the session when a command is about to end in a given way. -/
def EndingHolds (e : Ending) (s : State) : Prop :=
  match e with
  | .scanned => s.stage = .cleared ∧ HoldsAt .counted s
  | .overflowed => s.stage = .cleared ∧ HoldsAt .cleared s
  | .encoded _ | .unknownSym _ => (s.stage = .assigned ∨ s.stage = .encoded) ∧ HoldsAt s.stage s
  | .decoded | .dangling | .badBit => s.stage = .encoded ∧ HoldsAt .encoded s

/-- What holds of the session while a streaming command runs: `FSCAN` works on a cleared session whose counts are those
of the bytes taken so far, `ENCODE` and `DECODE` on the session as they found it. -/
def RunningHolds (r : Running) (s : State) : Prop :=
  match r.phase with
  | .counting => s.stage = .cleared ∧ HoldsAt .counted s
  | .encoding bitbuf =>
    (s.stage = .assigned ∨ s.stage = .encoded) ∧ HoldsAt s.stage s ∧ bitbuf.length ≤ 7
  | .decoding cursor _ => s.stage = .encoded ∧ HoldsAt .encoded s ∧ CursorOnTree s.tree cursor
  | .draining e => EndingHolds e s
  | .finishing e => EndingHolds e s

/-- The session invariant (R42), for a block at rest and for one with a command running. R42's clause that `pad` at
`ENCODED` is the pad count of the most recent `OK` `ENCODE` is about the run and not in it. -/
def Inv (s : State) : Prop :=
  1 ≤ s.cntW ∧
  match s.running with
  | none => HoldsAt s.stage s
  | some r => RunningHolds r s

end Sys2Proof.Machine
end

