-- ==== Sys2Proof/Certificates/Slice0/Obligations.lean ====
section
/-! DEFINITION. The statements for the provers, file by file of the spec. Each docstring names the rule. Where a next
state is written out as an update of the state before, everything the update does not name is unchanged: that is the
statement's frame. The fields `inStream`, `outStream`, `outRoom`, `hostMoves`, `hostRead` and `record` are the model's own
rendering of the host's side (log entry 1): an `inStream` of no bytes and no `End` says that every item offered, `End`
included, has been taken. -/

open Sys2Proof Sys2Proof.Machine

/-! ### Encoding (30_encoding.md) -/

/-- R91: each command word, bit by bit, decodes to its command, and the six legal words are exactly 0x00 to 0x05. -/
def Obligations.CommandWordsDecodeAsTheMapSays : Prop :=
  decodeWord 0b00000000 = .ok .clear ∧ decodeWord 0b00000001 = .ok .fscan ∧
  decodeWord 0b00000010 = .ok .tbuild ∧ decodeWord 0b00000011 = .ok .cassign ∧
  decodeWord 0b00000100 = .ok .encode ∧ decodeWord 0b00000101 = .ok .decode ∧
  (∀ w : Byte, (∃ i, decodeWord w = .ok i) ↔ w.toNat ≤ 5)

/-- R90, R91: decoding and encoding agree in both directions, and the bytes after a command are left alone. -/
def Obligations.DecodeAndEncodeAgree : Prop :=
  (∀ (i : Instr) (rest : List Byte), decodeBytes (encodeBytes i ++ rest) = .ok (i, rest)) ∧
  (∀ (w : Byte) (i : Instr), decodeWord w = .ok i → encodeWord i = w)

/-! ### Dispatch and the step (10_state.md R36, 40_command_dispatch.md) -/

/-- R36, R120: a legal word written to `CMD` while no command runs is executed by the very next step. An accepted command
that takes a stream finds at the IN port the stream written with it, or nothing yet; any other command finds the port as
it was. A plain write of register 0 issues the command of its low 8 bits, with no stream yet. How the stream comes to
the port, and that a wider value is cut to 8 bits, are the model's choices (log entries 7 and 9). -/
def Obligations.StepRunsTheDecodedCommand : Prop :=
  ∀ (s : State) (w : Byte) (i : Instr) (operand : Option (List Byte)) (rest : List HostMove),
    s.running = none → decodeWord w = .ok i →
    (s.hostMoves = .command w operand :: rest →
      (Instr.takesStream i = true → Instr.legalAt i s.stage = true →
        step s = exec i { s with
          hostMoves := rest, inStream := match operand with | some d => ⟨d, true⟩ | none => ⟨[], false⟩ }) ∧
      (Instr.takesStream i = false ∨ Instr.legalAt i s.stage = false →
        step s = exec i { s with hostMoves := rest })) ∧
    (∀ v : Nat, s.hostMoves = .write 0 v :: rest → BitVec.ofNat 8 v = w →
      step s = step { s with hostMoves := .command w none :: rest })

/-- R301: an illegal word, written as a transaction or as a plain write of `CMD`, gives `E_ILLEGAL_CMD` with the word in
`rinfo`, at every stage; nothing else changes and no stream item is taken or produced. -/
def Obligations.IllegalWordIsRejected : Prop :=
  ∀ (s : State) (w : Byte) (m : HostMove) (rest : List HostMove),
    s.running = none → 6 ≤ w.toNat → (∃ operand, m = .command w operand) ∨ m = .write 0 w.toNat →
    s.hostMoves = m :: rest →
    step s = .next { s with
      hostMoves := rest, result := .illegalCmd, rinfo := w, record := s.record ++ [(.illegalCmd, w)] }

/-- R302 with R121: a command at a stage that does not allow it gives `E_SEQ` with its own word in `rinfo`; nothing else
changes and no stream item is taken or produced. -/
def Obligations.CommandOutOfOrderIsRejected : Prop :=
  ∀ s : State, s.running = none →
    (s.stage ≠ .counted → exec .tbuild s = .next { s with
      result := .seq, rinfo := 0x02, record := s.record ++ [(.seq, 0x02)] }) ∧
    (s.stage ≠ .built → exec .cassign s = .next { s with
      result := .seq, rinfo := 0x03, record := s.record ++ [(.seq, 0x03)] }) ∧
    (s.stage = .cleared ∨ s.stage = .counted ∨ s.stage = .built → exec .encode s = .next { s with
      result := .seq, rinfo := 0x04, record := s.record ++ [(.seq, 0x04)] }) ∧
    (s.stage ≠ .encoded → exec .decode s = .next { s with
      result := .seq, rinfo := 0x05, record := s.record ++ [(.seq, 0x05)] })

/-- R343: a write to `CMD` while a command runs is ignored: it is not queued, raises no fault and leaves `result`
alone. That a stream written with it is not handed over either is the model's choice (log entry 7). -/
def Obligations.CommandWriteWhileBusyIsIgnored : Prop :=
  ∀ (s : State) (r : Running) (m : HostMove) (rest : List HostMove),
    s.running = some r →
    (∃ w operand, m = .command w operand) ∨ (∃ v, m = .write 0 v) →
    s.hostMoves = m :: rest → step s = .next { s with hostMoves := rest }

/-- R122: the stage written when an accepted command completes, and the results each command can have. A rejected
command leaves the stage unchanged. -/
def Obligations.StageMovesOnlyByTheTable : Prop :=
  ∀ (i : Instr) (s t : State), exec i s = .next t → t.running = none →
    (t.result = .seq ∧ t.stage = s.stage ∧ Instr.legalAt i s.stage = false) ∨
    (Instr.legalAt i s.stage = true ∧
      match i with
      | .clear => t.result = .ok ∧ t.stage = .cleared
      | .fscan => (t.result = .ok ∧ t.stage = .counted) ∨ (t.result = .countOvf ∧ t.stage = .cleared)
      | .tbuild => t.result = .ok ∧ t.stage = .built
      | .cassign => t.result = .ok ∧ t.stage = .assigned
      | .encode => (t.result = .ok ∧ t.stage = .encoded) ∨ (t.result = .unknownSym ∧ t.stage = .assigned)
      | .decode => (t.result = .ok ∨ t.result = .dangling ∨ t.result = .badBit) ∧ t.stage = .encoded)

/-- R124 and R308: a command that completes writes `result` and `rinfo` once, with `rinfo` 0 when the result is `OK`,
and one pair joins the run's record; a command that waits for its host has written neither. -/
def Obligations.EveryCompletionReportsOneResult : Prop :=
  ∀ (i : Instr) (s t : State), exec i s = .next t →
    (t.running = none ∧ t.record = s.record ++ [(t.result, t.rinfo)] ∧ (t.result = .ok → t.rinfo = 0)) ∨
    (t.running ≠ none ∧ t.record = s.record ∧ t.result = s.result ∧ t.rinfo = s.rinfo)

/-- R30, R347: no command writes the host selectors, the counter width or what the host will do next. -/
def Obligations.CommandsLeaveTheHostSideAlone : Prop :=
  ∀ (i : Instr) (s t : State), exec i s = .next t →
    t.symSel = s.symSel ∧ t.nodeSel = s.nodeSel ∧ t.cntW = s.cntW ∧ t.hostMoves = s.hostMoves ∧
    t.hostRead = s.hostRead ∧ t.freeReads = s.freeReads

/-- R63: which items a command takes and puts. With a whole stream offered and every OUT item taken, `FSCAN`, `ENCODE`
and `DECODE`, when accepted, take every item through `End` whatever their result, and `ENCODE` and `DECODE` end OUT
with exactly one `End`; `CLEAR`, `TBUILD` and `CASSIGN`, and every rejected command, touch neither stream. -/
def Obligations.StreamsAreFramed : Prop :=
  ∀ (s t : State) (d : List Byte), HostServes s d →
    (exec .fscan s = .next t → t.running = none ∧ t.inStream = ⟨[], false⟩ ∧ t.outStream = s.outStream) ∧
    (∀ i, i = .encode ∨ i = .decode → Instr.legalAt i s.stage = true → exec i s = .next t →
      t.running = none ∧ t.inStream = ⟨[], false⟩ ∧
      ∃ bytes : List Byte, t.outStream = s.outStream ++ bytes.map .byte ++ [.eos]) ∧
    (∀ i, i = .clear ∨ i = .tbuild ∨ i = .cassign ∨ Instr.legalAt i s.stage = false → exec i s = .next t →
      t.inStream = s.inStream ∧ t.outStream = s.outStream)

/-! ### Reset and `CLEAR` (10_state.md R40, R41, 40_command_dispatch.md R123, 70_reset_and_hazards.md R340) -/

/-- R41: the value of every piece of state after reset. -/
def Obligations.ResetStateHoldsTheResetValues : Prop :=
  State.reset.stage = .cleared ∧ State.reset.total = 0 ∧ State.reset.nsym = 0 ∧ State.reset.root = 0 ∧
  State.reset.pad = 0 ∧ State.reset.result = .ok ∧ State.reset.rinfo = 0 ∧
  (∀ v : Byte, State.reset.freqAt v = 0 ∧ State.reset.codeAt v = none) ∧
  (∀ k : NodeIx, arenaAt State.reset.node k = .leaf 0 0) ∧
  State.reset.symSel = 0 ∧ State.reset.nodeSel = 0 ∧ State.reset.busy = false

/-- R340, R341: the host asserts reset at any time, with or without a command running, and every piece of the block's
state takes its reset value; the streams, the run's record and the counter width are not touched, which
the model reads from R63 and R349 (log entries 8 and 10). -/
def Obligations.HostResetAtAnyTime : Prop :=
  ∀ (s : State) (rest : List HostMove), s.hostMoves = .reset :: rest →
    step s = .next { s with
      hostMoves := rest, stage := .cleared, total := 0, nsym := 0, root := 0, pad := 0, result := .ok,
      rinfo := 0, freq := [], node := [], code := [], symSel := 0, nodeSel := 0, running := none }

/-- R123: `CLEAR` completes `OK` at any stage, clears the whole session, and touches neither stream nor selector. -/
def Obligations.ClearCompletes : Prop :=
  ∀ s : State, exec .clear s = .next { s with
    stage := .cleared, total := 0, nsym := 0, root := 0, pad := 0, freq := [], node := [], code := [],
    result := .ok, rinfo := 0, running := none, record := s.record ++ [(.ok, 0)] }

/-! ### `FSCAN` (41_frequency_scan.md) -/

/-- R143: an input within the limit is counted: each `freq[v]` is the number of its occurrences, 0 exactly for the values
that do not occur, and `total`, the sum of the counts, is the length. -/
def Obligations.FscanCountsItsStream : Prop :=
  ∀ (s : State) (d : List Byte), s.inStream = ⟨d, true⟩ → d.length ≤ 2 ^ s.cntW - 1 →
    ∃ f : Table Nat,
      exec .fscan s = .next { s with
        stage := .counted, total := d.length, nsym := 0, root := 0, pad := 0, freq := f, node := [],
        code := [], result := .ok, rinfo := 0, running := none, inStream := ⟨[], false⟩,
        record := s.record ++ [(.ok, 0)] } ∧
      Table.Canonical 0 256 f ∧
      (∀ v : Byte, Table.read 0 f v.toNat = d.count v) ∧
      (∀ v : Byte, Table.read 0 f v.toNat = 0 ↔ v ∉ d) ∧
      (allBytes.map fun v => Table.read 0 f v.toNat).sum = d.length

/-- R144, R303: an input longer than the counters can hold clears the session, is taken whole and gives
`E_COUNT_OVF`. -/
def Obligations.FscanOverflowClearsAndDrains : Prop :=
  ∀ (s : State) (d : List Byte), s.inStream = ⟨d, true⟩ → 2 ^ s.cntW - 1 < d.length →
    exec .fscan s = .next { s with
      stage := .cleared, total := 0, nsym := 0, root := 0, pad := 0, freq := [], node := [], code := [],
      result := .countOvf, rinfo := 0, running := none, inStream := ⟨[], false⟩,
      record := s.record ++ [(.countOvf, 0)] }

/-- R145: the state before `FSCAN` has no influence on the session after it: two blocks that differ in everything but
the counter width and the stream offered end with the same session, result and information byte. -/
def Obligations.FscanForgetsTheOldSession : Prop :=
  ∀ (s₁ s₂ : State) (d : List Byte),
    s₁.cntW = s₂.cntW → s₁.inStream = ⟨d, true⟩ → s₂.inStream = ⟨d, true⟩ →
    ∃ t₁ t₂, exec .fscan s₁ = .next t₁ ∧ exec .fscan s₂ = .next t₂ ∧
      t₁.stage = t₂.stage ∧ t₁.total = t₂.total ∧ t₁.nsym = t₂.nsym ∧ t₁.root = t₂.root ∧ t₁.pad = t₂.pad ∧
      t₁.freq = t₂.freq ∧ t₁.node = t₂.node ∧ t₁.code = t₂.code ∧ t₁.result = t₂.result ∧
      t₁.rinfo = t₂.rinfo

/-! ### `TBUILD` (42_tree_builder.md) -/

/-- R160, R174: `TBUILD` at `COUNTED` completes `OK`, whatever the counts, and writes only the arena, `nsym`, `root`,
`stage`, `result` and `rinfo`; its tree is a function of the arena and the counts. -/
def Obligations.TbuildCompletes : Prop :=
  ∀ s : State, s.stage = .counted →
    exec .tbuild s = .next { s with
      node := (buildTree s.node s.freq).node, nsym := (buildTree s.node s.freq).nsym,
      root := (buildTree s.node s.freq).root, stage := .built, result := .ok, rinfo := 0, running := none,
      record := s.record ++ [(.ok, 0)] }

/-- R162: the leaves stand at the first indices in ascending order of symbol value, one for each byte value of non-zero
frequency and none for the others, and `nsym` is their number. -/
def Obligations.LeavesInAscendingSymbolOrder : Prop :=
  ∀ s : State, s.stage = .counted → s.node = [] →
    ∃ t, exec .tbuild s = .next t ∧ t.nsym.toNat = (present s.freq).length ∧
      ∀ (k : NodeIx) (h : k.toNat < (present s.freq).length),
        arenaAt t.node k = .leaf (s.freqAt (present s.freq)[k.toNat]) (present s.freq)[k.toNat]

/-- R164: `extract_min` returns the index of smallest key and removes it. -/
def Obligations.ExtractMinTakesTheSmallestKey : Prop :=
  ∀ (node : Table Node) (q : List NodeIx), q ≠ [] → q.Nodup →
    ∃ m, extractMin node q = some (m, q.erase m) ∧ m ∈ q ∧ ∀ x ∈ q, x ≠ m → KeyLess node m x

/-- R165: one pass of the merge loop takes the two indices of smallest key, makes an internal node of them at `next`
with the sum of their frequencies, and puts it into the queue. -/
def Obligations.MergePassTakesTheTwoLowest : Prop :=
  ∀ b : Builder, 2 ≤ b.queue.length → b.queue.Nodup →
    ∃ x y, x ∈ b.queue ∧ y ∈ b.queue ∧ KeyLess b.node x y ∧
      (∀ z ∈ b.queue, z ≠ x → z ≠ y → KeyLess b.node y z) ∧
      mergeOnce b =
        { node := arenaSet b.node b.next
            (.internal ((arenaAt b.node x).freqOf + (arenaAt b.node y).freqOf) x y),
          queue := (b.queue.erase x).erase y ++ [b.next], next := b.next + 1 }

/-- R166: in every tree, `left` is never of higher frequency than `right`, and on equal frequency `left` is the one with
the smaller index. -/
def Obligations.LeftChildIsExtractedFirst : Prop :=
  ∀ (freq : Table Nat) (m l r : NodeIx) (f : Nat),
    arenaAt (buildTree [] freq).node m = .internal f l r → KeyLess (buildTree [] freq).node l r

/-- R168: with every frequency 0, `TBUILD` writes no arena entry and leaves the explicit empty tree. -/
def Obligations.TbuildOfNoSymbols : Prop :=
  ∀ s : State, s.stage = .counted → (∀ v : Byte, s.freqAt v = 0) →
    exec .tbuild s = .next { s with
      nsym := 0, root := 0, stage := .built, result := .ok, rinfo := 0, running := none,
      record := s.record ++ [(.ok, 0)] }

/-- R169: with exactly one distinct symbol, its leaf is the root and no internal node exists. -/
def Obligations.TbuildOfOneSymbol : Prop :=
  ∀ (s : State) (v : Byte), s.stage = .counted → s.node = [] → 0 < s.freqAt v →
    (∀ w : Byte, w ≠ v → s.freqAt w = 0) →
    exec .tbuild s = .next { s with
      node := [(0, .leaf (s.freqAt v) v)], nsym := 1, root := 0, stage := .built, result := .ok, rinfo := 0,
      running := none, record := s.record ++ [(.ok, 0)] }

/-- R170: every internal node's frequency is the sum of its children's, no sum exceeds the counters, no node of the tree
has frequency 0, and the root's frequency is the total input length. -/
def Obligations.FrequencySums : Prop :=
  ∀ s : State, Inv s → s.running = none → s.stage = .counted →
    ∃ t, exec .tbuild s = .next t ∧
      (∀ (m l r : NodeIx) (f : Nat), arenaAt t.node m = .internal f l r →
        f = (arenaAt t.node l).freqOf + (arenaAt t.node r).freqOf) ∧
      (∀ k : NodeIx, k.toNat + 1 < 2 * t.nsym.toNat →
        0 < (arenaAt t.node k).freqOf ∧ (arenaAt t.node k).freqOf ≤ t.total) ∧
      t.total ≤ 2 ^ t.cntW - 1 ∧
      (1 ≤ t.nsym.toNat → (arenaAt t.node t.root).freqOf = t.total)

/-- R171, (a) to (f), of the tree of every frequency table, n standing for `nsym`. -/
def Obligations.ArenaIndexFacts : Prop :=
  ∀ freq : Table Nat,
    let t := buildTree [] freq
    let n := t.nsym.toNat
    (∀ k : NodeIx, 2 * n - 1 ≤ k.toNat → arenaAt t.node k = .leaf 0 0) ∧
    (∀ k : NodeIx, k.toNat < 2 * n - 1 → arenaAt t.node k ≠ .leaf 0 0) ∧
    (∀ k : NodeIx, k.toNat < n → IsLeaf t.node k) ∧
    (∀ k : NodeIx, n ≤ k.toNat → k.toNat < 2 * n - 1 → IsInternal t.node k) ∧
    (1 ≤ n → t.root.toNat = 2 * n - 2) ∧
    (∀ (m l r : NodeIx) (f : Nat), arenaAt t.node m = .internal f l r →
      l.toNat < m.toNat ∧ r.toNat < m.toNat ∧ l ≠ r) ∧
    (∀ k : NodeIx, k.toNat < 2 * n - 1 → k ≠ t.root → ∃! m : NodeIx, IsChild t.node m k)

/-- R43, R161: the arena stands for a tree, one leaf per byte value of non-zero frequency, no symbol twice, every internal
frequency the sum of its children's; two sessions with the same counts get the same tree, index for index. -/
def Obligations.ArenaStandsForATree : Prop :=
  ∀ s₁ s₂ : State, Inv s₁ → s₁.running = none → s₁.stage = .built →
    (s₁.nsym ≠ 0 → ∃ v : TreeValue, treeAt s₁.node 256 s₁.root = some v ∧
      v.symbols.Nodup ∧ (∀ b : Byte, b ∈ v.symbols ↔ 0 < s₁.freqAt b) ∧ v.Sums s₁.freq) ∧
    (Inv s₂ → s₂.running = none → s₂.stage = .built → s₂.freq = s₁.freq →
      s₂.node = s₁.node ∧ s₂.nsym = s₁.nsym ∧ s₂.root = s₁.root)

/-! ### `CASSIGN` (43_code_assigner.md) -/

/-- R193: the empty tree gets no codes and `CASSIGN` completes `OK`, reading neither `root` nor the arena. -/
def Obligations.CassignOfTheEmptyTree : Prop :=
  ∀ s : State, s.stage = .built → s.nsym = 0 →
    exec .cassign s = .next { s with
      stage := .assigned, result := .ok, rinfo := 0, running := none, record := s.record ++ [(.ok, 0)] }

/-- R192: the single-leaf tree's only symbol gets the code "0", and no other entry is written. -/
def Obligations.CassignOfTheSingleLeaf : Prop :=
  ∀ (s : State) (f : Nat) (v : Byte), s.stage = .built → s.nsym = 1 → arenaAt s.node s.root = .leaf f v →
    ∃ codes : Table (Option Bits),
      exec .cassign s = .next { s with
        code := codes, stage := .assigned, result := .ok, rinfo := 0, running := none,
        record := s.record ++ [(.ok, 0)] } ∧
      Table.read none codes v.toNat = some [false] ∧
      ∀ w : Byte, w ≠ v → Table.read none codes w.toNat = s.codeAt w

/-- R191: with two or more leaves, `CASSIGN` completes `OK` and a byte value has a code exactly when it has a leaf; the
code is the path from the root to that leaf, 1 to 255 bits long. -/
def Obligations.CassignGivesEveryLeafItsPath : Prop :=
  ∀ s : State, Inv s → s.running = none → s.stage = .built → 2 ≤ s.nsym.toNat →
    ∃ codes : Table (Option Bits),
      exec .cassign s = .next { s with
        code := codes, stage := .assigned, result := .ok, rinfo := 0, record := s.record ++ [(.ok, 0)] } ∧
      (∀ (v : Byte) (c : Bits), Table.read none codes v.toNat = some c ↔
        ∃ (k : NodeIx) (f : Nat), PathTo s.node s.root c k ∧ arenaAt s.node k = .leaf f v) ∧
      ∀ (v : Byte) (c : Bits), Table.read none codes v.toNat = some c → 1 ≤ c.length ∧ c.length ≤ 255

/-- R172, R29: with two or more leaves a code is between 1 and `nsym - 1` bits long; with one leaf it is one bit long. -/
def Obligations.CodeLengthIsBounded : Prop :=
  ∀ (s : State) (v : Byte) (c : Bits), Inv s → s.running = none → s.stage = .assigned ∨ s.stage = .encoded →
    s.codeAt v = some c →
    1 ≤ c.length ∧ c.length ≤ 255 ∧ (2 ≤ s.nsym.toNat → c.length ≤ s.nsym.toNat - 1) ∧
    (s.nsym = 1 → c = [false])

/-- R195: no code is a prefix of another; with two or more leaves the sum of 2^(-length) is exactly 1 and every infinite
bit sequence begins with exactly one code; with one leaf the code set is "0" alone, so "1" begins with no code. -/
def Obligations.CodesArePrefixFreeAndComplete : Prop :=
  ∀ s : State, Inv s → s.running = none → s.stage = .assigned ∨ s.stage = .encoded →
    (∀ (x y : Byte) (cx cy : Bits), x ≠ y → s.codeAt x = some cx → s.codeAt y = some cy → ¬ cx <+: cy) ∧
    (2 ≤ s.nsym.toNat →
      (allBytes.map fun v => ((s.codeAt v).map fun c => 2 ^ (255 - c.length)).getD 0).sum = 2 ^ 255 ∧
      ∀ w : Nat → Bool, ∃! v : Byte, ∃ c, s.codeAt v = some c ∧ c = (List.range c.length).map w) ∧
    (s.nsym = 1 → ∃ v : Byte, s.codeAt v = some [false] ∧ ∀ u : Byte, u ≠ v → s.codeAt u = none)

/-- R286: a symbol of strictly higher frequency never has a strictly longer code. -/
def Obligations.HigherFrequencyNeverLongerCode : Prop :=
  ∀ (s : State) (x y : Byte) (cx cy : Bits), Inv s → s.running = none →
    s.stage = .assigned ∨ s.stage = .encoded →
    s.codeAt x = some cx → s.codeAt y = some cy → s.freqAt y < s.freqAt x → cx.length ≤ cy.length

/-! ### `ENCODE` (44_encoder.md, 30_encoding.md R98) -/

/-- R98, R216: `ENCODE` of a stream every byte of which has a code completes `OK`, puts the packed stream and `End` on OUT
and leaves the pad count in `pad`. The item-by-item machine and the whole-stream description agree. -/
def Obligations.EncodePutsThePackedStream : Prop :=
  ∀ (s : State) (d : List Byte), s.stage = .assigned ∨ s.stage = .encoded → HostServes s d → AllCoded s d →
    exec .encode s = .next { s with
      stage := .encoded, pad := BitVec.ofNat 3 (padFor (codeBits s d).length), result := .ok, rinfo := 0,
      running := none, inStream := ⟨[], false⟩, outStream := s.outStream ++ outItems (packed (codeBits s d)),
      record := s.record ++ [(.ok, 0)] }

/-- R215, R304, R216: at the first byte without a code `ENCODE` keeps the whole bytes already put, drops the partial one,
ends OUT, drains IN, and completes `E_UNKNOWN_SYM` with that byte, `pad = 0` and `stage = ASSIGNED`; the tree and the
codes are kept. -/
def Obligations.EncodeStopsAtTheFirstUnknownSymbol : Prop :=
  ∀ (s : State) (d₁ d₂ : List Byte) (b : Byte), s.stage = .assigned ∨ s.stage = .encoded →
    HostServes s (d₁ ++ b :: d₂) → AllCoded s d₁ → s.codeAt b = none →
    exec .encode s = .next { s with
      stage := .assigned, pad := 0, result := .unknownSym, rinfo := b, running := none,
      inStream := ⟨[], false⟩,
      outStream := s.outStream ++ outItems (packedBytes ((codeBits s d₁).length / 8) (codeBits s d₁)),
      record := s.record ++ [(.unknownSym, b)] }

/-- R217, R218: an `OK` `ENCODE` puts exactly ceil(T / 8) bytes; `pad` is 0 exactly when T is a multiple of 8; and
`T + pad` is eight times the number of bytes. When every code is the one bit "0", all bytes are 0x00. -/
def Obligations.EncodeLengthAndPadLaw : Prop :=
  ∀ (s : State) (d : List Byte), s.stage = .assigned ∨ s.stage = .encoded → HostServes s d → AllCoded s d →
    ∃ (t : State) (bytes : List Byte), exec .encode s = .next t ∧
      t.outStream = s.outStream ++ bytes.map .byte ++ [.eos] ∧
      bytes.length = ((codeBits s d).length + 7) / 8 ∧
      (t.pad = 0 ↔ (codeBits s d).length % 8 = 0) ∧
      (codeBits s d).length + t.pad.toNat = 8 * bytes.length ∧
      ((∀ b ∈ d, s.codeAt b = some [false]) →
        bytes.length = (d.length + 7) / 8 ∧ ∀ b ∈ bytes, b = 0x00)

/-- R65, R66: bit i of the concatenated code bits is bit `7 - (i mod 8)` of OUT byte `i div 8`, and the low `pad` bits of
the last byte are 0. -/
def Obligations.EncodeBitOrderAndPadBits : Prop :=
  ∀ (s : State) (d : List Byte), s.stage = .assigned ∨ s.stage = .encoded → HostServes s d → AllCoded s d →
    ∃ (t : State) (bytes : List Byte), exec .encode s = .next t ∧
      t.outStream = s.outStream ++ bytes.map .byte ++ [.eos] ∧
      (∀ i : Nat, i < (codeBits s d).length →
        ((bytes.getD (i / 8) 0).getLsbD (7 - i % 8)) = (codeBits s d).getD i false) ∧
      (∀ j : Nat, j < t.pad.toNat → ((bytes.getLastD 0).getLsbD j) = false)

/-- R210, R219: whatever its stream and its host do, `ENCODE` writes no count, no tree and no code. -/
def Obligations.EncodeLeavesTreeAndCodesAlone : Prop :=
  ∀ s t : State, exec .encode s = .next t →
    t = { s with
      stage := t.stage, pad := t.pad, result := t.result, rinfo := t.rinfo, running := t.running,
      inStream := t.inStream, outStream := t.outStream, outRoom := t.outRoom, record := t.record }

/-! ### `DECODE` (45_decoder.md) -/

/-- R248: the OUT bytes and the result of `DECODE`, by the spec's table over the retained bits. The item-by-item machine
with its look-ahead byte and the table agree. -/
def Obligations.DecodeFollowsTheWholeStreamTable : Prop :=
  ∀ (s : State) (p : List Byte), Inv s → s.running = none → s.stage = .encoded → HostServes s p →
    exec .decode s = .next { s with
      result := (decodeOutcome s.tree s.pad.toNat (symOf (arenaAt s.node s.root)) p).2, rinfo := 0,
      inStream := ⟨[], false⟩,
      outStream := s.outStream ++
        outItems (decodeOutcome s.tree s.pad.toNat (symOf (arenaAt s.node s.root)) p).1,
      record := s.record ++
        [((decodeOutcome s.tree s.pad.toNat (symOf (arenaAt s.node s.root)) p).2, 0)] }

/-- R251: `DECODE` changes nothing in the session but `result` and `rinfo`, whatever its stream and its host do. -/
def Obligations.DecodeChangesOnlyTheResult : Prop :=
  ∀ s t : State, exec .decode s = .next t →
    t = { s with
      result := t.result, rinfo := t.rinfo, running := t.running, inStream := t.inStream,
      outStream := t.outStream, outRoom := t.outRoom, record := t.record }

/-- R249: a last byte decodes the same whatever its low `pad` bits are. -/
def Obligations.DecodeIgnoresThePadBits : Prop :=
  ∀ (s : State) (p : List Byte) (b c : Byte), s.stage = .encoded → s.outRoom = none →
    (∀ j : Nat, s.pad.toNat ≤ j → b.getLsbD j = c.getLsbD j) →
    exec .decode { s with inStream := ⟨p ++ [b], true⟩ } = exec .decode { s with inStream := ⟨p ++ [c], true⟩ }

/-- R250: zero packed bytes give empty output and `OK`, for every session and every pad count. -/
def Obligations.DecodeOfNoBytes : Prop :=
  ∀ s : State, s.stage = .encoded → HostServes s [] →
    exec .decode s = .next { s with
      result := .ok, rinfo := 0, running := none, inStream := ⟨[], false⟩,
      outStream := s.outStream ++ [.eos], record := s.record ++ [(.ok, 0)] }

/-- R241: with the empty tree, the whole stream is taken and discarded and the output is empty. -/
def Obligations.DecodeOfTheEmptyTree : Prop :=
  ∀ (s : State) (p : List Byte), s.stage = .encoded → s.nsym = 0 → HostServes s p →
    exec .decode s = .next { s with
      result := .ok, rinfo := 0, running := none, inStream := ⟨[], false⟩,
      outStream := s.outStream ++ [.eos], record := s.record ++ [(.ok, 0)] }

/-! ### The laws (46_sequences_and_laws.md) -/

/-- R280: `COMPRESS` from any state at rest. Within the limit all four commands complete `OK`, OUT is the packed stream
under the session's codes and every byte of the input has one; beyond it `FSCAN` overflows, the other three are
rejected, and no OUT stream exists. -/
def Obligations.CompressSequence : Prop :=
  ∀ (s : State) (d : List Byte), s.running = none → s.outRoom = none → s.hostMoves = compressMoves d →
    (d.length ≤ 2 ^ s.cntW - 1 →
      ∃ t, runSteps 4 s = .next t ∧ t.running = none ∧ t.stage = .encoded ∧
        t.record = s.record ++ List.replicate 4 (.ok, 0) ∧ CountsOf d t.freq ∧ t.total = d.length ∧
        t.tree = buildTree [] t.freq ∧ assignCodes t.tree [] = some t.code ∧ AllCoded t d ∧
        t.outStream = s.outStream ++ outItems (packed (codeBits t d)) ∧
        t.pad.toNat = padFor (codeBits t d).length) ∧
    (2 ^ s.cntW - 1 < d.length →
      ∃ t, runSteps 4 s = .next t ∧ t.running = none ∧ t.stage = .cleared ∧ t.outStream = s.outStream ∧
        t.record = s.record ++ [(.countOvf, 0), (.seq, 0x02), (.seq, 0x03), (.seq, 0x04)])

/-- R283: the round-trip law. From every state at rest, for every input within the limit, `COMPRESS` and then `DECODE` of
the bytes it put complete all five commands `OK`, and `DECODE` puts the input. -/
def Obligations.RoundTripLaw : Prop :=
  ∀ (s : State) (d : List Byte), s.running = none → s.outRoom = none → d.length ≤ 2 ^ s.cntW - 1 →
    ∃ (p : List Byte) (t : State),
      runSteps 5 { s with hostMoves := compressMoves d ++ [decodeMove p] } = .next t ∧
      t.outStream = s.outStream ++ outItems p ++ outItems d ∧
      t.record = s.record ++ List.replicate 5 (.ok, 0)

/-- R290: the general round trip. In any session with codes, any stream of coded bytes encodes `OK`, and its packed bytes
decode to it, directly or after any number of further `DECODE` commands: `u` is the state after the `ENCODE`, `v` the
state before the last `DECODE` and `t` the state after it, which has put exactly the stream. -/
def Obligations.GeneralRoundTrip : Prop :=
  ∀ (s : State) (e : List Byte) (others : List (List Byte)),
    Inv s → s.running = none → s.outRoom = none → s.stage = .assigned ∨ s.stage = .encoded → AllCoded s e →
    ∃ (p : List Byte) (u v t : State),
      runSteps 1 { s with hostMoves := [.command 0x04 (some e)] } = .next u ∧
      u.outStream = s.outStream ++ outItems p ∧ u.result = .ok ∧ u.rinfo = 0 ∧
      runSteps (others.length + 1)
        { s with hostMoves := .command 0x04 (some e) :: (others.map decodeMove ++ [decodeMove p]) } = .next v ∧
      u.outStream <+: v.outStream ∧ (others = [] → v.outStream = u.outStream) ∧
      step v = .next t ∧ t.hostMoves = [] ∧ t.running = none ∧
      t.outStream = v.outStream ++ outItems e ∧ t.result = .ok ∧ t.rinfo = 0 ∧
      t.record = v.record ++ [(.ok, 0)] ∧ (s.nsym = 0 → e = [])

/-! ### The session invariant (10_state.md R42) -/

/-- The reset state meets the session invariant. -/
def Obligations.ResetMeetsTheSessionInvariant : Prop := Inv State.reset

/-- R42: every step, from every state that meets the session invariant, with or without a command running and whatever
the host does, keeps it. `Inv` is R42's table but for the clause of its last row that `pad` is the pad count of the most
recent `OK` `ENCODE`, which is about the run and not about one state: at `ENCODED`, `Inv` asks nothing of `pad`.
`EncodePutsThePackedStream` says what an `ENCODE` leaves there, and `StageMovesOnlyByTheTable` that only it comes to
`ENCODED`. That `Inv` also covers a running command is the model's own (log entry 6). -/
def Obligations.EveryStepKeepsTheSessionInvariant : Prop :=
  ∀ s t : State, Inv s → step s = .next t → Inv t

/-- R176, R199, R246: in a state that meets the session invariant no step stops with a fault, so every command has the
effect its rule gives it. -/
def Obligations.NoStepFaultsUnderTheInvariant : Prop := ∀ s : State, Inv s → SafeStep s

/-- R29, R170, R28: at rest, the session invariant keeps the three tables in canonical form, every code within its entry
and every count within the counter width. -/
def Obligations.InvariantKeepsTheTablesWellFormed : Prop :=
  ∀ s : State, Inv s → s.running = none → Memory.wf s

/-! ### Streams that stall (20_memory.md R64, R74) -/

/-- R64: while the host never supplies `End` and never resets, a running command stays running, whatever else the host
does; the command's result is not written. -/
def Obligations.StreamWithoutEndNeverCompletes : Prop :=
  ∀ (s t : State) (r : Running), s.running = some r → (∀ e, r.phase ≠ .finishing e) →
    s.inStream.ended = false → step s = .next t →
    (∀ rest, s.hostMoves ≠ .reset :: rest) → (∀ bytes rest, s.hostMoves ≠ .supply bytes true :: rest) →
    (∃ r', t.running = some r' ∧ ∀ e, r'.phase ≠ .finishing e) ∧ t.inStream.ended = false ∧
    t.result = s.result ∧ t.rinfo = s.rinfo ∧ t.record = s.record

/-- R64: if the host takes no OUT item, `ENCODE` and `DECODE` never complete. Accepted, the command still owes output;
and while it does, every step but a reset or a `takeOut`, whatever the host supplies, writes or reads, leaves it running
and owing, with nothing put and no result written. -/
def Obligations.OutputNeverTakenNeverCompletes : Prop :=
  (∀ (s t : State) (i : Instr), i = .encode ∨ i = .decode → Instr.legalAt i s.stage = true → s.outRoom = some 0 →
    exec i s = .next t →
    (∃ r, t.running = some r ∧ OwesOutput r) ∧ t.outRoom = some 0 ∧ t.outStream = s.outStream ∧
      t.result = s.result ∧ t.rinfo = s.rinfo ∧ t.record = s.record) ∧
  (∀ (s t : State) (r : Running), s.running = some r → OwesOutput r → s.outRoom = some 0 → step s = .next t →
    (∀ rest, s.hostMoves ≠ .reset :: rest) → (∀ room rest, s.hostMoves ≠ .takeOut room :: rest) →
    (∃ r', t.running = some r' ∧ OwesOutput r') ∧ t.outRoom = some 0 ∧ t.outStream = s.outStream ∧
      t.result = s.result ∧ t.rinfo = s.rinfo ∧ t.record = s.record)

/-- R74, R61, R348: a stream supplied in pieces gives what the same items at once give, for every accepted command that
takes a stream, every split, a further piece with or without `End`, and whatever room the host has for OUT; any number
of pieces follows by going from piece to piece. An item while no command runs, as after a rejected one, and an item
after the running command's `End`, still waiting or taken, are refused, each by its name (log entry 7); a move that
supplies no item does nothing. -/
def Obligations.PiecewiseSupplyChangesNoResult : Prop :=
  (∀ (s t : State) (i : Instr) (d₁ d₂ : List Byte) (last : Bool),
    Instr.takesStream i = true → Instr.legalAt i s.stage = true →
    exec i { s with running := none, inStream := ⟨d₁, false⟩ } = .next t →
    hostMove (.supply d₂ last) t = exec i { s with running := none, inStream := ⟨d₁ ++ d₂, last⟩ }) ∧
  (∀ (s : State) (bytes : List Byte) (last : Bool) (rest : List HostMove),
    s.hostMoves = .supply bytes last :: rest →
    (bytes = [] ∧ last = false → step s = .next { s with hostMoves := rest }) ∧
    (bytes ≠ [] ∨ last = true → s.running = none → step s = .refused .itemForNoCommand) ∧
    (bytes ≠ [] ∨ last = true → ∀ r, s.running = some r →
      (s.inStream.ended = true ∨ ∃ e, r.phase = .finishing e) → step s = .refused .itemAfterEnd))

/-- R74: a host that stalls OUT changes no result, whether or not the IN port has been supplied its `End`. One that takes
some items and then all the rest gets what a host that never stalls gets; one that has taken the `k` items it had room
for and then takes `m` more gets what a host with room for `k + m` gets, so any number of stalls follows by going from
stall to stall. While no command runs, what the host says it will take is noted and nothing else changes. -/
def Obligations.StalledOutputChangesNoResult : Prop :=
  (∀ (s t : State) (i : Instr) (k : Nat) (d : List Byte) (ended : Bool),
    exec i { s with running := none, inStream := ⟨d, ended⟩, outRoom := some k } = .next t →
    hostMove (.takeOut none) t = exec i { s with running := none, inStream := ⟨d, ended⟩, outRoom := none } ∧
    (t.outRoom = some 0 → ∀ m : Nat, hostMove (.takeOut (some m)) t =
      exec i { s with running := none, inStream := ⟨d, ended⟩, outRoom := some (k + m) })) ∧
  (∀ (s : State) (room : Option Nat) (rest : List HostMove), s.running = none →
    s.hostMoves = .takeOut room :: rest → step s = .next { s with hostMoves := rest, outRoom := room })

/-! ### The registers (10_state.md R32 to R35, 70_reset_and_hazards.md R351) -/

/-- R33, R351: `STATUS` reads correctly at any time: bit 0 is `busy`, bits 3:1 the stage, while a command runs the stage
at which it was accepted, and bits 7:4 are 0. The stage of acceptance is the one the command found when it started, and
every step that leaves the command running keeps it. -/
def Obligations.StatusReadsBusyAndStage : Prop :=
  (∀ (s : State) (rest : List HostMove), s.hostMoves = .read 1 :: rest →
    step s = .next { s with
      hostMoves := rest,
      hostRead := some ((if s.running = none then 0 else 1) + 2 *
        (match (match s.running with | none => s.stage | some r => r.stage0) with
          | .cleared => 0 | .counted => 1 | .built => 2 | .assigned => 3 | .encoded => 4)) }) ∧
  (∀ (i : Instr) (s t : State) (r : Running), exec i s = .next t → t.running = some r → r.stage0 = s.stage) ∧
  (∀ (s t : State) (r r' : Running), s.running = some r → step s = .next t → t.running = some r' →
    r'.stage0 = r.stage0)

/-- R32: while no command runs, a host read gives the register's value and changes nothing of the block; what the
registers without a window hold; register numbers of 15 and above read 0. -/
def Obligations.IdleRegisterReads : Prop :=
  ∀ (s : State) (n : Nat) (rest : List HostMove), s.running = none → s.hostMoves = .read n :: rest →
    step s = .next { s with hostMoves := rest, hostRead := some (regValue s n) } ∧
    regValue s 0 = 0 ∧ regValue s 3 = s.rinfo.toNat ∧ regValue s 4 = s.pad.toNat ∧ regValue s 5 = s.total ∧
    regValue s 6 = s.nsym.toNat ∧ regValue s 7 = s.root.toNat ∧ regValue s 8 = s.symSel.toNat ∧
    regValue s 12 = s.nodeSel.toNat ∧ (15 ≤ n → regValue s n = 0) ∧
    regValue s 2 = match s.result with
      | .ok => 0 | .illegalCmd => 1 | .seq => 2 | .countOvf => 3 | .unknownSym => 4 | .dangling => 5
      | .badBit => 6

/-- R34, R95: the symbol window shows the frequency and the code of the selected byte value; bit i of `SYM_CODE` is code
bit i. -/
def Obligations.SymbolWindowShowsTheEntry : Prop :=
  ∀ s : State,
    regValue s 9 = s.freqAt s.symSel ∧
    (s.codeAt s.symSel = none → regValue s 10 = 0 ∧ regValue s 11 = 0) ∧
    (∀ c, s.codeAt s.symSel = some c → c.length ≤ 255 →
      regValue s 10 = 256 + c.length ∧ regValue s 11 < 2 ^ 255 ∧
      ∀ i : Nat, (regValue s 11).testBit i = c.getD i false)

/-- R35, R94: the node window shows the selected arena entry in its packed form, and 0 for index 511. -/
def Obligations.NodeWindowShowsTheEntry : Prop :=
  ∀ s : State,
    (s.nodeSel = 511 → regValue s 13 = 0 ∧ regValue s 14 = 0) ∧
    (∀ f v, arenaAt s.node s.nodeSel = .leaf f v → regValue s 13 = f ∧ regValue s 14 = 2 * v.toNat) ∧
    (∀ f l r, arenaAt s.node s.nodeSel = .internal f l r →
      regValue s 13 = f ∧ regValue s 14 = 1 + 2 ^ 9 * l.toNat + 2 ^ 18 * r.toNat)

/-- R351, R32: while a command runs, a register other than `STATUS` reads a free value of its width (the model's, log
entry 5). Whatever that value is, the read changes nothing of the block. A register number of 15 or above names no
register and reads 0 at any time. -/
def Obligations.ReadWhileBusyChangesNothing : Prop :=
  (∀ (s : State) (r : Running) (n : Nat) (rest : List HostMove), s.running = some r → n ≠ 1 → n < 15 →
    s.hostMoves = .read n :: rest →
    ∃ v : Nat, v < 2 ^ regWidth s.cntW n ∧
      step s = .next { s with hostMoves := rest, hostRead := some v, freeReads := s.freeReads + 1 }) ∧
  (∀ (s : State) (n : Nat) (rest : List HostMove), 15 ≤ n → s.hostMoves = .read n :: rest →
    step s = .next { s with hostMoves := rest, hostRead := some 0 })

/-- R30, R32, R347: a host write of `SYM_SEL` or `NODE_SEL` is stored as written at any time, and a write to any other
register but `CMD` is ignored: the host has no write port into any table or session register. -/
def Obligations.HostWritesReachOnlyTheSelectors : Prop :=
  ∀ (s : State) (n v : Nat) (rest : List HostMove), n ≠ 0 → s.hostMoves = .write n v :: rest →
    (n = 8 → v < 256 → step s = .next { s with hostMoves := rest, symSel := BitVec.ofNat 8 v }) ∧
    (n = 12 → v < 512 → step s = .next { s with hostMoves := rest, nodeSel := BitVec.ofNat 9 v }) ∧
    (n ≠ 8 → n ≠ 12 → step s = .next { s with hostMoves := rest })

/-- R9: `bits_of` and `byte_of` are inverse to each other, the first bit being the most significant. -/
def Obligations.BitsAndBytesAreInverse : Prop :=
  (∀ b : Byte, byteOf (bitsOf b) = b) ∧ (∀ c : Bits, c.length = 8 → bitsOf (byteOf c) = c) ∧
  (∀ (b : Byte) (i : Nat), i < 8 → (bitsOf b).getD i false = b.getLsbD (7 - i))
end

