-- ==== Sys2Proof/Laws/State.lean ====
section
/-! SUPPORT. One lemma per field for each named update of the state, true by `rfl`, so that no later proof unfolds a
record update: `sessionClear` (R40), `State.complete` (R124), `countByte` (R143), `resetBlock` (R340). -/

namespace Sys2Proof.Machine

/-- `OK` completions are completions. -/
@[simp] theorem State.completeOk_eq (s : State) : s.completeOk = s.complete .ok 0 := rfl

/-- Raising a fault is completing with its code (R306). -/
@[simp] theorem raise_eq_complete (f : ResultCode) (info : Byte) (s : State) : raise f info s = s.complete f info := rfl

@[simp] theorem sessionClear_cntW (s : State) : (sessionClear s).cntW = s.cntW := rfl
@[simp] theorem sessionClear_stage (s : State) : (sessionClear s).stage = .cleared := rfl
@[simp] theorem sessionClear_total (s : State) : (sessionClear s).total = 0 := rfl
@[simp] theorem sessionClear_nsym (s : State) : (sessionClear s).nsym = 0 := rfl
@[simp] theorem sessionClear_root (s : State) : (sessionClear s).root = 0 := rfl
@[simp] theorem sessionClear_pad (s : State) : (sessionClear s).pad = 0 := rfl
@[simp] theorem sessionClear_result (s : State) : (sessionClear s).result = s.result := rfl
@[simp] theorem sessionClear_rinfo (s : State) : (sessionClear s).rinfo = s.rinfo := rfl
@[simp] theorem sessionClear_freq (s : State) : (sessionClear s).freq = [] := rfl
@[simp] theorem sessionClear_node (s : State) : (sessionClear s).node = [] := rfl
@[simp] theorem sessionClear_code (s : State) : (sessionClear s).code = [] := rfl
@[simp] theorem sessionClear_symSel (s : State) : (sessionClear s).symSel = s.symSel := rfl
@[simp] theorem sessionClear_nodeSel (s : State) : (sessionClear s).nodeSel = s.nodeSel := rfl
@[simp] theorem sessionClear_running (s : State) : (sessionClear s).running = s.running := rfl
@[simp] theorem sessionClear_inStream (s : State) : (sessionClear s).inStream = s.inStream := rfl
@[simp] theorem sessionClear_outStream (s : State) : (sessionClear s).outStream = s.outStream := rfl
@[simp] theorem sessionClear_outRoom (s : State) : (sessionClear s).outRoom = s.outRoom := rfl
@[simp] theorem sessionClear_hostMoves (s : State) : (sessionClear s).hostMoves = s.hostMoves := rfl
@[simp] theorem sessionClear_hostRead (s : State) : (sessionClear s).hostRead = s.hostRead := rfl
@[simp] theorem sessionClear_freeReads (s : State) : (sessionClear s).freeReads = s.freeReads := rfl
@[simp] theorem sessionClear_record (s : State) : (sessionClear s).record = s.record := rfl

@[simp] theorem State.complete_cntW (r : ResultCode) (info : Byte) (s : State) :
    (s.complete r info).cntW = s.cntW := rfl
@[simp] theorem State.complete_stage (r : ResultCode) (info : Byte) (s : State) :
    (s.complete r info).stage = s.stage := rfl
@[simp] theorem State.complete_total (r : ResultCode) (info : Byte) (s : State) :
    (s.complete r info).total = s.total := rfl
@[simp] theorem State.complete_nsym (r : ResultCode) (info : Byte) (s : State) :
    (s.complete r info).nsym = s.nsym := rfl
@[simp] theorem State.complete_root (r : ResultCode) (info : Byte) (s : State) :
    (s.complete r info).root = s.root := rfl
@[simp] theorem State.complete_pad (r : ResultCode) (info : Byte) (s : State) :
    (s.complete r info).pad = s.pad := rfl
@[simp] theorem State.complete_result (r : ResultCode) (info : Byte) (s : State) :
    (s.complete r info).result = r := rfl
@[simp] theorem State.complete_rinfo (r : ResultCode) (info : Byte) (s : State) :
    (s.complete r info).rinfo = info := rfl
@[simp] theorem State.complete_freq (r : ResultCode) (info : Byte) (s : State) :
    (s.complete r info).freq = s.freq := rfl
@[simp] theorem State.complete_node (r : ResultCode) (info : Byte) (s : State) :
    (s.complete r info).node = s.node := rfl
@[simp] theorem State.complete_code (r : ResultCode) (info : Byte) (s : State) :
    (s.complete r info).code = s.code := rfl
@[simp] theorem State.complete_symSel (r : ResultCode) (info : Byte) (s : State) :
    (s.complete r info).symSel = s.symSel := rfl
@[simp] theorem State.complete_nodeSel (r : ResultCode) (info : Byte) (s : State) :
    (s.complete r info).nodeSel = s.nodeSel := rfl
@[simp] theorem State.complete_running (r : ResultCode) (info : Byte) (s : State) :
    (s.complete r info).running = none := rfl
@[simp] theorem State.complete_inStream (r : ResultCode) (info : Byte) (s : State) :
    (s.complete r info).inStream = s.inStream := rfl
@[simp] theorem State.complete_outStream (r : ResultCode) (info : Byte) (s : State) :
    (s.complete r info).outStream = s.outStream := rfl
@[simp] theorem State.complete_outRoom (r : ResultCode) (info : Byte) (s : State) :
    (s.complete r info).outRoom = s.outRoom := rfl
@[simp] theorem State.complete_hostMoves (r : ResultCode) (info : Byte) (s : State) :
    (s.complete r info).hostMoves = s.hostMoves := rfl
@[simp] theorem State.complete_hostRead (r : ResultCode) (info : Byte) (s : State) :
    (s.complete r info).hostRead = s.hostRead := rfl
@[simp] theorem State.complete_freeReads (r : ResultCode) (info : Byte) (s : State) :
    (s.complete r info).freeReads = s.freeReads := rfl
@[simp] theorem State.complete_record (r : ResultCode) (info : Byte) (s : State) :
    (s.complete r info).record = s.record ++ [(r, info)] := rfl

@[simp] theorem countByte_cntW (b : Byte) (s : State) : (countByte b s).cntW = s.cntW := rfl
@[simp] theorem countByte_stage (b : Byte) (s : State) : (countByte b s).stage = s.stage := rfl
@[simp] theorem countByte_total (b : Byte) (s : State) : (countByte b s).total = s.total + 1 := rfl
@[simp] theorem countByte_nsym (b : Byte) (s : State) : (countByte b s).nsym = s.nsym := rfl
@[simp] theorem countByte_root (b : Byte) (s : State) : (countByte b s).root = s.root := rfl
@[simp] theorem countByte_pad (b : Byte) (s : State) : (countByte b s).pad = s.pad := rfl
@[simp] theorem countByte_result (b : Byte) (s : State) : (countByte b s).result = s.result := rfl
@[simp] theorem countByte_rinfo (b : Byte) (s : State) : (countByte b s).rinfo = s.rinfo := rfl
@[simp] theorem countByte_freq (b : Byte) (s : State) : (countByte b s).freq = Table.write 0 s.freq b.toNat (s.freqAt b + 1) := rfl
@[simp] theorem countByte_node (b : Byte) (s : State) : (countByte b s).node = s.node := rfl
@[simp] theorem countByte_code (b : Byte) (s : State) : (countByte b s).code = s.code := rfl
@[simp] theorem countByte_symSel (b : Byte) (s : State) : (countByte b s).symSel = s.symSel := rfl
@[simp] theorem countByte_nodeSel (b : Byte) (s : State) : (countByte b s).nodeSel = s.nodeSel := rfl
@[simp] theorem countByte_running (b : Byte) (s : State) : (countByte b s).running = s.running := rfl
@[simp] theorem countByte_inStream (b : Byte) (s : State) : (countByte b s).inStream = s.inStream := rfl
@[simp] theorem countByte_outStream (b : Byte) (s : State) : (countByte b s).outStream = s.outStream := rfl
@[simp] theorem countByte_outRoom (b : Byte) (s : State) : (countByte b s).outRoom = s.outRoom := rfl
@[simp] theorem countByte_hostMoves (b : Byte) (s : State) : (countByte b s).hostMoves = s.hostMoves := rfl
@[simp] theorem countByte_hostRead (b : Byte) (s : State) : (countByte b s).hostRead = s.hostRead := rfl
@[simp] theorem countByte_freeReads (b : Byte) (s : State) : (countByte b s).freeReads = s.freeReads := rfl
@[simp] theorem countByte_record (b : Byte) (s : State) : (countByte b s).record = s.record := rfl

@[simp] theorem resetBlock_cntW (s : State) : (resetBlock s).cntW = s.cntW := rfl
@[simp] theorem resetBlock_stage (s : State) : (resetBlock s).stage = .cleared := rfl
@[simp] theorem resetBlock_total (s : State) : (resetBlock s).total = 0 := rfl
@[simp] theorem resetBlock_nsym (s : State) : (resetBlock s).nsym = 0 := rfl
@[simp] theorem resetBlock_root (s : State) : (resetBlock s).root = 0 := rfl
@[simp] theorem resetBlock_pad (s : State) : (resetBlock s).pad = 0 := rfl
@[simp] theorem resetBlock_result (s : State) : (resetBlock s).result = .ok := rfl
@[simp] theorem resetBlock_rinfo (s : State) : (resetBlock s).rinfo = 0 := rfl
@[simp] theorem resetBlock_freq (s : State) : (resetBlock s).freq = [] := rfl
@[simp] theorem resetBlock_node (s : State) : (resetBlock s).node = [] := rfl
@[simp] theorem resetBlock_code (s : State) : (resetBlock s).code = [] := rfl
@[simp] theorem resetBlock_symSel (s : State) : (resetBlock s).symSel = 0 := rfl
@[simp] theorem resetBlock_nodeSel (s : State) : (resetBlock s).nodeSel = 0 := rfl
@[simp] theorem resetBlock_running (s : State) : (resetBlock s).running = none := rfl
@[simp] theorem resetBlock_inStream (s : State) : (resetBlock s).inStream = s.inStream := rfl
@[simp] theorem resetBlock_outStream (s : State) : (resetBlock s).outStream = s.outStream := rfl
@[simp] theorem resetBlock_outRoom (s : State) : (resetBlock s).outRoom = s.outRoom := rfl
@[simp] theorem resetBlock_hostMoves (s : State) : (resetBlock s).hostMoves = s.hostMoves := rfl
@[simp] theorem resetBlock_hostRead (s : State) : (resetBlock s).hostRead = s.hostRead := rfl
@[simp] theorem resetBlock_freeReads (s : State) : (resetBlock s).freeReads = s.freeReads := rfl
@[simp] theorem resetBlock_record (s : State) : (resetBlock s).record = s.record := rfl

@[simp] theorem sessionClear_tree (s : State) : (sessionClear s).tree = ⟨[], 0, 0⟩ := rfl

@[simp] theorem State.complete_tree (r : ResultCode) (info : Byte) (s : State) : (s.complete r info).tree = s.tree := rfl

@[simp] theorem State.complete_codeAt (r : ResultCode) (info : Byte) (s : State) (v : Byte) :
    (s.complete r info).codeAt v = s.codeAt v := rfl

@[simp] theorem State.complete_freqAt (r : ResultCode) (info : Byte) (s : State) (v : Byte) :
    (s.complete r info).freqAt v = s.freqAt v := rfl

/-- A cleared session stays the same when it is cleared again. -/
@[simp] theorem sessionClear_idem (s : State) : sessionClear (sessionClear s) = sessionClear s := rfl

end Sys2Proof.Machine
end

