-- ==== Sys2Proof/Laws/Table.lean ====
section
/-! SUPPORT. The laws of the three tables (spec 10_state.md R27 to R29): a read after a write, the canonical form kept by
every write, equality of canonical tables by their reads, and the same for the arena, the code table and the frequency
table. -/

namespace Sys2Proof.Machine

variable {α : Type} {d : α}

/-- A write leaves every other entry alone. -/
theorem Table.read_write_other [DecidableEq α] (t : Table α) {a b : Nat} (v : α) (h : b ≠ a) :
    Table.read d (Table.write d t a v) b = Table.read d t b := by
  induction t with
  | nil => by_cases hv : v = d <;> simp [Table.write, Table.read, hv, h]
  | cons e rest ih =>
    obtain ⟨k, w⟩ := e
    rw [Table.write]
    split
    · split <;> simp [Table.read, h]
    · split
      · subst_vars
        split <;> simp [Table.read, h]
      · simp [Table.read, ih]

/-- An index below every listed one is unlisted. -/
theorem Table.read_of_below (t : Table α) {a : Nat} (h : ∀ e ∈ t, a < e.1) : Table.read d t a = d := by
  induction t with
  | nil => rfl
  | cons e rest ih =>
    obtain ⟨k, w⟩ := e
    have hk : a < k := h (k, w) (by simp)
    rw [Table.read, if_neg (by omega)]
    exact ih fun e he => h e (by simp [he])

/-- A read after a write of the same entry gives the value written. -/
theorem Table.read_write_same [DecidableEq α] {t : Table α} {a : Nat} (v : α)
    (h : t.Pairwise (fun x y => x.1 < y.1)) : Table.read d (Table.write d t a v) a = v := by
  induction t with
  | nil => by_cases hv : v = d <;> simp [Table.write, Table.read, hv]
  | cons e rest ih =>
    obtain ⟨k, w⟩ := e
    rw [List.pairwise_cons] at h
    rw [Table.write]
    split
    · split
      · subst_vars
        refine Table.read_of_below _ fun e he => ?_
        rcases List.mem_cons.1 he with rfl | he
        · assumption
        · exact Nat.lt_trans ‹_› (h.1 e he)
      · simp [Table.read]
    · split
      · subst_vars
        split
        · subst_vars
          exact Table.read_of_below _ fun e he => h.1 e he
        · simp [Table.read]
      · rename_i hne
        rw [Table.read, if_neg hne, ih h.2]

/-- A read after a write of a value other than the cleared one, whatever form the table has. -/
theorem Table.read_write_of_ne [DecidableEq α] (t : Table α) (a : Nat) {v : α} (hv : v ≠ d) :
    Table.read d (Table.write d t a v) a = v := by
  induction t with
  | nil => simp [Table.write, Table.read, hv]
  | cons e rest ih =>
    obtain ⟨k, w⟩ := e
    rw [Table.write]
    split
    · simp [Table.read]
    · split
      · simp [Table.read]
      · rename_i hne
        rw [Table.read, if_neg hne, ih]

/-- Every entry of a written table is an old one or the one written. -/
theorem Table.mem_write [DecidableEq α] (t : Table α) {a : Nat} {v : α} {e : Nat × α}
    (h : e ∈ Table.write d t a v) : e ∈ t ∨ (e = (a, v) ∧ v ≠ d) := by
  induction t with
  | nil => by_cases hv : v = d <;> simp_all [Table.write]
  | cons x rest ih =>
    obtain ⟨k, w⟩ := x
    rw [Table.write] at h
    split at h
    · split at h
      · exact .inl h
      · rcases List.mem_cons.1 h with rfl | h
        · exact .inr ⟨rfl, ‹_›⟩
        · exact .inl h
    · split at h
      · split at h
        · exact .inl (List.mem_cons_of_mem _ h)
        · rcases List.mem_cons.1 h with rfl | h
          · exact .inr ⟨rfl, ‹_›⟩
          · exact .inl (List.mem_cons_of_mem _ h)
      · rcases List.mem_cons.1 h with rfl | h
        · exact .inl (by simp)
        · exact (ih h).imp (List.mem_cons_of_mem _) id

/-- Every write of an existing index keeps the canonical form. -/
theorem Table.write_canonical [DecidableEq α] {t : Table α} {size a : Nat} (v : α)
    (h : Table.Canonical d size t) (ha : a < size) : Table.Canonical d size (Table.write d t a v) := by
  refine ⟨?_, fun e he => (Table.mem_write t he).elim (h.2 e) ?_⟩
  · have hp := h.1
    clear h
    induction t with
    | nil => by_cases hv : v = d <;> simp [Table.write, hv]
    | cons x rest ih =>
      obtain ⟨k, w⟩ := x
      have hp' := List.pairwise_cons.1 hp
      rw [Table.write]
      split
      · split
        · exact hp
        · refine List.pairwise_cons.2 ⟨fun e he => ?_, hp⟩
          rcases List.mem_cons.1 he with rfl | he
          · assumption
          · exact Nat.lt_trans ‹_› (hp'.1 e he)
      · split
        · subst_vars
          split
          · exact hp'.2
          · exact List.pairwise_cons.2 ⟨fun e he => hp'.1 e he, hp'.2⟩
        · refine List.pairwise_cons.2 ⟨fun e he => ?_, ih hp'.2⟩
          rcases Table.mem_write rest he with he | ⟨rfl, -⟩
          · exact hp'.1 e he
          · show k < a
            omega
  · rintro ⟨rfl, hv⟩
    exact ⟨ha, hv⟩

/-- A listed entry of a canonical table reads as its value. -/
theorem Table.read_of_mem {t : Table α} {k : Nat} {v : α}
    (h : t.Pairwise (fun x y => x.1 < y.1)) (hm : (k, v) ∈ t) : Table.read d t k = v := by
  induction t with
  | nil => simp at hm
  | cons x rest ih =>
    obtain ⟨k', w⟩ := x
    have h' := List.pairwise_cons.1 h
    rcases List.mem_cons.1 hm with hm | hm
    · cases hm
      simp [Table.read]
    · have := h'.1 _ hm
      rw [Table.read, if_neg (by simp at this; omega)]
      exact ih h'.2 hm

/-- An index that reads as anything but the cleared value is listed with that value. -/
theorem Table.mem_of_read {t : Table α} {k : Nat} (h : Table.read d t k ≠ d) : (k, Table.read d t k) ∈ t := by
  induction t with
  | nil => simp [Table.read] at h
  | cons x rest ih =>
    obtain ⟨k', w⟩ := x
    rw [Table.read] at h ⊢
    split
    · subst_vars
      simp
    · rename_i hne
      rw [if_neg hne] at h
      exact List.mem_cons_of_mem _ (ih h)

/-- Two canonical tables that read alike everywhere are equal. -/
theorem Table.ext_of_canonical [DecidableEq α] {t u : Table α} {size : Nat} (ht : Table.Canonical d size t)
    (hu : Table.Canonical d size u) (h : ∀ k, Table.read d t k = Table.read d u k) : t = u := by
  have sub : ∀ {x y : Table α}, Table.Canonical d size x → (∀ k, Table.read d x k = Table.read d y k) → x ⊆ y := by
    intro x y hx hr e he
    have hv := Table.read_of_mem (d := d) hx.1 (k := e.1) (v := e.2) he
    have hne : Table.read d y e.1 ≠ d := by rw [← hr, hv]; exact (hx.2 e he).2
    have := Table.mem_of_read hne
    rwa [← hr, hv] at this
  have nodup : ∀ {x : Table α}, Table.Canonical d size x → x.Nodup := fun hx =>
    hx.1.imp fun {a b} hab hEq => by subst hEq; exact Nat.lt_irrefl _ hab
  have perm : t.Perm u :=
    (List.subperm_of_subset (nodup ht) (sub ht h)).antisymm
      (List.subperm_of_subset (nodup hu) (sub hu fun k => (h k).symm))
  exact perm.eq_of_pairwise (fun a b _ _ hab hba => absurd hab (Nat.lt_asymm hba)) ht.1 hu.1

/-! ### The arena, the code table and the counts -/

/-- A node read back after it is written (index 511 apart, which names no entry). -/
theorem arenaAt_arenaSet_same {a : Table Node} {k : NodeIx} (n : Node)
    (h : a.Pairwise (fun x y => x.1 < y.1)) (hk : k.toNat < Config.nodeMax) :
    arenaAt (arenaSet a k n) k = n := by
  simp [arenaAt, arenaSet, hk, Table.read_write_same _ h]

/-- Writing a node leaves every other node alone. -/
theorem arenaAt_arenaSet_other (a : Table Node) {j k : NodeIx} (n : Node) (h : j ≠ k) :
    arenaAt (arenaSet a k n) j = arenaAt a j := by
  have hne : j.toNat ≠ k.toNat := fun he => h (BitVec.eq_of_toNat_eq he)
  unfold arenaAt arenaSet
  by_cases hk : k.toNat < Config.nodeMax <;> simp [hk, Table.read_write_other _ _ hne]

/-- Writing a node keeps the arena in canonical form. -/
theorem arenaSet_canonical {a : Table Node} (k : NodeIx) (n : Node)
    (h : Table.Canonical Node.unused Config.nodeMax a) :
    Table.Canonical Node.unused Config.nodeMax (arenaSet a k n) := by
  unfold arenaSet
  split
  · exact Table.write_canonical n h ‹_›
  · exact h

/-- An arena with nothing listed holds the cleared entry everywhere. -/
@[simp] theorem arenaAt_nil (k : NodeIx) : arenaAt [] k = .unused := by
  simp [arenaAt, Table.read]

/-- A code read back after it is written. -/
theorem read_codeSet_same {t : Table (Option Bits)} (v : Byte) (c : Bits)
    (h : t.Pairwise (fun x y => x.1 < y.1)) : Table.read none (codeSet t v c) v.toNat = some c :=
  Table.read_write_same _ h

/-- Writing a code leaves every other code alone. -/
theorem read_codeSet_other (t : Table (Option Bits)) {v w : Byte} (c : Bits) (h : w ≠ v) :
    Table.read none (codeSet t v c) w.toNat = Table.read none t w.toNat :=
  Table.read_write_other _ _ fun he => h (BitVec.eq_of_toNat_eq he)

/-- Writing a code keeps the code table in canonical form. -/
theorem codeSet_canonical {t : Table (Option Bits)} (v : Byte) (c : Bits)
    (h : Table.Canonical none Config.symMax t) : Table.Canonical none Config.symMax (codeSet t v c) :=
  Table.write_canonical _ h v.isLt

/-- Counting a byte adds one to its own count (R143). -/
theorem freqAt_countByte_same {s : State} (b : Byte) (h : s.freq.Pairwise (fun x y => x.1 < y.1)) :
    (countByte b s).freqAt b = s.freqAt b + 1 :=
  Table.read_write_same _ h

/-- Counting a byte leaves every other count alone (R143). -/
theorem freqAt_countByte_other (s : State) {b v : Byte} (h : v ≠ b) : (countByte b s).freqAt v = s.freqAt v :=
  Table.read_write_other _ _ fun he => h (BitVec.eq_of_toNat_eq he)

/-- Counting a byte keeps the frequency table in canonical form. -/
theorem countByte_canonical {s : State} (b : Byte) (h : Table.Canonical 0 Config.symMax s.freq) :
    Table.Canonical 0 Config.symMax (countByte b s).freq :=
  Table.write_canonical _ h b.isLt

/-- The tables of the reset state are in canonical form. -/
theorem reset_memory_wf : Memory.wf State.reset := by decide +kernel

/-- Clearing the session leaves its tables in canonical form, whatever they held. -/
theorem sessionClear_memory_wf (s : State) : Memory.wf (sessionClear s) := by
  simp [Memory.wf, Table.Canonical]

end Sys2Proof.Machine
end

