-- ==== Sys2Proof/Laws/Ops.lean ====
section
/-! SUPPORT. What each shared operation can do, said once: the stage check (R120), putting items on OUT (R62, R64), the
streaming engine (R141, R221, R252) and the step. -/

namespace Sys2Proof.Machine

/-- The stages at which each command is legal, as in the table of R121. -/
theorem legalAt_iff (i : Instr) (st : Stage) : Instr.legalAt i st = true ↔
    match i with
    | .clear | .fscan => True
    | .tbuild => st = .counted
    | .cassign => st = .built
    | .encode => st = .assigned ∨ st = .encoded
    | .decode => st = .encoded := by
  cases i <;> cases st <;> simp [Instr.legalAt]

/-- A legal command runs. -/
theorem ifLegal_of_legal {i : Instr} {s : State} {run : State → StepResult} (h : Instr.legalAt i s.stage = true) :
    ifLegal i s run = run s := by
  simp [ifLegal, h]

/-- A command that is not legal is rejected with `E_SEQ` and its own word (R302). -/
theorem ifLegal_of_illegal {i : Instr} {s : State} {run : State → StepResult} (h : Instr.legalAt i s.stage = false) :
    ifLegal i s run = .next (s.complete .seq (encodeWord i)) := by
  simp [ifLegal, h]

/-- All the stage check can do. -/
theorem ifLegal_cases {i : Instr} {s t : State} {run : State → StepResult} (h : ifLegal i s run = .next t) :
    (Instr.legalAt i s.stage = true ∧ run s = .next t) ∨
    (Instr.legalAt i s.stage = false ∧ t = s.complete .seq (encodeWord i)) := by
  by_cases hl : Instr.legalAt i s.stage = true
  · exact .inl ⟨hl, by rwa [ifLegal_of_legal hl] at h⟩
  · simp only [Bool.not_eq_true] at hl
    rw [ifLegal_of_illegal hl] at h
    injection h with h
    exact .inr ⟨hl, h.symm⟩

/-- An accepted command that takes a stream finds the stream written with it at the IN port (R63, R348). -/
theorem handOver_of_accepted {i : Instr} {s : State} (operand : Option (List Byte))
    (hi : Instr.takesStream i = true) (h : Instr.legalAt i s.stage = true) :
    handOver i operand s = { s with inStream := InStream.ofOperand operand } := by
  simp [handOver, hi, h]

/-- No item reaches a rejected command (R348). -/
theorem handOver_of_illegal {i : Instr} {s : State} (operand : Option (List Byte))
    (h : Instr.legalAt i s.stage = false) : handOver i operand s = s := by
  simp [handOver, h]

/-- `CLEAR`, `TBUILD` and `CASSIGN` touch no stream (R63). -/
theorem handOver_of_no_stream {i : Instr} (operand : Option (List Byte)) (s : State)
    (hi : Instr.takesStream i = false) : handOver i operand s = s := by
  simp [handOver, hi]

/-- Handing a stream over changes nothing but the IN port. -/
theorem handOver_frame (i : Instr) (operand : Option (List Byte)) (s : State) :
    handOver i operand s = { s with inStream := (handOver i operand s).inStream } := by
  unfold handOver
  split <;> rfl

/-- When the host takes every OUT item, all of them are on OUT at once. -/
theorem putOut_none {items : List Item} {r : Running} {s : State} (h : s.outRoom = none) :
    putOut items r s = ({ r with pend := [] }, { s with outStream := s.outStream ++ (r.pend ++ items) }) := by
  simp [putOut, h]

/-- Putting items changes nothing of the state but OUT and the host's room for it. -/
theorem putOut_frame (items : List Item) (r : Running) (s : State) :
    (putOut items r s).2 =
      { s with outStream := (putOut items r s).2.outStream, outRoom := (putOut items r s).2.outRoom } := by
  unfold putOut
  split <;> simp_all

/-- Putting items keeps the phase and the stage of acceptance. -/
@[simp] theorem putOut_phase (items : List Item) (r : Running) (s : State) :
    (putOut items r s).1.phase = r.phase ∧ (putOut items r s).1.stage0 = r.stage0 := by
  unfold putOut
  split <;> simp

/-- No OUT item is lost or reordered: what the host has and what still waits is what was there and what was put. -/
theorem putOut_items (items : List Item) (r : Running) (s : State) :
    (putOut items r s).2.outStream ++ (putOut items r s).1.pend = s.outStream ++ (r.pend ++ items) := by
  unfold putOut
  split <;> simp [List.append_assoc, List.take_append_drop]

/-- The induction over a stream, packaged once. A property that every taken byte keeps holds wherever the engine stops:
either the command is parked, or `End` is taken and the command concludes. -/
theorem feed_cases (P : Running → State → Prop)
    (keep : ∀ b r s tk, P r s → r.pend = [] → takeByte b s r.phase = .ok tk →
      P (putOut tk.out { r with phase := tk.phase } tk.state).1
        (putOut tk.out { r with phase := tk.phase } tk.state).2)
    {ended : Bool} {bs : List Byte} {r : Running} {s t : State} (h0 : P r s) (h : feed ended bs r s = .next t) :
    (∃ bs' r' s', P r' s' ∧ t = { s' with running := some r', inStream := ⟨bs', ended⟩ } ∧
      (r'.pend ≠ [] ∨ (bs' = [] ∧ ended = false))) ∨
    (∃ r' s' e out, P r' s' ∧ r'.pend = [] ∧ ended = true ∧ takeEnd s' r'.phase = .ok (e, out) ∧
      conclude e (putOut out r' s').1 (putOut out r' s').2 = .next t) := by
  induction bs generalizing r s with
  | nil =>
    rw [feed] at h
    split at h
    · rename_i hc
      simp only [Bool.and_eq_true, List.isEmpty_iff] at hc
      split at h
      · simp at h
      · rename_i e out he
        exact .inr ⟨r, s, e, out, h0, hc.1, hc.2, he, h⟩
    · rename_i hc
      simp only [park, Host.Outcome.next.injEq] at h
      refine .inl ⟨[], r, s, h0, h.symm, ?_⟩
      by_cases hp : r.pend = []
      · simp [hp] at hc
        exact .inr ⟨rfl, hc⟩
      · exact .inl hp
  | cons b bs ih =>
    rw [feed] at h
    split at h
    · rename_i hp
      split at h
      · simp at h
      · rename_i tk htk
        exact ih (keep b r s tk h0 (List.isEmpty_iff.1 hp) htk) h
    · rename_i hp
      simp only [park, Host.Outcome.next.injEq] at h
      exact .inl ⟨b :: bs, r, s, h0, h.symm, .inl (by simpa using hp)⟩

/-- All `conclude` can do: complete, or wait for the host to take the last OUT items. -/
theorem conclude_cases {e : Ending} {r : Running} {s t : State} (h : conclude e r s = .next t) :
    (r.pend = [] ∧ t = finish e { s with inStream := InStream.nothing }) ∨
    (r.pend ≠ [] ∧
      t = { s with running := some { r with phase := .finishing e }, inStream := InStream.nothing }) := by
  unfold conclude at h
  split at h
  · rename_i hp
    injection h with h
    exact .inl ⟨by simpa using hp, h.symm⟩
  · rename_i hp
    simp only [park, Host.Outcome.next.injEq] at h
    exact .inr ⟨by simpa using hp, h.symm⟩

/-- Every way a command ends leaves no command running. -/
@[simp] theorem finish_running (e : Ending) (s : State) : (finish e s).running = none := by
  cases e <;> rfl

/-- Wherever the engine leaves a command running, the command keeps its stage of acceptance (R351). -/
theorem feed_stage0 {ended : Bool} {bs : List Byte} {r r' : Running} {s t : State}
    (h : feed ended bs r s = .next t) (hr : t.running = some r') : r'.stage0 = r.stage0 := by
  rcases feed_cases (fun q _ => q.stage0 = r.stage0) (fun _ _ _ _ hq _ _ => by simpa using hq) rfl h with
    ⟨_, _, _, hq, rfl, -⟩ | ⟨q, u, e, out, hq, -, -, -, hc⟩
  · exact Option.some.inj hr ▸ hq
  · rcases conclude_cases hc with ⟨-, rfl⟩ | ⟨-, rfl⟩
    · simp at hr
    · simpa [← Option.some.inj hr] using hq

/-- Every way a command ends reports one result and leaves the tree, the codes, the counts and the streams alone. -/
theorem finish_frame (e : Ending) (s : State) :
    finish e s = { s with
      stage := (finish e s).stage, pad := (finish e s).pad, result := (finish e s).result,
      rinfo := (finish e s).rinfo, running := none,
      record := s.record ++ [((finish e s).result, (finish e s).rinfo)] } := by
  cases e <;> rfl

/-- The index `minKey` gives is one of those it is given. -/
theorem minKey_mem (arena : Table Node) (q : NodeIx) (rest : List NodeIx) : minKey arena q rest ∈ q :: rest := by
  induction rest generalizing q with
  | nil => simp [minKey]
  | cons x rest ih =>
    have := ih (if keyBefore arena x q then x else q)
    simp only [minKey, List.foldl_cons] at this ⊢
    rcases List.mem_cons.1 this with h | h
    · rw [h]
      split <;> simp
    · simp [h]

/-- All that supplying items can do: nothing, with no item; a refusal, with no command to take the items or after its
`End` (R348); or the running command goes on with them at the end of what waits at the IN port. -/
theorem supplyIn_cases (bytes : List Byte) (last : Bool) (s : State) :
    (bytes = [] ∧ last = false ∧ supplyIn bytes last s = .next s) ∨
    ((bytes ≠ [] ∨ last = true) ∧
      ((s.running = none ∧ supplyIn bytes last s = .refused .itemForNoCommand) ∨
       ∃ r, s.running = some r ∧
        ((endSupplied r s = true ∧ supplyIn bytes last s = .refused .itemAfterEnd) ∨
         (endSupplied r s = false ∧
          supplyIn bytes last s = resume { s with inStream := ⟨s.inStream.bytes ++ bytes, last⟩ })))) := by
  by_cases h : bytes.isEmpty && !last
  · have h' : bytes = [] ∧ last = false := by simpa using h
    exact .inl ⟨h'.1, h'.2, by simp [supplyIn, h]⟩
  · refine .inr ⟨by cases bytes <;> simp_all, ?_⟩
    cases hr : s.running with
    | none => exact .inl ⟨rfl, by simp [supplyIn, h, hr]⟩
    | some r => exact .inr ⟨r, rfl, by cases he : endSupplied r s <;> simp [supplyIn, h, hr, he]⟩

/-- With no move of the host waiting, a step leaves the state alone (R340). -/
theorem step_of_no_move {s : State} (h : s.hostMoves = []) : step s = .next s := by
  simp [step, h]

/-- With a move waiting, a step makes it. -/
theorem step_of_move {s : State} {m : HostMove} {rest : List HostMove} (h : s.hostMoves = m :: rest) :
    step s = hostMove m { s with hostMoves := rest } := by
  simp [step, h]

/-- The packed bytes of a sequence, one byte at a time (R98). -/
theorem packedBytes_succ (n : Nat) (bits : Bits) :
    packedBytes (n + 1) bits = byteOf (bits.take 8) :: packedBytes n (bits.drop 8) := by
  simp [packedBytes, List.range_succ_eq_map, List.map_map, Function.comp_def, Nat.mul_add, Nat.add_comm]

/-- The flush (R212) gives the whole bytes of the buffer and keeps the last `length mod 8` bits. -/
theorem flush_eq (buf : Bits) :
    flush buf = (packedBytes (buf.length / 8) buf, buf.drop (8 * (buf.length / 8))) := by
  induction buf using flush.induct with
  | case1 x0 x1 x2 x3 x4 x5 x6 x7 rest ih =>
    have hl : (x0 :: x1 :: x2 :: x3 :: x4 :: x5 :: x6 :: x7 :: rest).length / 8 = rest.length / 8 + 1 := by
      simp only [List.length_cons]
      omega
    rw [flush, ih, hl, packedBytes_succ, Nat.mul_add, Nat.add_comm, ← List.drop_drop]
    simp
  | case2 buf h =>
    have hl : buf.length / 8 = 0 := by
      rcases buf with _ | ⟨x0, _ | ⟨x1, _ | ⟨x2, _ | ⟨x3, _ | ⟨x4, _ | ⟨x5, _ | ⟨x6, _ | ⟨x7, rest⟩⟩⟩⟩⟩⟩⟩⟩
      all_goals first
        | exact absurd rfl (h _ _ _ _ _ _ _ _ _)
        | simp
    rw [flush, hl]
    · simp [packedBytes]
    · exact h

/-- After a flush at most 7 bits are left (R212, R213). -/
theorem flush_rest_length (buf : Bits) : (flush buf).2.length ≤ 7 := by
  rw [flush_eq]
  simp only [List.length_drop]
  omega

end Sys2Proof.Machine
end

