-- ==== Sys2Proof/Laws/PerInstr.lean ====
section
/-! SUPPORT. A fact of every command as syntax, one lemma per constructor. -/

namespace Sys2Proof.Laws.LegalWord

/-- The word of a command is one of the six legal words, its field `zero` is 0, and the command is well formed (R90,
R91, R92). -/
def Statement (i : Instr) : Prop :=
  wfCommandWord (encodeWord i) = true ∧ zeroField (encodeWord i) = 0 ∧ Instr.wf i = true

theorem clear : Statement .clear := by unfold Statement; decide
theorem fscan : Statement .fscan := by unfold Statement; decide
theorem tbuild : Statement .tbuild := by unfold Statement; decide
theorem cassign : Statement .cassign := by unfold Statement; decide
theorem encode : Statement .encode := by unfold Statement; decide
theorem decode : Statement .decode := by unfold Statement; decide

end Sys2Proof.Laws.LegalWord
end

