-- ==== Sys2Proof/Tests/Slice0.lean ====
section
/-! SUPPORT. The model's own tests: decoding, the well-formedness checks, one or two steps per command on small states
written out from the spec's vectors (spec 95_test_vectors.md), and for every statement with hypotheses a concrete state
that meets all of them. Every expected value is the spec's, not the model's. -/

set_option Elab.async false

namespace Sys2Proof.Machine.Tests

/-! ### Decoding, from R90 and R91: bits 7:3 are 00000, bits 2:0 the operation -/

theorem test_decode_clear : decodeWord 0b00000_000 = .ok .clear := by decide
theorem test_decode_fscan : decodeWord 0b00000_001 = .ok .fscan := by decide
theorem test_decode_tbuild : decodeWord 0b00000_010 = .ok .tbuild := by decide
theorem test_decode_cassign : decodeWord 0b00000_011 = .ok .cassign := by decide
theorem test_decode_encode : decodeWord 0b00000_100 = .ok .encode := by decide
theorem test_decode_decode : decodeWord 0b00000_101 = .ok .decode := by decide

/-- R91: the two reserved operations, and a word with a bit of the field `zero` set, are refused by name. -/
theorem test_decode_reserved :
    decodeWord 0b00000_110 = .error (.reservedOp 0x06) ∧ decodeWord 0b00000_111 = .error (.reservedOp 0x07) ∧
    decodeWord 0b00001_000 = .error (.zeroFieldSet 0x08) ∧ decodeWord 0b10000_001 = .error (.zeroFieldSet 0x81) := by
  decide

/-- No byte, no command; the bytes after a command are handed on. -/
theorem test_decode_bytes :
    decodeBytes [] = .error .noWord ∧ decodeBytes [0x03, 0xFF] = .ok (.cassign, [0xFF]) := by decide

theorem test_decodeTableWord :
    decodeTableWord 8 0x04 = some .encode ∧ decodeTableWord 8 0x06 = none ∧ decodeTableWord 16 0x04 = none := by decide

/-! ### Well-formedness: each check refuses an ill-formed term -/

theorem test_wf_command_word_refuses : wfCommandWord 0x06 = false ∧ wfCommandWord 0x05 = true := by decide

/-- R61: a stream without `End`, with an item after `End`, or with two `End` items is ill formed. -/
theorem test_wf_stream_refuses :
    wfStream [] = false ∧ wfStream [.byte 1] = false ∧ wfStream [.eos, .byte 1] = false ∧
    wfStream [.eos, .eos] = false ∧ wfStream [.byte 1, .eos] = true := by decide

/-- R29: the empty code and a code of 256 bits are ill formed. -/
theorem test_wf_code_refuses :
    wfCode [] = false ∧ wfCode (zeros 256) = false ∧ wfCode (zeros 255) = true := by decide +kernel

/-- What the IN port offers once `End` is there is a well-formed stream (R61). -/
theorem test_operand_is_a_wf_stream : wfStream (InStream.ofOperand (some [0x61, 0x62])).items = true := by decide

/-! ### Small states, written out from the vectors -/

/-- The state of an answered next step, if it is one. -/
def nextOf : StepResult → Option State
  | .next t => some t
  | .fault _ => none
  | .refused _ => none

theorem next_of_nextOf {r : StepResult} {t : State} (h : nextOf r = some t) : r = .next t := by
  cases r <;> simp_all [nextOf]

/-- S1 after `FSCAN "aaab"`. -/
def counted : State := { State.reset with stage := .counted, total := 4, freq := [(0x61, 3), (0x62, 1)] }

/-- S1 after `TBUILD`. -/
def built : State :=
  { counted with
    stage := .built, nsym := 2, root := 2,
    node := [(0, .leaf 3 0x61), (1, .leaf 1 0x62), (2, .internal 4 1 0)] }

/-- S1 after `CASSIGN`. -/
def assigned : State := { built with stage := .assigned, code := [(0x61, some [true]), (0x62, some [false])] }

/-- S1 after `ENCODE "aaab"`. -/
def encoded : State := { assigned with stage := .encoded, pad := 4 }

/-- V9 after `FSCAN "abcc"`: a leaf and an internal node will tie. -/
def countedTie : State :=
  { State.reset with stage := .counted, total := 4, freq := [(0x61, 1), (0x62, 1), (0x63, 2)] }

/-- V9 after `TBUILD`. -/
def builtTie : State :=
  { countedTie with
    stage := .built, nsym := 3, root := 4,
    node := [(0, .leaf 1 0x61), (1, .leaf 1 0x62), (2, .leaf 2 0x63), (3, .internal 2 0 1), (4, .internal 4 2 3)] }

/-- V31: the session of `COMPRESS "abcc"`. -/
def encodedTie : State :=
  { builtTie with
    stage := .encoded, pad := 2,
    code := [(0x61, some [true, false]), (0x62, some [true, true]), (0x63, some [false])] }

/-- V32: the session of `COMPRESS "zzzz"`. -/
def encodedSingle : State :=
  { State.reset with
    stage := .encoded, total := 4, nsym := 1, root := 0, pad := 4, freq := [(0x7A, 4)],
    node := [(0, .leaf 4 0x7A)], code := [(0x7A, some [false])] }

/-- The same block with a whole stream offered. -/
def offer (d : List Byte) (s : State) : State := { s with inStream := ⟨d, true⟩ }

/-- An `ENCODE` that waits for its next item, with three bits pending. -/
def waiting : State := { assigned with running := some ⟨.assigned, .encoding [true, true, false], []⟩ }

/-! ### One step per command -/

/-- V5: `CLEAR` after S1 clears the session and keeps the selectors. -/
theorem test_clear : nextOf (exec .clear { encoded with symSel := 5, nodeSel := 511 }) =
    some { State.reset with symSel := 5, nodeSel := 511, record := [(.ok, 0)] } := by decide +kernel

/-- V6, third row, over an old session: every byte value counts. -/
theorem test_fscan_counts : nextOf (exec .fscan (offer [0x00, 0xFF, 0x00, 0x80] encoded)) =
    some { State.reset with
      stage := .counted, total := 4, freq := [(0x00, 2), (0x80, 1), (0xFF, 1)], record := [(.ok, 0)] } := by
  decide +kernel

/-- V7, fourth row: with `CNT_W = 2` the fourth byte overflows. -/
theorem test_fscan_overflow : nextOf (exec .fscan (offer [0x61, 0x62, 0x63, 0x61] { State.reset with cntW := 2 })) =
    some { State.reset with cntW := 2, result := .countOvf, record := [(.countOvf, 0)] } := by decide +kernel

/-- V9: on a tie the leaf is extracted before the merged node. -/
theorem test_tbuild_tie : nextOf (exec .tbuild countedTie) = some { builtTie with record := [(.ok, 0)] } := by
  decide +kernel

/-- V15, "mississippi". -/
theorem test_tbuild_mississippi :
    (nextOf (exec .tbuild { State.reset with
      stage := .counted, total := 11, freq := [(0x69, 4), (0x6D, 1), (0x70, 2), (0x73, 4)] })).map State.node =
    some [(0, .leaf 4 0x69), (1, .leaf 1 0x6D), (2, .leaf 2 0x70), (3, .leaf 4 0x73), (4, .internal 3 1 2),
      (5, .internal 7 4 0), (6, .internal 11 3 5)] := by decide +kernel

/-- V9: the codes of "abcc". -/
theorem test_cassign_tie : (nextOf (exec .cassign builtTie)).map (fun t => (t.stage, t.code)) =
    some (.assigned, [(0x61, some [true, false]), (0x62, some [true, true]), (0x63, some [false])]) := by
  decide +kernel

/-- V11: the single symbol gets the code "0". -/
theorem test_cassign_single : (nextOf (exec .cassign { encodedSingle with stage := .built, code := [] })).map
    State.code = some [(0x7A, some [false])] := by decide +kernel

/-- V20, row "abcc": B0 with two pad bits. -/
theorem test_encode : (nextOf (exec .encode (offer [0x61, 0x62, 0x63, 0x63] encodedTie))).map
    (fun t => (t.outStream, t.pad, t.stage)) = some ([.byte 0xB0, .eos], 2, .encoded) := by decide +kernel

/-- V24, third row, from stage 4: one whole byte stays, the pending bits are dropped. -/
theorem test_encode_unknown :
    (nextOf (exec .encode (offer
      [0x61, 0x61, 0x61, 0x61, 0x61, 0x61, 0x61, 0x61, 0x62, 0x62, 0x63] encoded))).map
    (fun t => (t.outStream, t.result, t.rinfo, t.pad, t.stage)) =
    some ([.byte 0xFF, .eos], .unknownSym, 0x63, 0, .assigned) := by decide +kernel

/-- V31, row `[B0 B0]`: only the last byte loses its pad bits. -/
theorem test_decode_two_bytes : (nextOf (exec .decode (offer [0xB0, 0xB0] encodedTie))).map
    (fun t => (t.outStream, t.result)) =
    some ([.byte 0x61, .byte 0x62, .byte 0x63, .byte 0x63, .byte 0x63, .byte 0x63, .byte 0x61, .byte 0x62,
      .byte 0x63, .byte 0x63, .eos], .ok) := by decide +kernel

/-- V32, row `[10]`: three symbols, then a 1 bit with a single-leaf tree. -/
theorem test_decode_bad_bit : (nextOf (exec .decode (offer [0x10] encodedSingle))).map
    (fun t => (t.outStream, t.result, t.rinfo, t.stage)) =
    some ([.byte 0x7A, .byte 0x7A, .byte 0x7A, .eos], .badBit, 0, .encoded) := by decide +kernel

/-! ### The streams of rejected commands, and items no command takes (V3, R63, R348) -/

/-- V3: `ENCODE` at reset is rejected, and its stream is not there for a later `FSCAN` written as a register write. -/
theorem test_rejected_command_gets_no_items :
    (nextOf (runSteps 3 { State.reset with
      hostMoves := [.command 0x04 (some [0x61]), .write 0 1, .supply [0x62] true] })).map
      (fun t => (t.record, t.freq)) = some ([(.seq, 0x04), (.ok, 0)], [(0x62, 1)]) := by decide +kernel

/-- An item after `End`, once `End` has been taken, and an item for no command are refused. -/
theorem test_no_item_after_end :
    (match step { waiting with
        running := some ⟨.assigned, .finishing (.encoded 5), [.eos]⟩, hostMoves := [.supply [0x61] false] } with
      | .refused r => r == .itemAfterEnd | _ => false) = true ∧
    (match step { assigned with hostMoves := [.supply [0x61] false] } with
      | .refused r => r == .itemForNoCommand | _ => false) = true := by decide +kernel

/-! ### The register windows (V17) -/

theorem test_node_window :
    regValue { assigned with nodeSel := 2 } 13 = 4 ∧ regValue { assigned with nodeSel := 2 } 14 = 0x201 ∧
    regValue { assigned with nodeSel := 0 } 14 = 0xC2 ∧ regValue { assigned with nodeSel := 511 } 14 = 0 := by
  decide +kernel

theorem test_symbol_window :
    regValue { assigned with symSel := 0x61 } 9 = 3 ∧ regValue { assigned with symSel := 0x61 } 10 = 0x101 ∧
    regValue { assigned with symSel := 0x61 } 11 = 1 ∧ regValue { assigned with symSel := 0x63 } 10 = 0 := by
  decide +kernel

theorem test_status : regValue assigned 1 = 0x06 ∧ regValue waiting 1 = 0x07 := by decide +kernel

/-- R95's own example: the code "110" reads 0x103 and 3. -/
theorem test_code_registers :
    codeLenReg (some [true, true, false]) = 0x103 ∧ codeBitsReg (some [true, true, false]) = 3 := by decide +kernel

/-! ### States that meet the session invariant -/

theorem inv_counted : Inv counted :=
  ⟨by decide, ⟨by decide +kernel, [0x61, 0x61, 0x61, 0x62], rfl, by decide +kernel,
    show ∀ v : Byte, _ from by decide +kernel⟩, rfl, rfl, rfl, rfl, rfl⟩

theorem counts_hold_s1 (s : State) (hc : s.cntW = 32) (hf : s.freq = counted.freq) (ht : s.total = 4) :
    CountsHold s := by
  obtain ⟨-, ⟨hcan, d, hd, hl, hcount⟩, -⟩ := inv_counted
  refine ⟨hf ▸ hcan, d, by rw [hd, ht]; rfl, ?_, hf ▸ hcount⟩
  rw [hc]
  exact hl

theorem inv_built : Inv built :=
  ⟨by decide, counts_hold_s1 _ rfl rfl rfl, by decide +kernel, rfl, rfl⟩

theorem inv_assigned : Inv assigned :=
  ⟨by decide, counts_hold_s1 _ rfl rfl rfl, by decide +kernel, by decide +kernel, rfl⟩

theorem inv_encoded : Inv encoded :=
  ⟨by decide, counts_hold_s1 _ rfl rfl rfl, by decide +kernel, by decide +kernel⟩

/-- The invariant of a block whose `ENCODE` waits for an item. -/
theorem inv_waiting : Inv waiting :=
  ⟨by decide, .inl rfl, ⟨counts_hold_s1 _ rfl rfl rfl, by decide +kernel, by decide +kernel, rfl⟩, by decide⟩

/-- The single-leaf session. -/
theorem inv_encodedSingle : Inv encodedSingle :=
  ⟨by decide, ⟨by decide +kernel, [0x7A, 0x7A, 0x7A, 0x7A], rfl, by decide +kernel,
    show ∀ v : Byte, _ from by decide +kernel⟩, by decide +kernel, by decide +kernel⟩

/-! ### Witnesses: for each statement with hypotheses, states and operands that meet them all, clause by clause -/

theorem witness_DecodeAndEncodeAgree : decodeWord 0x05 = .ok .decode := by decide

/-- An accepted command with and without its stream, a command that takes none, a rejected one, and plain writes of a
word and of a value wider than a word. -/
theorem witness_StepRunsTheDecodedCommand :
    State.reset.running = none ∧ decodeWord 0x01 = .ok .fscan ∧ decodeWord 0x00 = .ok .clear ∧
    decodeWord 0x04 = .ok .encode ∧
    Instr.takesStream .fscan = true ∧ Instr.legalAt .fscan State.reset.stage = true ∧
    Instr.takesStream .clear = false ∧ Instr.legalAt .encode State.reset.stage = false ∧
    { State.reset with hostMoves := [.command 0x01 (some [0x61])] }.hostMoves = .command 0x01 (some [0x61]) :: [] ∧
    { State.reset with hostMoves := [.command 0x01 none] }.hostMoves = .command 0x01 none :: [] ∧
    { State.reset with hostMoves := [.write 0 0x101] }.hostMoves = .write 0 0x101 :: [] ∧
    BitVec.ofNat 8 0x101 = (0x01 : Byte) := by decide

/-- The least and the greatest illegal word, in each form of the write. -/
theorem witness_IllegalWordIsRejected :
    State.reset.running = none ∧ 6 ≤ (0x06 : Byte).toNat ∧ 6 ≤ (0xFF : Byte).toNat ∧
    (∃ operand, HostMove.command 0x06 (some [0x61]) = .command 0x06 operand) ∧
    HostMove.write 0 255 = .write 0 (0xFF : Byte).toNat ∧
    { State.reset with hostMoves := [.command 0x06 (some [0x61])] }.hostMoves = .command 0x06 (some [0x61]) :: [] ∧
    { State.reset with hostMoves := [.write 0 255] }.hostMoves = .write 0 255 :: [] :=
  ⟨rfl, by decide, by decide, ⟨_, rfl⟩, rfl, rfl, rfl⟩

theorem witness_CommandOutOfOrderIsRejected :
    built.running = none ∧ built.stage ≠ .counted ∧ counted.stage ≠ .built ∧
    (built.stage = .cleared ∨ built.stage = .counted ∨ built.stage = .built) ∧ assigned.stage ≠ .encoded := by decide

theorem witness_CommandWriteWhileBusyIsIgnored :
    waiting.running = some ⟨.assigned, .encoding [true, true, false], []⟩ ∧
    (∃ w operand, HostMove.command 0x01 none = .command w operand) ∧ (∃ v, HostMove.write 0 1 = .write 0 v) ∧
    { waiting with hostMoves := [.write 0 1] }.hostMoves = .write 0 1 :: [] :=
  ⟨rfl, ⟨_, _, rfl⟩, ⟨_, rfl⟩, rfl⟩

/-- An accepted command of each kind that completes, and a rejected one. -/
theorem witness_StageMovesOnlyByTheTable :
    (∃ t, exec .clear encoded = .next t ∧ t.running = none ∧ t.stage = .cleared) ∧
    (∃ t, exec .tbuild built = .next t ∧ t.running = none ∧ t.result = .seq) ∧
    (∃ t, exec .encode (offer [0x61] encoded) = .next t ∧ t.running = none ∧ t.stage = .encoded) ∧
    (∃ t, exec .decode (offer [0xE0] encoded) = .next t ∧ t.running = none ∧ t.stage = .encoded) :=
  ⟨⟨_, rfl, rfl, rfl⟩, ⟨_, rfl, rfl, rfl⟩,
   ⟨_, next_of_nextOf (t := { encoded with
        pad := 7, outStream := [.byte 0x80, .eos], record := [(.ok, 0)] }) (by decide +kernel), rfl, rfl⟩,
   ⟨_, next_of_nextOf (t := { encoded with
        outStream := [.byte 0x61, .byte 0x61, .byte 0x61, .byte 0x62, .eos], record := [(.ok, 0)] })
        (by decide +kernel), rfl, rfl⟩⟩

/-- Both alternatives: a command that completes, and one that waits for its stream. -/
theorem witness_EveryCompletionReportsOneResult :
    (∃ t, exec .clear encoded = .next t ∧ t.running = none) ∧
    (∃ t, exec .fscan State.reset = .next t ∧ t.running ≠ none) :=
  ⟨⟨_, rfl, rfl⟩,
   ⟨_, next_of_nextOf (t := { State.reset with running := some ⟨.cleared, .counting, []⟩ }) (by decide +kernel),
    by decide⟩⟩

theorem witness_CommandsLeaveTheHostSideAlone : ∃ t, exec .clear encoded = .next t := ⟨_, rfl⟩

/-- A whole stream offered, and next states of a command of each clause. -/
theorem witness_StreamsAreFramed :
    HostServes (offer [0xE0] encoded) [0xE0] ∧
    (∃ t, exec .fscan (offer [0xE0] encoded) = .next t) ∧
    (Instr.legalAt .decode (offer [0xE0] encoded).stage = true ∧ ∃ t, exec .decode (offer [0xE0] encoded) = .next t) ∧
    (∃ t, exec .clear (offer [0xE0] encoded) = .next t) ∧
    (Instr.legalAt .tbuild (offer [0xE0] encoded).stage = false ∧ ∃ t, exec .tbuild (offer [0xE0] encoded) = .next t) :=
  ⟨⟨rfl, rfl⟩,
   ⟨_, next_of_nextOf (t := { State.reset with
        stage := .counted, total := 1, freq := [(0xE0, 1)], record := [(.ok, 0)] }) (by decide +kernel)⟩,
   ⟨rfl, _, next_of_nextOf (t := { encoded with
        outStream := [.byte 0x61, .byte 0x61, .byte 0x61, .byte 0x62, .eos], record := [(.ok, 0)] })
        (by decide +kernel)⟩,
   ⟨_, rfl⟩, ⟨rfl, _, rfl⟩⟩

theorem witness_HostResetAtAnyTime :
    { waiting with hostMoves := [.reset] }.hostMoves = .reset :: [] ∧ waiting.busy = true := by decide

/-- At the limit exactly, and the empty input. -/
theorem witness_FscanCountsItsStream :
    (offer [0x61] { State.reset with cntW := 1 }).inStream = ⟨[0x61], true⟩ ∧ [0x61].length ≤ 2 ^ 1 - 1 ∧
    (offer [] State.reset).inStream = ⟨[], true⟩ ∧ ([] : List Byte).length ≤ 2 ^ State.reset.cntW - 1 := by
  decide +kernel

/-- One byte past the limit. -/
theorem witness_FscanOverflowClearsAndDrains :
    (offer [0x61, 0x62] { State.reset with cntW := 1 }).inStream = ⟨[0x61, 0x62], true⟩ ∧
    2 ^ 1 - 1 < ([0x61, 0x62] : List Byte).length := by decide

theorem witness_FscanForgetsTheOldSession :
    (offer [0x61] State.reset).cntW = (offer [0x61] encoded).cntW ∧
    (offer [0x61] State.reset).inStream = ⟨[0x61], true⟩ ∧ (offer [0x61] encoded).inStream = ⟨[0x61], true⟩ := by
  decide

theorem witness_TbuildCompletes : counted.stage = .counted := rfl

/-- Also of `LeavesInAscendingSymbolOrder`'s inner hypothesis: the last leaf. -/
theorem witness_LeavesInAscendingSymbolOrder :
    counted.stage = .counted ∧ counted.node = [] ∧ (1 : NodeIx).toNat < (present counted.freq).length := by
  decide +kernel

theorem witness_ExtractMinTakesTheSmallestKey :
    ([2, 3] : List NodeIx) ≠ [] ∧ ([2, 3] : List NodeIx).Nodup ∧ (2 : NodeIx) ∈ ([2, 3] : List NodeIx) ∧
    (2 : NodeIx) ≠ 3 := by decide

theorem witness_MergePassTakesTheTwoLowest :
    2 ≤ (seedLeaves [] countedTie.freq).queue.length ∧ (seedLeaves [] countedTie.freq).queue.Nodup := by
  decide +kernel

theorem witness_LeftChildIsExtractedFirst :
    arenaAt (buildTree [] countedTie.freq).node 4 = .internal 4 2 3 := by decide +kernel

theorem witness_TbuildOfNoSymbols :
    { State.reset with stage := .counted }.stage = .counted ∧
    ∀ v : Byte, { State.reset with stage := .counted }.freqAt v = 0 := ⟨rfl, fun _ => rfl⟩

theorem witness_TbuildOfOneSymbol :
    { State.reset with stage := .counted, freq := [(0x7A, 4)] }.stage = .counted ∧
    { State.reset with stage := .counted, freq := [(0x7A, 4)] }.node = [] ∧
    0 < { State.reset with stage := .counted, freq := [(0x7A, 4)] }.freqAt 0x7A ∧
    ∀ w : Byte, w ≠ 0x7A → { State.reset with stage := .counted, freq := [(0x7A, 4)] }.freqAt w = 0 := by
  decide +kernel

theorem witness_FrequencySums : Inv counted ∧ counted.running = none ∧ counted.stage = .counted :=
  ⟨inv_counted, rfl, rfl⟩

/-- Inner hypotheses of `ArenaIndexFacts` at the boundaries: the last used index, the first unused one, the first internal
one, and a node that is not the root. -/
theorem witness_ArenaIndexFacts :
    (buildTree [] countedTie.freq).nsym = 3 ∧ (buildTree [] countedTie.freq).root = 4 ∧
    arenaAt (buildTree [] countedTie.freq).node 3 = .internal 2 0 1 ∧
    arenaAt (buildTree [] countedTie.freq).node 5 = .leaf 0 0 ∧
    (3 : NodeIx) ≠ (buildTree [] countedTie.freq).root := by decide +kernel

theorem witness_ArenaStandsForATree :
    Inv built ∧ built.running = none ∧ built.stage = .built ∧ built.nsym ≠ 0 ∧ built.freq = built.freq :=
  ⟨inv_built, rfl, rfl, by decide, rfl⟩

theorem witness_CassignOfTheEmptyTree :
    { State.reset with stage := .built }.stage = .built ∧ { State.reset with stage := .built }.nsym = 0 := ⟨rfl, rfl⟩

theorem witness_CassignOfTheSingleLeaf :
    { encodedSingle with stage := .built }.stage = .built ∧ encodedSingle.nsym = 1 ∧
    arenaAt encodedSingle.node encodedSingle.root = .leaf 4 0x7A := by decide +kernel

theorem witness_CassignGivesEveryLeafItsPath :
    Inv built ∧ built.running = none ∧ built.stage = .built ∧ 2 ≤ built.nsym.toNat :=
  ⟨inv_built, rfl, rfl, by decide⟩

/-- Both stages, and the single-leaf case. -/
theorem witness_CodeLengthIsBounded :
    Inv assigned ∧ assigned.running = none ∧ (assigned.stage = .assigned ∨ assigned.stage = .encoded) ∧
    assigned.codeAt 0x61 = some [true] ∧ 2 ≤ assigned.nsym.toNat ∧
    Inv encodedSingle ∧ encodedSingle.stage = .encoded ∧ encodedSingle.codeAt 0x7A = some [false] ∧
    encodedSingle.nsym = 1 :=
  ⟨inv_assigned, rfl, .inl rfl, by decide +kernel, by decide, inv_encodedSingle, rfl, by decide +kernel, rfl⟩

theorem witness_CodesArePrefixFreeAndComplete :
    Inv assigned ∧ assigned.running = none ∧ (assigned.stage = .assigned ∨ assigned.stage = .encoded) ∧
    (0x61 : Byte) ≠ 0x62 ∧ assigned.codeAt 0x61 = some [true] ∧ assigned.codeAt 0x62 = some [false] ∧
    2 ≤ assigned.nsym.toNat ∧ Inv encodedSingle ∧ encodedSingle.nsym = 1 :=
  ⟨inv_assigned, rfl, .inl rfl, by decide, by decide +kernel, by decide +kernel, by decide, inv_encodedSingle, rfl⟩

theorem witness_HigherFrequencyNeverLongerCode :
    Inv assigned ∧ assigned.running = none ∧ (assigned.stage = .assigned ∨ assigned.stage = .encoded) ∧
    assigned.codeAt 0x61 = some [true] ∧ assigned.codeAt 0x62 = some [false] ∧
    assigned.freqAt 0x62 < assigned.freqAt 0x61 :=
  ⟨inv_assigned, rfl, .inl rfl, by decide +kernel, by decide +kernel, by decide +kernel⟩

/-- Also of `EncodeLengthAndPadLaw` and `EncodeBitOrderAndPadBits`; the second state meets the clause on one-bit codes. -/
theorem witness_EncodePutsThePackedStream :
    (assigned.stage = .assigned ∨ assigned.stage = .encoded) ∧
    HostServes (offer [0x61, 0x62] assigned) [0x61, 0x62] ∧ AllCoded (offer [0x61, 0x62] assigned) [0x61, 0x62] ∧
    HostServes (offer [0x7A] encodedSingle) [0x7A] ∧
    (∀ b ∈ ([0x7A] : List Byte), (offer [0x7A] encodedSingle).codeAt b = some [false]) :=
  ⟨.inl rfl, ⟨rfl, rfl⟩, show ∀ b ∈ ([0x61, 0x62] : List Byte), _ from by decide +kernel, ⟨rfl, rfl⟩,
   by decide +kernel⟩

theorem witness_EncodeLengthAndPadLaw :
    (assigned.stage = .assigned ∨ assigned.stage = .encoded) ∧
    HostServes (offer [0x61, 0x62] assigned) [0x61, 0x62] ∧ AllCoded (offer [0x61, 0x62] assigned) [0x61, 0x62] :=
  ⟨.inl rfl, ⟨rfl, rfl⟩, show ∀ b ∈ ([0x61, 0x62] : List Byte), _ from by decide +kernel⟩

theorem witness_EncodeBitOrderAndPadBits :
    (encoded.stage = .assigned ∨ encoded.stage = .encoded) ∧
    HostServes (offer [0x61, 0x62] encoded) [0x61, 0x62] ∧ AllCoded (offer [0x61, 0x62] encoded) [0x61, 0x62] ∧
    1 < (codeBits (offer [0x61, 0x62] encoded) [0x61, 0x62]).length :=
  ⟨.inr rfl, ⟨rfl, rfl⟩, show ∀ b ∈ ([0x61, 0x62] : List Byte), _ from by decide +kernel, by decide +kernel⟩

theorem witness_EncodeStopsAtTheFirstUnknownSymbol :
    (encoded.stage = .assigned ∨ encoded.stage = .encoded) ∧
    HostServes (offer [0x61, 0x63, 0x62] encoded) ([0x61] ++ 0x63 :: [0x62]) ∧
    AllCoded (offer [0x61, 0x63, 0x62] encoded) [0x61] ∧ (offer [0x61, 0x63, 0x62] encoded).codeAt 0x63 = none :=
  ⟨.inr rfl, ⟨rfl, rfl⟩, show ∀ b ∈ ([0x61] : List Byte), _ from by decide +kernel, by decide +kernel⟩

/-- Completed, and waiting. -/
theorem witness_EncodeLeavesTreeAndCodesAlone :
    (∃ t, exec .encode (offer [0x61] encoded) = .next t) ∧ (∃ t, exec .encode assigned = .next t) :=
  ⟨⟨_, next_of_nextOf (t := { encoded with
        pad := 7, outStream := [.byte 0x80, .eos], record := [(.ok, 0)] }) (by decide +kernel)⟩,
   ⟨_, next_of_nextOf (t := { assigned with running := some ⟨.assigned, .encoding [], []⟩ }) (by decide +kernel)⟩⟩

theorem witness_DecodeFollowsTheWholeStreamTable :
    Inv (offer [0xE0] encoded) ∧ (offer [0xE0] encoded).running = none ∧ (offer [0xE0] encoded).stage = .encoded ∧
    HostServes (offer [0xE0] encoded) [0xE0] := ⟨inv_encoded, rfl, rfl, rfl, rfl⟩

theorem witness_DecodeChangesOnlyTheResult : ∃ t, exec .decode (offer [0xE0] encoded) = .next t :=
  ⟨_, next_of_nextOf (t := { encoded with
        outStream := [.byte 0x61, .byte 0x61, .byte 0x61, .byte 0x62, .eos], record := [(.ok, 0)] })
        (by decide +kernel)⟩

/-- V31: B0 and B3 differ in the two pad bits alone. -/
theorem witness_DecodeIgnoresThePadBits :
    encodedTie.stage = .encoded ∧ encodedTie.outRoom = none ∧ (0xB0 : Byte) ≠ 0xB3 ∧
    ∀ j : Nat, encodedTie.pad.toNat ≤ j → (0xB0 : Byte).getLsbD j = (0xB3 : Byte).getLsbD j := by
  refine ⟨rfl, rfl, by decide, fun j hj => ?_⟩
  by_cases h : j < 8
  · have : ∀ k : Fin 8, 2 ≤ k.val → (0xB0 : Byte).getLsbD k = (0xB3 : Byte).getLsbD k := by decide
    exact this ⟨j, h⟩ hj
  · simp [BitVec.getLsbD_of_ge _ _ (Nat.le_of_not_lt h)]

theorem witness_DecodeOfNoBytes : encodedTie.stage = .encoded ∧ HostServes (offer [] encodedTie) [] :=
  ⟨rfl, rfl, rfl⟩

theorem witness_DecodeOfTheEmptyTree :
    { State.reset with stage := .encoded }.stage = .encoded ∧ { State.reset with stage := .encoded }.nsym = 0 ∧
    HostServes (offer [0x12, 0x34] { State.reset with stage := .encoded }) [0x12, 0x34] := ⟨rfl, rfl, rfl, rfl⟩

/-- With `CNT_W = 1`: the limit exactly, and one byte past it. -/
theorem witness_CompressSequence :
    let s (d : List Byte) : State := { State.reset with cntW := 1, hostMoves := compressMoves d }
    (∀ d, (s d).running = none ∧ (s d).outRoom = none ∧ (s d).hostMoves = compressMoves d) ∧
    ([0x61] : List Byte).length ≤ 2 ^ (s [0x61]).cntW - 1 ∧
    2 ^ (s [0x61, 0x62]).cntW - 1 < ([0x61, 0x62] : List Byte).length :=
  ⟨fun _ => ⟨rfl, rfl, rfl⟩, by decide, by decide⟩

theorem witness_RoundTripLaw :
    encoded.running = none ∧ encoded.outRoom = none ∧ ([0x61] : List Byte).length ≤ 2 ^ encoded.cntW - 1 := by
  decide +kernel

theorem witness_GeneralRoundTrip :
    Inv assigned ∧ assigned.running = none ∧ assigned.outRoom = none ∧
    (assigned.stage = .assigned ∨ assigned.stage = .encoded) ∧ AllCoded assigned [0x62, 0x61] :=
  ⟨inv_assigned, rfl, rfl, .inl rfl, show ∀ b ∈ ([0x62, 0x61] : List Byte), _ from by decide +kernel⟩

/-- A block at rest and a block with a command running, each with a step that answers a next state. -/
theorem witness_EveryStepKeepsTheSessionInvariant :
    Inv encoded ∧ step encoded = .next encoded ∧
    Inv { waiting with hostMoves := [.supply [] true] } ∧
    step { waiting with hostMoves := [.supply [] true] } =
      .next { encoded with pad := 5, outStream := [.byte 0xC0, .eos], record := [(.ok, 0)] } :=
  ⟨inv_encoded, rfl, inv_waiting, next_of_nextOf (by decide +kernel)⟩

theorem witness_NoStepFaultsUnderTheInvariant : Inv encoded ∧ Inv waiting := ⟨inv_encoded, inv_waiting⟩

theorem witness_InvariantKeepsTheTablesWellFormed : Inv encoded ∧ encoded.running = none := ⟨inv_encoded, rfl⟩

theorem witness_StreamWithoutEndNeverCompletes :
    waiting.running = some ⟨.assigned, .encoding [true, true, false], []⟩ ∧
    (∀ e, Phase.encoding [true, true, false] ≠ .finishing e) ∧ waiting.inStream.ended = false ∧
    step waiting = .next waiting ∧ (∀ rest, waiting.hostMoves ≠ .reset :: rest) ∧
    (∀ bytes rest, waiting.hostMoves ≠ .supply bytes true :: rest) :=
  ⟨rfl, nofun, rfl, rfl, nofun, nofun⟩

/-- An accepted `ENCODE`, and a step of one that waits at the IN port and of one whose `End` waits for the host. -/
theorem witness_OutputNeverTakenNeverCompletes :
    (Instr.legalAt .encode assigned.stage = true ∧ { assigned with outRoom := some 0 }.outRoom = some 0 ∧
      ∃ t, exec .encode { assigned with outRoom := some 0 } = .next t) ∧
    (OwesOutput ⟨.assigned, .encoding [true, true, false], []⟩ ∧
      step { waiting with outRoom := some 0, hostMoves := [.supply [] true] } = .next { assigned with
        outRoom := some 0, running := some ⟨.assigned, .finishing (.encoded 5), [.byte 0xC0, .eos]⟩ }) ∧
    OwesOutput ⟨.assigned, .finishing (.encoded 5), [.byte 0xC0, .eos]⟩ :=
  ⟨⟨rfl, rfl, _, next_of_nextOf (t := { assigned with
      outRoom := some 0, running := some ⟨.assigned, .encoding [], []⟩ }) (by decide +kernel)⟩,
   ⟨.inr trivial, next_of_nextOf (by decide +kernel)⟩, .inl (by decide)⟩

/-- A first piece, and for each refusal and for the supply of no item a block and a move that meet its conditions. -/
theorem witness_PiecewiseSupplyChangesNoResult :
    (Instr.takesStream .encode = true ∧ Instr.legalAt .encode assigned.stage = true ∧
      ∃ t, exec .encode { assigned with running := none, inStream := ⟨[0x61], false⟩ } = .next t) ∧
    { assigned with hostMoves := [.supply [] false] }.hostMoves = .supply [] false :: [] ∧
    ({ assigned with hostMoves := [.supply [0x61] false] }.hostMoves = .supply [0x61] false :: [] ∧
      ([0x61] : List Byte) ≠ [] ∧ assigned.running = none) ∧
    (∃ r, { waiting with inStream := ⟨[], true⟩ }.running = some r ∧
      { waiting with inStream := ⟨[], true⟩ }.inStream.ended = true) ∧
    (∃ r, { waiting with running := some ⟨.assigned, .finishing (.encoded 5), [.eos]⟩ }.running = some r ∧
      ∃ e, r.phase = .finishing e) :=
  ⟨⟨rfl, rfl, _, next_of_nextOf (t := { assigned with running := some ⟨.assigned, .encoding [true], []⟩ })
      (by decide +kernel)⟩,
   rfl, ⟨rfl, by decide, rfl⟩, ⟨_, rfl, rfl⟩, ⟨_, rfl, _, rfl⟩⟩

/-- A stall at an IN port with `End` and at one without, each with its room used up. -/
theorem witness_StalledOutputChangesNoResult :
    (∃ t, exec .encode { assigned with running := none, inStream := ⟨[], true⟩, outRoom := some 0 } = .next t ∧
      t.outRoom = some 0) ∧
    (∃ t, exec .encode { assigned with
        running := none, inStream := ⟨List.replicate 16 0x61, false⟩, outRoom := some 1 } = .next t ∧
      t.outRoom = some 0) ∧
    assigned.running = none ∧
    { assigned with hostMoves := [.takeOut (some 0)] }.hostMoves = .takeOut (some 0) :: [] :=
  ⟨⟨_, next_of_nextOf (t := { assigned with
      outRoom := some 0, running := some ⟨.assigned, .finishing (.encoded 0), [.eos]⟩ }) (by decide +kernel), rfl⟩,
   ⟨_, next_of_nextOf (t := { assigned with
      outRoom := some 0, outStream := [.byte 0xFF],
      running := some ⟨.assigned, .encoding [], [.byte 0xFF]⟩ }) (by decide +kernel), rfl⟩,
   rfl, rfl⟩

/-- A read, a command that `exec` leaves running, and a step that leaves one running. -/
theorem witness_StatusReadsBusyAndStage :
    { waiting with hostMoves := [.read 1] }.hostMoves = .read 1 :: [] ∧
    (∃ t r, exec .fscan encoded = .next t ∧ t.running = some r ∧ encoded.stage = .encoded) ∧
    (∃ t r r', waiting.running = some r ∧
      step { waiting with hostMoves := [.supply [0x61] false] } = .next t ∧ t.running = some r') :=
  ⟨rfl,
   ⟨_, _, next_of_nextOf (t := { State.reset with running := some ⟨.encoded, .counting, []⟩ }) (by decide +kernel),
    rfl, rfl⟩,
   ⟨_, _, _, rfl, next_of_nextOf (t := { waiting with
      running := some ⟨.assigned, .encoding [true, true, false, true], []⟩ }) (by decide +kernel), rfl⟩⟩

/-- A register that exists, and the first number that names none. -/
theorem witness_IdleRegisterReads :
    assigned.running = none ∧ { assigned with hostMoves := [.read 14] }.hostMoves = .read 14 :: [] ∧
    { assigned with hostMoves := [.read 15] }.hostMoves = .read 15 :: [] := ⟨rfl, rfl, rfl⟩

theorem witness_SymbolWindowShowsTheEntry :
    { assigned with symSel := 0x63 }.codeAt 0x63 = none ∧ { assigned with symSel := 0x61 }.codeAt 0x61 = some [true] ∧
    [true].length ≤ 255 := by decide +kernel

theorem witness_NodeWindowShowsTheEntry :
    { assigned with nodeSel := 511 }.nodeSel = 511 ∧ arenaAt assigned.node 0 = .leaf 3 0x61 ∧
    arenaAt assigned.node 2 = .internal 4 1 0 := by decide +kernel

/-- The last register, and the first number that names none. -/
theorem witness_ReadWhileBusyChangesNothing :
    waiting.running = some ⟨.assigned, .encoding [true, true, false], []⟩ ∧ 14 ≠ 1 ∧ 14 < 15 ∧
    { waiting with hostMoves := [.read 14] }.hostMoves = .read 14 :: [] ∧
    { waiting with hostMoves := [.read 15] }.hostMoves = .read 15 :: [] := ⟨rfl, by decide, by decide, rfl, rfl⟩

/-- The largest value of each selector, and a register the host cannot write. -/
theorem witness_HostWritesReachOnlyTheSelectors :
    { assigned with hostMoves := [.write 8 255] }.hostMoves = .write 8 255 :: [] ∧ 255 < 256 ∧
    { assigned with hostMoves := [.write 12 511] }.hostMoves = .write 12 511 :: [] ∧ 511 < 512 ∧
    { assigned with hostMoves := [.write 4 7] }.hostMoves = .write 4 7 :: [] ∧ 4 ≠ 8 ∧ 4 ≠ 12 := by decide

theorem witness_BitsAndBytesAreInverse : (zeros 8).length = 8 ∧ 7 < 8 := by decide

end Sys2Proof.Machine.Tests
end

section
/-! PROOFS. Bits and bytes (spec 00_scope.md R9): what each bit of `bits_of` and `byte_of` is, and that the two are
inverse. `byte_of` is a fold, so its bits come from the fold over a sequence of any length. -/

namespace Sys2Proof.Machine

@[simp] theorem length_bitsOf (b : Byte) : (bitsOf b).length = 8 := rfl

theorem getElem_bitsOf (b : Byte) (i : Nat) (h : i < (bitsOf b).length) : (bitsOf b)[i] = b.getLsbD (7 - i) := by
  rw [length_bitsOf] at h
  interval_cases i <;> rfl

/-- Read with the most significant bit first, a sequence is the number whose bits are the sequence reversed. -/
theorem testBit_foldl_bits (bs : Bits) (j : Nat) :
    (bs.foldl (fun n (x : Bool) => 2 * n + x.toNat) 0).testBit j = bs.reverse.getD j false := by
  induction bs using List.reverseRecOn generalizing j with
  | nil => simp
  | append_singleton bs x ih =>
    rw [List.foldl_append, List.foldl_cons, List.foldl_nil, ← Nat.bit_val, List.reverse_concat]
    cases j with
    | zero => rw [Nat.testBit_bit_zero, List.getD_cons_zero]
    | succ j => rw [Nat.testBit_bit_succ, ih, List.getD_cons_succ]

theorem getLsbD_byteOf (bs : Bits) {j : Nat} (h : j < 8) : (byteOf bs).getLsbD j = bs.reverse.getD j false := by
  rw [byteOf, BitVec.getLsbD_ofNat, testBit_foldl_bits, decide_eq_true h, Bool.true_and]

/-- R9: the first bit of an 8-bit sequence is the most significant bit of its byte. -/
theorem getLsbD_byteOf_eq_getElem {bs : Bits} (hbs : bs.length = 8) {i : Nat} (h : i < bs.length) :
    (byteOf bs).getLsbD (7 - i) = bs[i] := by
  have hr : 7 - i < bs.reverse.length := by rw [List.length_reverse]; omega
  have hi : bs.length - 1 - (7 - i) = i := by omega
  rw [getLsbD_byteOf bs (by omega), List.getD_eq_getElem _ _ hr, List.getElem_reverse]
  simp only [hi]

@[simp] theorem bitsOf_byteOf {bs : Bits} (hbs : bs.length = 8) : bitsOf (byteOf bs) = bs :=
  List.ext_getElem (by rw [length_bitsOf, hbs]) fun i hi h => by
    rw [getElem_bitsOf _ i hi, getLsbD_byteOf_eq_getElem hbs h]

/-- No two bytes have the same bits. -/
theorem bitsOf_injective : Function.Injective bitsOf := fun a b h => by
  refine BitVec.eq_of_getLsbD_eq fun j hj => ?_
  have hlt (x : Byte) : 7 - j < (bitsOf x).length := by rw [length_bitsOf]; omega
  have hbit : (bitsOf a)[7 - j]'(hlt a) = (bitsOf b)[7 - j]'(hlt b) := by simp only [h]
  rwa [getElem_bitsOf, getElem_bitsOf, Nat.sub_sub_self (by omega)] at hbit

@[simp] theorem byteOf_bitsOf (b : Byte) : byteOf (bitsOf b) = b :=
  bitsOf_injective (bitsOf_byteOf (length_bitsOf b))

/-- Settles O60: a byte is determined by its eight bits, and `byteOf` gives each of them back where `bitsOf` reads it. -/
theorem bitsAndBytesAreInverse : Obligations.BitsAndBytesAreInverse := by
  refine ⟨byteOf_bitsOf, fun bs hbs => bitsOf_byteOf hbs, fun b i h => ?_⟩
  rw [List.getD_eq_getElem _ _ (by rwa [length_bitsOf]), getElem_bitsOf]

end Sys2Proof.Machine
end

section
/-! PROOFS. What each operation above the streaming engine can do, said once: taking a byte, going on with a running
command, a command, a word written to `CMD`, a move of the host. With them what no command touches (spec 10_state.md R30)
and the stage `STATUS` shows (R351). -/

namespace Sys2Proof.Machine

/-! ### Inversion lemmas -/

/-- Taking a byte leaves the state, clears the session (R144) or counts the byte (R143). -/
theorem takeByte_state {b : Byte} {s : State} {ph : Phase} {tk : Taken} (h : takeByte b s ph = .ok tk) :
    tk.state = s ∨ tk.state = sessionClear s ∨ tk.state = countByte b s := by
  cases ph with
  | counting =>
    cases h
    unfold scanByte
    split
    · exact .inr (.inl rfl)
    · exact .inr (.inr rfl)
  | encoding bitbuf =>
    simp only [takeByte, encodeByte] at h
    split at h <;> cases h <;> exact .inl rfl
  | decoding c la =>
    simp only [takeByte, decodeByte] at h
    split at h
    · cases h
      exact .inl rfl
    · split at h <;> cases h <;> exact .inl rfl
  | draining e | finishing e =>
    cases h
    exact .inl rfl

/-- All going on with a running command can do: nothing at rest; with `End` taken, complete or wait for the host to take
the last OUT items; otherwise run on over the IN port. -/
theorem resume_cases {s t : State} (h : resume s = .next t) :
    (s.running = none ∧ t = s) ∨
    ∃ r, s.running = some r ∧
      ((∃ e, r.phase = .finishing e ∧
        (((putOut [] r s).1.pend = [] ∧ t = finish e (putOut [] r s).2) ∨
         ((putOut [] r s).1.pend ≠ [] ∧ t = { (putOut [] r s).2 with running := some (putOut [] r s).1 }))) ∨
       ((∀ e, r.phase ≠ .finishing e) ∧
        feed (putOut [] r s).2.inStream.ended (putOut [] r s).2.inStream.bytes (putOut [] r s).1 (putOut [] r s).2
          = .next t)) := by
  unfold resume at h
  split at h
  · cases h
    exact .inl ⟨‹_›, rfl⟩
  · rename_i r hr
    refine .inr ⟨r, hr, ?_⟩
    dsimp only at h
    split at h
    · rename_i e he
      rw [(putOut_phase [] r s).1] at he
      refine .inl ⟨e, he, ?_⟩
      split at h <;> rename_i hp <;> cases h
      · exact .inl ⟨by simpa using hp, rfl⟩
      · exact .inr ⟨by simpa using hp, rfl⟩
    · rename_i hne
      exact .inr ⟨fun e he => hne e ((putOut_phase [] r s).1.trans he), h⟩

/-- The effect of a command that is accepted at state `s` and answers `t` (R122). -/
def Instr.Effect (i : Instr) (s t : State) : Prop :=
  match i with
  | .clear => t = (sessionClear s).complete .ok 0
  | .fscan => start s.stage .counting (sessionClear s) = .next t
  | .tbuild =>
    t = State.complete .ok 0 { s with
      node := (buildTree s.node s.freq).node, nsym := (buildTree s.node s.freq).nsym,
      root := (buildTree s.node s.freq).root, stage := .built }
  | .cassign =>
    ∃ codes, assignCodes s.tree s.code = some codes ∧
      t = State.complete .ok 0 { s with code := codes, stage := .assigned }
  | .encode => start s.stage (.encoding []) s = .next t
  | .decode =>
    (s.nsym = 0 ∧ start s.stage (.draining .decoded) s = .next t) ∨
    (s.nsym ≠ 0 ∧ start s.stage (.decoding s.root none) s = .next t)

/-- All a command can do: be rejected (R302), or have its effect. -/
theorem exec_cases {i : Instr} {s t : State} (h : exec i s = .next t) :
    (Instr.legalAt i s.stage = false ∧ t = s.complete .seq (encodeWord i)) ∨
    (Instr.legalAt i s.stage = true ∧ Instr.Effect i s t) := by
  cases i with
  | clear =>
    rw [exec, execClear] at h
    exact (ifLegal_cases h).symm.imp_right (And.imp_right fun ht => (Host.Outcome.next.inj ht).symm)
  | fscan =>
    rw [exec, execFscan] at h
    exact (ifLegal_cases h).symm
  | tbuild =>
    rw [exec, execTbuild] at h
    exact (ifLegal_cases h).symm.imp_right (And.imp_right fun ht => (Host.Outcome.next.inj ht).symm)
  | cassign =>
    rw [exec, execCassign] at h
    refine (ifLegal_cases h).symm.imp_right (And.imp_right fun ht => ?_)
    split at ht
    · cases ht
    · exact ⟨_, ‹_›, (Host.Outcome.next.inj ht).symm⟩
  | encode =>
    rw [exec, execEncode] at h
    exact (ifLegal_cases h).symm
  | decode =>
    rw [exec, execDecode] at h
    refine (ifLegal_cases h).symm.imp_right (And.imp_right fun ht => ?_)
    split at ht
    · exact .inl ⟨‹_›, ht⟩
    · exact .inr ⟨‹_›, ht⟩

/-- A word written to `CMD` at rest is rejected (R301) or issues the command it decodes to (R120). -/
theorem dispatch_cases {w : Byte} {operand : Option (List Byte)} {s t : State} (h : dispatch w operand s = .next t) :
    t = s.complete .illegalCmd w ∨ ∃ i, decodeWord w = .ok i ∧ exec i (handOver i operand s) = .next t := by
  simp only [dispatch, decodeBytes] at h
  cases hd : decodeWord w with
  | error e =>
    rw [hd] at h
    exact .inl (Host.Outcome.next.inj h).symm
  | ok i =>
    rw [hd] at h
    exact .inr ⟨i, rfl, h⟩

/-- All a move of the host can do: issue a word at rest, change nothing but the selectors and what was read, go on with
the running command over a changed IN port or room, or reset the block. -/
theorem hostMove_cases {m : HostMove} {s t : State} (h : hostMove m s = .next t) :
    (∃ w operand, s.running = none ∧ dispatch w operand s = .next t) ∨
    t = { s with symSel := t.symSel, nodeSel := t.nodeSel, hostRead := t.hostRead, freeReads := t.freeReads } ∨
    (∃ inS room, resume { s with inStream := inS, outRoom := room } = .next t) ∨
    t = resetBlock s := by
  have written {w : Byte} {operand : Option (List Byte)} (h : writeCmd w operand s = .next t) :
      (s.running = none ∧ dispatch w operand s = .next t) ∨ t = s := by
    unfold writeCmd State.busy at h
    split at h
    · exact .inr (Host.Outcome.next.inj h).symm
    · exact .inl ⟨by simpa using ‹¬s.running.isSome = true›, h⟩
  have same (h : t = s) :
      t = { s with symSel := t.symSel, nodeSel := t.nodeSel, hostRead := t.hostRead, freeReads := t.freeReads } := by
    rw [h]
  cases m with
  | command w operand => exact (written h).imp (fun h => ⟨w, operand, h⟩) fun h => .inl (same h)
  | write n v =>
    simp only [hostMove] at h
    split at h
    · exact (written h).imp (fun h => ⟨_, _, h⟩) fun h => .inl (same h)
    · cases h
      refine .inr (.inl ?_)
      unfold writeSelector
      split <;> rfl
  | read n =>
    cases h
    refine .inr (.inl ?_)
    unfold readReg
    split <;> rfl
  | supply bytes last =>
    simp only [hostMove] at h
    rcases supplyIn_cases bytes last s with ⟨-, -, he⟩ | ⟨-, ⟨-, he⟩ | ⟨r, -, ⟨-, he⟩ | ⟨-, he⟩⟩⟩ <;> rw [he] at h
    · exact .inr (.inl (same (Host.Outcome.next.inj h).symm))
    · cases h
    · cases h
    · exact .inr (.inr (.inl ⟨_, s.outRoom, h⟩))
  | takeOut room => exact .inr (.inr (.inl ⟨s.inStream, room, h⟩))
  | reset => exact .inr (.inr (.inr (Host.Outcome.next.inj h).symm))

/-! ### What no command touches -/

/-- The host selectors, the counter width, and the model's fields for what the host does next and has read (R30). -/
def State.hostSide (s : State) : Byte × BitVec 9 × Nat × List HostMove × Option Nat × Nat :=
  (s.symSel, s.nodeSel, s.cntW, s.hostMoves, s.hostRead, s.freeReads)

theorem cntW_of_hostSide {s t : State} (h : t.hostSide = s.hostSide) : t.cntW = s.cntW :=
  congrArg (fun x => x.2.2.1) h

theorem putOut_hostSide (items : List Item) (r : Running) (s : State) :
    (putOut items r s).2.hostSide = s.hostSide := by
  rw [putOut_frame]
  rfl

theorem finish_hostSide (e : Ending) (s : State) : (finish e s).hostSide = s.hostSide := by
  rw [finish_frame]
  rfl

theorem takeByte_hostSide {b : Byte} {s : State} {ph : Phase} {tk : Taken} (h : takeByte b s ph = .ok tk) :
    tk.state.hostSide = s.hostSide := by
  rcases takeByte_state h with h | h | h <;> rw [h] <;> rfl

theorem feed_hostSide {ended : Bool} {bs : List Byte} {r : Running} {s t : State}
    (h : feed ended bs r s = .next t) : t.hostSide = s.hostSide := by
  rcases feed_cases (fun _ u => u.hostSide = s.hostSide)
      (fun b r u tk hu _ htk => (putOut_hostSide _ _ _).trans ((takeByte_hostSide htk).trans hu)) rfl h with
    ⟨bs', r', u, hu, rfl, -⟩ | ⟨r', u, e, out, hu, -, -, -, hc⟩
  · exact hu
  · rw [← hu, ← putOut_hostSide out r' u]
    rcases conclude_cases hc with ⟨-, rfl⟩ | ⟨-, rfl⟩
    · exact finish_hostSide e _
    · rfl

theorem exec_hostSide {i : Instr} {s t : State} (h : exec i s = .next t) : t.hostSide = s.hostSide := by
  rcases exec_cases h with ⟨-, rfl⟩ | ⟨-, h⟩
  · rfl
  cases i with
  | clear | tbuild =>
    obtain rfl : t = _ := h
    rfl
  | cassign =>
    obtain ⟨codes, -, rfl⟩ := h
    rfl
  | fscan => exact feed_hostSide (s := sessionClear s) h
  | encode => exact feed_hostSide h
  | decode => exact h.elim (fun h => feed_hostSide h.2) fun h => feed_hostSide h.2

/-- Settles O9: neither an item taken or put nor a command's ending touches the host's side. -/
theorem commandsLeaveTheHostSideAlone : Obligations.CommandsLeaveTheHostSideAlone := by
  intro i s t h
  simpa [State.hostSide] using exec_hostSide h

/-! ### The stage of acceptance -/

/-- A command left running holds the stage it found as its stage of acceptance (R351). -/
theorem exec_stage0 {i : Instr} {s t : State} {r : Running} (h : exec i s = .next t) (hr : t.running = some r) :
    r.stage0 = s.stage := by
  rcases exec_cases h with ⟨-, rfl⟩ | ⟨-, h⟩
  · simp at hr
  cases i with
  | clear | tbuild =>
    obtain rfl : t = _ := h
    simp at hr
  | cassign =>
    obtain ⟨codes, -, rfl⟩ := h
    simp at hr
  | fscan | encode => exact feed_stage0 h hr
  | decode => exact h.elim (fun h => feed_stage0 h.2 hr) fun h => feed_stage0 h.2 hr

theorem resume_stage0 {s t : State} {r r' : Running} (hs : s.running = some r) (h : resume s = .next t)
    (ht : t.running = some r') : r'.stage0 = r.stage0 := by
  rcases resume_cases h with ⟨hn, -⟩ | ⟨q, hq, hcase⟩
  · simp [hs] at hn
  obtain rfl : r = q := Option.some.inj (hs.symm.trans hq)
  rcases hcase with ⟨e, -, ⟨-, rfl⟩ | ⟨-, rfl⟩⟩ | ⟨-, hf⟩
  · simp at ht
  · exact Option.some.inj ht ▸ (putOut_phase [] r s).2
  · exact (feed_stage0 hf ht).trans (putOut_phase [] r s).2

/-- A move that leaves a command running keeps its stage of acceptance (R351). -/
theorem hostMove_stage0 {m : HostMove} {s t : State} {r r' : Running} (hs : s.running = some r)
    (h : hostMove m s = .next t) (ht : t.running = some r') : r'.stage0 = r.stage0 := by
  rcases hostMove_cases h with ⟨w, operand, hn, -⟩ | hsel | ⟨inS, room, hres⟩ | rfl
  · simp [hs] at hn
  · rw [hsel] at ht
    rw [Option.some.inj (ht.symm.trans hs)]
  · exact resume_stage0 (s := { s with inStream := inS, outRoom := room }) hs hres ht
  · simp at ht

/-! ### `STATUS` -/

/-- The high part of a concatenation counts in multiples of the low part's range. -/
theorem toNat_append_eq_add {m n : Nat} (x : BitVec m) (y : BitVec n) :
    (x ++ y).toNat = 2 ^ n * x.toNat + y.toNat := by
  rw [BitVec.toNat_append, ← Nat.shiftLeft_add_eq_or_of_lt y.isLt, Nat.shiftLeft_eq, Nat.mul_comm]

/-- `STATUS` is `busy` in bit 0 and the shown stage in bits 3:1 (R33). -/
theorem status_toNat (s : State) :
    s.status.toNat = (if s.running = none then 0 else 1) + 2 *
      (match s.shownStage with | .cleared => 0 | .counted => 1 | .built => 2 | .assigned => 3 | .encoded => 4) := by
  rw [State.status, toNat_append_eq_add, toNat_append_eq_add, Nat.add_comm]
  congr 1
  · rw [State.busy]
    cases s.running <;> rfl
  · cases s.shownStage <;> rfl

/-- `STATUS` reads its value whether or not a command runs (R351). -/
theorem readReg_status (s : State) : readReg 1 s = { s with hostRead := some s.status.toNat } :=
  if_neg (by simp)

/-- Settles O54: `STATUS` reads the same whether or not a command runs, and the stage of acceptance is set when the
engine starts and never written again. -/
theorem statusReadsBusyAndStage : Obligations.StatusReadsBusyAndStage := by
  refine ⟨fun s rest hm => ?_, fun i s t r => exec_stage0, fun s t r r' hs h ht => ?_⟩
  · rw [step_of_move hm, hostMove, readReg_status, status_toNat]
    rfl
  · cases hm : s.hostMoves with
    | nil =>
      rw [step_of_no_move hm] at h
      cases h
      rw [Option.some.inj (ht.symm.trans hs)]
    | cons m rest =>
      rw [step_of_move hm] at h
      exact hostMove_stage0 (s := { s with hostMoves := rest }) hs h ht

end Sys2Proof.Machine
end

section
/-! PROOFS. The host's side of the registers (spec 10_state.md R32 to R36, R41): reads, the two windows, writes of the
selectors and the word written to `CMD`. -/

namespace Sys2Proof.Machine

/-! ### The word written to `CMD` -/

/-- At rest a word written to `CMD` issues the command it decodes to (R36, R120). -/
theorem step_command_of_idle {s : State} {w : Byte} {i : Instr} {operand : Option (List Byte)}
    {rest : List HostMove} (hr : s.running = none) (hw : decodeWord w = .ok i)
    (hm : s.hostMoves = .command w operand :: rest) :
    step s = exec i (handOver i operand { s with hostMoves := rest }) := by
  simp [step_of_move hm, hostMove, writeCmd, State.busy, hr, dispatch, decodeBytes, hw]

/-- Settles O3: at rest a word goes through the decoder to `exec`, with its stream when it is accepted and takes one; a
plain write of register 0 is the same write without a stream. -/
theorem stepRunsTheDecodedCommand : Obligations.StepRunsTheDecodedCommand := by
  refine fun s w i operand rest hr hw => ⟨fun hm => ⟨fun hi hl => ?_, fun hno => ?_⟩, fun v hm hv => ?_⟩
  · rw [step_command_of_idle hr hw hm, handOver_of_accepted operand hi (s := { s with hostMoves := rest }) hl]
    cases operand <;> rfl
  · rw [step_command_of_idle hr hw hm]
    rcases hno with hi | hl
    · rw [handOver_of_no_stream operand _ hi]
    · rw [handOver_of_illegal operand (s := { s with hostMoves := rest }) hl]
  · rw [step_of_move hm, step_of_move (m := .command w none) rfl, ← hv]
    rfl

/-! ### Reset -/

/-- Settles O11: R41's values are those of `State.reset`, where nothing is listed in any table. -/
theorem resetStateHoldsTheResetValues : Obligations.ResetStateHoldsTheResetValues :=
  ⟨rfl, rfl, rfl, rfl, rfl, rfl, rfl, fun _ => ⟨rfl, rfl⟩, arenaAt_nil, rfl, rfl, rfl⟩

/-! ### Reads and writes -/

theorem readReg_of_idle {s : State} (n : Nat) (h : s.running = none) :
    readReg n s = { s with hostRead := some (regValue s n) } := by
  simp [readReg, State.busy, h]

theorem regValue_of_no_register (s : State) {n : Nat} (h : 15 ≤ n) : regValue s n = 0 := by
  obtain ⟨k, rfl⟩ := Nat.exists_eq_add_of_le' h
  rfl

/-- Settles O55: at rest a read is of `regValue`, which names each register. -/
theorem idleRegisterReads : Obligations.IdleRegisterReads := by
  refine fun s n rest hr hm => ⟨?_, rfl, rfl, rfl, rfl, rfl, rfl, rfl, rfl, regValue_of_no_register s, ?_⟩
  · rw [step_of_move hm, hostMove, readReg_of_idle n (s := { s with hostMoves := rest }) hr]
    rfl
  · show s.result.toBits.toNat = _
    cases s.result <;> rfl

theorem writeSelector_of_other {n : Nat} (v : Nat) (s : State) (h8 : n ≠ 8) (h12 : n ≠ 12) :
    writeSelector n v s = s := by
  unfold writeSelector
  split
  · exact absurd rfl h8
  · exact absurd rfl h12
  · rfl

theorem hostMove_write {n : Nat} (v : Nat) (s : State) (h : n ≠ 0) :
    hostMove (.write n v) s = .next (writeSelector n v s) := by
  simp [hostMove, h]

/-- Settles O59: a write other than of `CMD` is `writeSelector`, which has a case for each selector and no other. -/
theorem hostWritesReachOnlyTheSelectors : Obligations.HostWritesReachOnlyTheSelectors := by
  intro s n v rest hn hm
  rw [step_of_move hm, hostMove_write v _ hn]
  refine ⟨fun h _ => ?_, fun h _ => ?_, fun h8 h12 => by rw [writeSelector_of_other v _ h8 h12]⟩ <;> rw [h] <;> rfl

/-! ### The windows -/

/-- Read with the first bit lowest, a code is the number whose bits are its bits (R34). -/
theorem testBit_foldr_bits (c : Bits) (i : Nat) :
    (c.foldr (fun (x : Bool) n => x.toNat + 2 * n) 0).testBit i = c.getD i false := by
  induction c generalizing i with
  | nil => simp
  | cons x c ih =>
    rw [List.foldr_cons, Nat.add_comm, ← Nat.bit_val]
    cases i with
    | zero => rw [Nat.testBit_bit_zero, List.getD_cons_zero]
    | succ i => rw [Nat.testBit_bit_succ, ih, List.getD_cons_succ]

theorem codeLenReg_toNat {c : Bits} (h : c.length ≤ 255) : (codeLenReg (some c)).toNat = 256 + c.length := by
  rw [codeLenReg, toNat_append_eq_add, BitVec.toNat_ofNat, Nat.mod_eq_of_lt (by omega : c.length < 2 ^ 8)]
  rfl

/-- `SYM_CODE` has room for every bit of a code of at most 255 bits (R34). -/
theorem codeBitsReg_testBit {c : Bits} (h : c.length ≤ 255) (i : Nat) :
    (codeBitsReg (some c)).toNat.testBit i = c.getD i false := by
  rw [codeBitsReg, BitVec.toNat_ofNat, Nat.testBit_mod_two_pow, testBit_foldr_bits]
  by_cases hi : i < 255
  · simp [hi]
  · rw [List.getD_eq_default _ _ (by omega), Bool.and_false]

/-- Settles O56: `SYM_CLEN` is a set bit above the length, and the bits of `SYM_CODE` are those of the code. -/
theorem symbolWindowShowsTheEntry : Obligations.SymbolWindowShowsTheEntry := by
  refine fun s => ⟨rfl, fun hn => ?_, fun c hc hl => ?_⟩
  · simp only [regValue, hn]
    exact ⟨rfl, rfl⟩
  · simp only [regValue, hc]
    exact ⟨codeLenReg_toNat hl, BitVec.isLt _, codeBitsReg_testBit hl⟩

theorem info_leaf_toNat (f : Nat) (v : Byte) : (Node.leaf f v).info.toNat = 2 * v.toNat := by
  simp only [Node.info, toNat_append_eq_add, BitVec.ofNat_eq_ofNat, BitVec.toNat_ofNat]
  omega

theorem info_internal_toNat (f : Nat) (l r : NodeIx) :
    (Node.internal f l r).info.toNat = 1 + 2 ^ 9 * l.toNat + 2 ^ 18 * r.toNat := by
  simp only [Node.info, toNat_append_eq_add, BitVec.ofNat_eq_ofNat, BitVec.toNat_ofNat]
  omega

/-- Index 511 names no entry and reads as the cleared one (R35). -/
theorem arenaAt_last (a : Table Node) : arenaAt a 511 = .unused := rfl

/-- Settles O57: the window is the packed form of the entry `arenaAt` gives, the cleared one at 511. -/
theorem nodeWindowShowsTheEntry : Obligations.NodeWindowShowsTheEntry := by
  refine fun s => ⟨fun h => ?_, fun f v h => ?_, fun f l r h => ?_⟩
  · simp only [regValue, h, arenaAt_last]
    exact ⟨rfl, rfl⟩
  · simp only [regValue, h]
    exact ⟨rfl, info_leaf_toNat f v⟩
  · simp only [regValue, h]
    exact ⟨rfl, info_internal_toNat f l r⟩

end Sys2Proof.Machine
end

section
/-! PROOFS. The Tree Builder (spec 42_tree_builder.md R161 to R171). While the queue is merged, every index in it is the
root of a tree value that the arena stands for; the symbols of those trees together are the byte values of non-zero
frequency. `Forest` says so of a builder, every `Builder.add` keeps it, and when one index is left it is the tree. -/

namespace Sys2Proof.Machine

/-! ### Tree values and the arena -/

/-- The number of edges on the longest path down. -/
def TreeValue.height : TreeValue → Nat
  | .leaf _ _ => 0
  | .internal _ l r => max l.height r.height + 1

/-- The arena from node `k` on is this tree value (R43). -/
def TreeValue.StandsAt (node : Table Node) : TreeValue → NodeIx → Prop
  | .leaf f v, k => arenaAt node k = .leaf f v
  | .internal f a b, k => ∃ l r, arenaAt node k = .internal f l r ∧ a.StandsAt node l ∧ b.StandsAt node r

/-- Every internal node's children have smaller indices than it (R171). -/
def ChildrenBelow (node : Table Node) : Prop :=
  ∀ (m l r : NodeIx) (f : Nat), arenaAt node m = .internal f l r → l.toNat < m.toNat ∧ r.toNat < m.toNat

theorem TreeValue.height_lt_length_symbols (t : TreeValue) : t.height < t.symbols.length := by
  induction t with
  | leaf f v => simp [height, symbols]
  | internal f a b iha ihb =>
    simp only [height, symbols, List.length_append]
    omega

theorem TreeValue.Sums.freq_eq {freq : Table Nat} {t : TreeValue} (h : t.Sums freq) :
    t.freq = (t.symbols.map fun v => Table.read 0 freq v.toNat).sum := by
  induction t with
  | leaf f v => simpa [TreeValue.freq, symbols, Sums] using h
  | internal f a b iha ihb =>
    obtain ⟨hf, ha, hb⟩ := h
    rw [TreeValue.freq, hf, iha ha, ihb hb, symbols, List.map_append, List.sum_append]

theorem TreeValue.StandsAt.treeAt_eq {node : Table Node} {t : TreeValue} {k : NodeIx} {d : Nat}
    (h : t.StandsAt node k) (hd : t.height < d) : treeAt node d k = some t := by
  induction t generalizing k d with
  | leaf f v =>
    obtain _ | d := d
    · omega
    · simp only [treeAt, show arenaAt node k = .leaf f v from h]
  | internal f a b iha ihb =>
    obtain _ | d := d
    · omega
    · obtain ⟨l, r, hk, ha, hb⟩ := h
      rw [height] at hd
      simp only [treeAt, hk, iha ha (show a.height < d by omega), ihb hb (show b.height < d by omega)]

theorem TreeValue.StandsAt.freqOf_eq {node : Table Node} {t : TreeValue} {k : NodeIx} (h : t.StandsAt node k) :
    (arenaAt node k).freqOf = t.freq := by
  cases t with
  | leaf f v => rw [show arenaAt node k = .leaf f v from h]; rfl
  | internal f a b =>
    obtain ⟨l, r, hk, -⟩ := h
    rw [hk]
    rfl

/-- A tree of two leaves or more has an internal node at its root. -/
theorem TreeValue.StandsAt.isInternal {node : Table Node} {t : TreeValue} {k : NodeIx} (h : t.StandsAt node k)
    (ht : t.symbols.length ≠ 1) : IsInternal node k := by
  cases t with
  | leaf f v => exact absurd rfl ht
  | internal f a b =>
    obtain ⟨l, r, hk, -⟩ := h
    exact ⟨f, l, r, hk⟩

/-- A tree below index `m` is not touched by a write at `m`. -/
theorem TreeValue.StandsAt.arenaSet {node : Table Node} {t : TreeValue} {k m : NodeIx} (n : Node)
    (hc : ChildrenBelow node) (h : t.StandsAt node k) (hk : k.toNat < m.toNat) :
    t.StandsAt (arenaSet node m n) k := by
  have hother {j : NodeIx} (hj : j.toNat < m.toNat) : arenaAt (Machine.arenaSet node m n) j = arenaAt node j :=
    arenaAt_arenaSet_other node n fun he => absurd (congrArg BitVec.toNat he) (Nat.ne_of_lt hj)
  induction t generalizing k with
  | leaf f v => exact (hother hk).trans h
  | internal f a b iha ihb =>
    obtain ⟨l, r, hn, ha, hb⟩ := h
    obtain ⟨hl, hr⟩ := hc k l r f hn
    exact ⟨l, r, (hother hk).trans hn, iha ha (by omega), ihb hb (by omega)⟩

/-! ### The byte values of non-zero frequency -/

theorem mem_allBytes (v : Byte) : v ∈ allBytes :=
  List.mem_map.2 ⟨v.toNat, List.mem_range.2 v.isLt, by simp⟩

theorem nodup_allBytes : allBytes.Nodup :=
  List.Nodup.map_on (fun x hx y hy h => by
    have := congrArg BitVec.toNat h
    simp only [List.mem_range, Config.symMax] at hx hy
    simp only [BitVec.toNat_ofNat] at this
    omega) List.nodup_range

@[simp] theorem mem_present (freq : Table Nat) (v : Byte) : v ∈ present freq ↔ 0 < Table.read 0 freq v.toNat := by
  simp [present, mem_allBytes]

theorem nodup_present (freq : Table Nat) : (present freq).Nodup := nodup_allBytes.filter _

theorem length_present_le (freq : Table Nat) : (present freq).length ≤ 256 :=
  (List.length_filter_le _ _).trans_eq (by simp [allBytes, Config.symMax])

/-! ### The builder's loops -/

/-- The leaf of a byte value (R162). -/
def leafFor (freq : Table Nat) (v : Byte) : Node := .leaf (Table.read 0 freq v.toNat) v

/-- The seeding loop adds the leaves of the byte values of non-zero frequency (R162). -/
theorem seedLeaves_eq (arena : Table Node) (freq : Table Nat) :
    seedLeaves arena freq = (present freq).foldl (fun b v => b.add (leafFor freq v)) ⟨arena, [], 0⟩ := by
  simp only [present, List.foldl_filter, decide_eq_true_eq]
  rfl

@[simp] theorem Builder.add_queue (n : Node) (b : Builder) : (b.add n).queue = b.queue ++ [b.next] := rfl
@[simp] theorem Builder.add_node (n : Node) (b : Builder) : (b.add n).node = arenaSet b.node b.next n := rfl
@[simp] theorem Builder.add_next (n : Node) (b : Builder) : (b.add n).next = b.next + 1 := rfl

theorem seedLeaves_queue_length (arena : Table Node) (freq : Table Nat) :
    (seedLeaves arena freq).queue.length = (present freq).length := by
  have fold (vs : List Byte) (b : Builder) :
      (vs.foldl (fun b v => b.add (leafFor freq v)) b).queue.length = b.queue.length + vs.length := by
    induction vs generalizing b with
    | nil => rfl
    | cons v vs ih => simp [ih, Nat.add_assoc, Nat.add_comm 1]
  rw [seedLeaves_eq, fold]
  simp

/-- `extract_min` splits the queue into the index it returns and the others (R164). -/
theorem extractMin_perm {arena : Table Node} {q : List NodeIx} (h : q ≠ []) :
    ∃ m q', extractMin arena q = some (m, q') ∧ q.Perm (m :: q') := by
  cases q with
  | nil => exact absurd rfl h
  | cons x rest => exact ⟨_, _, rfl, List.perm_cons_erase (minKey_mem arena x rest)⟩

/-- One pass of the merge loop takes two indices from the queue and adds an internal node of them (R165). -/
theorem mergeOnce_eq_add {b : Builder} (h : 2 ≤ b.queue.length) :
    ∃ x y q, b.queue.Perm (x :: y :: q) ∧
      mergeOnce b = Builder.add (.internal ((arenaAt b.node x).freqOf + (arenaAt b.node y).freqOf) x y)
        { b with queue := q } := by
  have hq : b.queue ≠ [] := List.ne_nil_of_length_pos (by omega)
  obtain ⟨x, q₁, hx, hp₁⟩ := extractMin_perm (arena := b.node) hq
  have hl := hp₁.length_eq
  rw [List.length_cons] at hl
  have hq₁ : q₁ ≠ [] := List.ne_nil_of_length_pos (by omega)
  obtain ⟨y, q₂, hy, hp₂⟩ := extractMin_perm (arena := b.node) hq₁
  exact ⟨x, y, q₂, hp₁.trans (hp₂.cons x), by simp only [mergeOnce, hx, hy]⟩

theorem mergeOnce_queue_length {b : Builder} (h : 2 ≤ b.queue.length) :
    (mergeOnce b).queue.length + 1 = b.queue.length := by
  obtain ⟨x, y, q, hp, he⟩ := mergeOnce_eq_add h
  rw [he, hp.length_eq]
  simp

/-- The induction over the merge loop: what every pass keeps holds when the loop ends. -/
theorem mergeLoop_induction {P : Builder → Prop} (keep : ∀ b, P b → 2 ≤ b.queue.length → P (mergeOnce b))
    (k : Nat) {b : Builder} (h : P b) : P (mergeLoop k b) := by
  induction k generalizing b with
  | zero => exact h
  | succ k ih =>
    rw [mergeLoop]
    split
    · exact ih (keep b h ‹_›)
    · exact h

/-- The merge loop ends with at most one index in the queue (R167). -/
theorem mergeLoop_queue_length {k : Nat} {b : Builder} (h : b.queue.length ≤ k + 1) :
    (mergeLoop k b).queue.length = min 1 b.queue.length := by
  induction k generalizing b with
  | zero =>
    rw [mergeLoop]
    omega
  | succ k ih =>
    rw [mergeLoop]
    split
    · have := mergeOnce_queue_length ‹_›
      rw [ih (by omega)]
      omega
    · omega

/-! ### The forest a builder holds -/

/-- The sum of the counts of some byte values. -/
def countSum (freq : Table Nat) (vs : List Byte) : Nat := (vs.map fun v => Table.read 0 freq v.toNat).sum

/-- The builder's queue holds the roots of tree values (`g` names them) over the byte values `vs`. The sizes give R171
(c): `next` plus the length of the queue is twice the number of leaves. -/
structure Forest (freq : Table Nat) (vs : List Byte) (g : NodeIx → TreeValue) (b : Builder) : Prop where
  canonical : Table.Canonical Node.unused Config.nodeMax b.node
  size : b.next.toNat + b.queue.length = 2 * vs.length
  below : ∀ k ∈ b.queue, k.toNat < b.next.toNat
  children : ChildrenBelow b.node
  bounded : ∀ e ∈ b.node, e.2.freqOf ≤ countSum freq vs
  stands : ∀ k ∈ b.queue, (g k).StandsAt b.node k
  sums : ∀ k ∈ b.queue, (g k).Sums freq
  symbols : (b.queue.flatMap fun k => (g k).symbols).Perm vs

theorem Forest.empty (freq : Table Nat) (g : NodeIx → TreeValue) : Forest freq [] g ⟨[], [], 0⟩ where
  canonical := ⟨.nil, by simp⟩
  size := rfl
  below := by simp
  children := fun m l r f h => by simp [Node.unused] at h
  bounded := by simp
  stands := by simp
  sums := by simp
  symbols := .nil

theorem ChildrenBelow.arenaSet {node : Table Node} {k : NodeIx} {n : Node} (h : ChildrenBelow node)
    (hset : arenaAt (arenaSet node k n) k = n)
    (hn : ∀ f l r, n = .internal f l r → l.toNat < k.toNat ∧ r.toNat < k.toNat) :
    ChildrenBelow (arenaSet node k n) := fun m l r f hm => by
  by_cases hmk : m = k
  · subst hmk
    exact hn f l r (hset.symm.trans hm)
  · rw [arenaAt_arenaSet_other node n hmk] at hm
    exact h m l r f hm

theorem mem_arenaSet {node : Table Node} {k : NodeIx} {n : Node} {e : Nat × Node} (h : e ∈ arenaSet node k n) :
    e ∈ node ∨ e.2 = n := by
  unfold arenaSet at h
  split at h
  · exact (Table.mem_write node h).imp_right fun he => by rw [he.1]
  · exact .inl h

/-- Adding a node keeps the forest, when the node stands for a tree over trees that are there or taken out. -/
theorem Forest.add {freq : Table Nat} {vs us : List Byte} {g : NodeIx → TreeValue} {b : Builder}
    (h : Forest freq vs g b) {q : List NodeIx} {n : Node} {t : TreeValue} (hq : q ⊆ b.queue)
    (hnext : b.next.toNat < Config.nodeMax) (hsize : b.next.toNat + q.length + 2 = 2 * us.length)
    (hn : ∀ f l r, n = .internal f l r → l.toNat < b.next.toNat ∧ r.toNat < b.next.toNat)
    (hvs : countSum freq vs ≤ countSum freq us) (hbound : n.freqOf ≤ countSum freq us)
    (hstands : arenaAt (arenaSet b.node b.next n) b.next = n → t.StandsAt (arenaSet b.node b.next n) b.next)
    (hsums : t.Sums freq) (hperm : (q.flatMap (fun k => (g k).symbols) ++ t.symbols).Perm us) :
    Forest freq us (Function.update g b.next t) (Builder.add n { b with queue := q }) := by
  have hset := arenaAt_arenaSet_same n h.canonical.1 hnext
  have hold {k : NodeIx} (hk : k ∈ q) : k ≠ b.next := fun he =>
    absurd (congrArg BitVec.toNat he) (Nat.ne_of_lt (h.below k (hq hk)))
  have hstep : (b.next + 1).toNat = b.next.toNat + 1 := by
    rw [Config.nodeMax] at hnext
    exact BitVec.toNat_add_of_lt (show b.next.toNat + 1 < 2 ^ 9 by omega)
  have each {P : NodeIx → TreeValue → Prop} (hpq : ∀ k ∈ q, P k (g k)) (hpt : P b.next t) :
      ∀ k ∈ q ++ [b.next], P k (Function.update g b.next t k) := fun k hk => by
    rcases List.mem_append.1 hk with hk | hk
    · rw [Function.update_of_ne (hold hk)]
      exact hpq k hk
    · rw [List.mem_singleton.1 hk, Function.update_self]
      exact hpt
  exact {
    canonical := arenaSet_canonical _ n h.canonical
    size := by
      simp only [Builder.add_next, Builder.add_queue, List.length_append, List.length_singleton, hstep]
      omega
    below := each (P := fun k _ => k.toNat < (b.next + 1).toNat)
      (fun k hk => by have := h.below k (hq hk); omega) (by omega)
    children := h.children.arenaSet hset hn
    bounded := fun e he => (mem_arenaSet he).elim (fun he => (h.bounded e he).trans hvs) fun he => he ▸ hbound
    stands := each (P := fun k t => t.StandsAt (arenaSet b.node b.next n) k)
      (fun k hk => (h.stands k (hq hk)).arenaSet n h.children (h.below k (hq hk))) (hstands hset)
    sums := each (P := fun _ t => t.Sums freq) (fun k hk => h.sums k (hq hk)) hsums
    symbols := by
      have hcongr : q.flatMap (fun k => (Function.update g b.next t k).symbols) = q.flatMap fun k => (g k).symbols :=
        List.flatMap_congr fun k hk => by rw [Function.update_of_ne (hold hk)]
      rw [Builder.add_queue, List.flatMap_append, hcongr]
      simpa using hperm }

@[simp] theorem countSum_append (freq : Table Nat) (vs us : List Byte) :
    countSum freq (vs ++ us) = countSum freq vs + countSum freq us := by
  simp [countSum]

theorem countSum_of_perm (freq : Table Nat) {vs us : List Byte} (h : vs.Perm us) :
    countSum freq vs = countSum freq us :=
  (h.map _).sum_eq

/-- Seeding one leaf keeps the forest (R162). -/
theorem Forest.addLeaf {freq : Table Nat} {vs : List Byte} {g : NodeIx → TreeValue} {b : Builder}
    (h : Forest freq vs g b) (hq : b.queue.length = vs.length) (hvs : vs.length < 256) (v : Byte) :
    ∃ g', Forest freq (vs ++ [v]) g' (b.add (leafFor freq v)) := by
  have hsize := h.size
  exact ⟨_, h.add (t := .leaf (Table.read 0 freq v.toNat) v) (fun _ hk => hk) (by rw [Config.nodeMax]; omega)
    (by simp only [List.length_append, List.length_singleton]; omega) (by simp [leafFor]) (by simp)
    (by simp [leafFor, Node.freqOf, countSum]) id rfl (h.symbols.append_right _)⟩

/-- The seeding loop ends with a forest of leaves (R162). -/
theorem seedLeaves_forest (freq : Table Nat) : ∃ g, Forest freq (present freq) g (seedLeaves [] freq) := by
  have fold (us : List Byte) : ∀ (vs : List Byte) (b : Builder) (g : NodeIx → TreeValue),
      Forest freq vs g b → b.queue.length = vs.length → vs.length + us.length ≤ 256 →
      ∃ g', Forest freq (vs ++ us) g' (us.foldl (fun b v => b.add (leafFor freq v)) b) := by
    induction us with
    | nil => exact fun vs b g h _ _ => ⟨g, by simpa using h⟩
    | cons v us ih =>
      intro vs b g h hq hl
      rw [List.length_cons] at hl
      obtain ⟨g', h'⟩ := h.addLeaf hq (by omega) v
      simpa using ih (vs ++ [v]) _ g' h' (by simp [hq]) (by simp; omega)
  rw [seedLeaves_eq]
  exact fold (present freq) [] _ _ (Forest.empty freq fun _ => .leaf 0 0) rfl (by simpa using length_present_le freq)

/-- A merge pass keeps the forest: the two trees taken out become one (R165). -/
theorem Forest.merge {freq : Table Nat} {vs : List Byte} {g : NodeIx → TreeValue} {b : Builder}
    (h : Forest freq vs g b) (hvs : vs.length ≤ 256) (hq : 2 ≤ b.queue.length) :
    ∃ g', Forest freq vs g' (mergeOnce b) := by
  obtain ⟨x, y, q, hp, he⟩ := mergeOnce_eq_add hq
  have hx : x ∈ b.queue := hp.mem_iff.2 (by simp)
  have hy : y ∈ b.queue := hp.mem_iff.2 (by simp)
  have hsub : q ⊆ b.queue := fun k hk => hp.mem_iff.2 (by simp [hk])
  have hsize := h.size
  have hlen := hp.length_eq
  simp only [List.length_cons] at hlen
  have hperm : ((g x).symbols ++ ((g y).symbols ++ q.flatMap fun k => (g k).symbols)).Perm vs := by
    simpa using (hp.flatMap_right _).symm.trans h.symbols
  have hsum := countSum_of_perm freq hperm
  have hfx : (arenaAt b.node x).freqOf = countSum freq (g x).symbols :=
    (h.stands x hx).freqOf_eq.trans (h.sums x hx).freq_eq
  have hfy : (arenaAt b.node y).freqOf = countSum freq (g y).symbols :=
    (h.stands y hy).freqOf_eq.trans (h.sums y hy).freq_eq
  simp only [countSum_append] at hsum
  rw [he]
  refine ⟨_, h.add (t := .internal ((arenaAt b.node x).freqOf + (arenaAt b.node y).freqOf) (g x) (g y)) hsub
    (by rw [Config.nodeMax]; omega) (by omega) ?_ le_rfl ?_ (fun hset => ⟨x, y, hset, ?_, ?_⟩)
    ⟨?_, h.sums x hx, h.sums y hy⟩ ?_⟩
  · rintro _ _ _ ⟨⟩
    exact ⟨h.below x hx, h.below y hy⟩
  · rw [Node.freqOf]
    omega
  · exact (h.stands x hx).arenaSet _ h.children (h.below x hx)
  · exact (h.stands y hy).arenaSet _ h.children (h.below y hy)
  · rw [(h.stands x hx).freqOf_eq, (h.stands y hy).freqOf_eq]
  · refine List.perm_append_comm.trans ?_
    simpa [TreeValue.symbols] using hperm

/-! ### The tree of a frequency table -/

/-- The builder when the merge loop ends (R167). -/
def builtForest (freq : Table Nat) : Builder :=
  mergeLoop (seedLeaves [] freq).queue.length (seedLeaves [] freq)

theorem buildTree_node (freq : Table Nat) : (buildTree [] freq).node = (builtForest freq).node := rfl

theorem buildTree_root (freq : Table Nat) : (buildTree [] freq).root = rootOf (builtForest freq).queue := rfl

theorem builtForest_forest (freq : Table Nat) : ∃ g, Forest freq (present freq) g (builtForest freq) :=
  mergeLoop_induction (P := fun b => ∃ g, Forest freq (present freq) g b)
    (fun _ ⟨_, h⟩ hq => h.merge (length_present_le freq) hq) _ (seedLeaves_forest freq)

theorem builtForest_queue_length (freq : Table Nat) :
    (builtForest freq).queue.length = min 1 (present freq).length := by
  rw [builtForest, mergeLoop_queue_length (by omega), seedLeaves_queue_length]

/-- `nsym` is the number of byte values of non-zero frequency (R162). -/
theorem buildTree_nsym (freq : Table Nat) : (buildTree [] freq).nsym.toNat = (present freq).length := by
  obtain ⟨g, h⟩ := seedLeaves_forest freq
  have hsize := h.size
  rw [seedLeaves_queue_length] at hsize
  show (seedLeaves [] freq).next.toNat = _
  omega

theorem buildTree_node_canonical (freq : Table Nat) :
    Table.Canonical Node.unused Config.nodeMax (buildTree [] freq).node :=
  (builtForest_forest freq).elim fun _ h => h.canonical

/-- No node's frequency exceeds the sum of the counts (R170). -/
theorem buildTree_node_freqOf_le (freq : Table Nat) {e : Nat × Node} (he : e ∈ (buildTree [] freq).node) :
    e.2.freqOf ≤ countSum freq (present freq) :=
  (builtForest_forest freq).elim fun _ h => h.bounded e he

/-- R43: from its root the arena stands for a tree value with one leaf per byte value of non-zero frequency. -/
theorem buildTree_stands {freq : Table Nat} (hn : (buildTree [] freq).nsym ≠ 0) :
    ∃ t : TreeValue, t.StandsAt (buildTree [] freq).node (buildTree [] freq).root ∧
      t.symbols.Perm (present freq) ∧ t.Sums freq := by
  obtain ⟨g, h⟩ := builtForest_forest freq
  have hpos : (present freq).length ≠ 0 := fun h0 =>
    hn (BitVec.eq_of_toNat_eq ((buildTree_nsym freq).trans h0))
  obtain ⟨k, hk⟩ := List.length_eq_one_iff.1 ((builtForest_queue_length freq).trans (by omega))
  have hmem : k ∈ (builtForest freq).queue := by simp [hk]
  rw [buildTree_node, buildTree_root, hk]
  exact ⟨g k, h.stands k hmem, by simpa [hk] using h.symbols, h.sums k hmem⟩

/-- R244: the root of a tree of two leaves or more is internal. -/
theorem buildTree_root_isInternal {freq : Table Nat} (h0 : (buildTree [] freq).nsym ≠ 0)
    (h1 : (buildTree [] freq).nsym ≠ 1) : IsInternal (buildTree [] freq).node (buildTree [] freq).root := by
  obtain ⟨t, ht, hp, -⟩ := buildTree_stands h0
  refine ht.isInternal fun hl => h1 (BitVec.eq_of_toNat_eq ?_)
  rw [buildTree_nsym, ← hp.length_eq, hl]
  rfl

end Sys2Proof.Machine
end

section
/-! PROOFS. What the session invariant of a block at rest says of the counts and the tables (spec 10_state.md R27 to R29,
R42, R43): the counts add up to the length of the input, the codes `CASSIGN` leaves fit their entries, and the arena
stands for a tree. -/

namespace Sys2Proof.Machine

/-! ### The counts -/

/-- The byte values of non-zero frequency are those that occur. -/
theorem CountsOf.present_perm {d : List Byte} {freq : Table Nat} (h : CountsOf d freq) :
    (present freq).Perm d.dedup :=
  (List.perm_ext_iff_of_nodup (nodup_present freq) d.nodup_dedup).2 fun v => by
    rw [mem_present, h v, List.count_pos_iff, List.mem_dedup]

/-- The counts add up to the length of the input (R143). -/
theorem CountsOf.countSum_present {d : List Byte} {freq : Table Nat} (h : CountsOf d freq) :
    countSum freq (present freq) = d.length := by
  have hmap : (d.dedup.map fun v => Table.read 0 freq v.toNat) = d.dedup.map fun v => d.count v :=
    List.map_congr_left fun v _ => h v
  rw [countSum_of_perm freq h.present_perm, countSum, hmap, List.sum_map_count_dedup_eq_length]

theorem CountsHold.countSum_present {s : State} (h : CountsHold s) : countSum s.freq (present s.freq) = s.total := by
  obtain ⟨-, d, hd, -, hc⟩ := h
  rw [hc.countSum_present, hd]

theorem CountsHold.total_lt {s : State} (h : CountsHold s) : s.total < 2 ^ s.cntW := by
  obtain ⟨-, d, hd, hl, -⟩ := h
  have := Nat.two_pow_pos s.cntW
  rw [Config.lenLimit] at hl
  omega

/-- No count exceeds the length of the input. -/
theorem CountsHold.freq_le_total {s : State} (h : CountsHold s) {e : Nat × Nat} (he : e ∈ s.freq) :
    e.2 ≤ s.total := by
  obtain ⟨hcan, d, hd, -, hc⟩ := h
  have hread := Table.read_of_mem (d := 0) hcan.1 (k := e.1) (v := e.2) he
  have hcount := hc (BitVec.ofNat 8 e.1)
  rw [BitVec.toNat_ofNat, Nat.mod_eq_of_lt (show e.1 < 2 ^ 8 from (hcan.2 e he).1), hread] at hcount
  rw [hcount, ← hd]
  exact List.count_le_length

/-! ### The codes -/

theorem codeSet_entry {t : Table (Option Bits)} {v : Byte} {c : Bits} {e : Nat × Option Bits}
    (h : e ∈ codeSet t v c) : e ∈ t ∨ e.2 = some c :=
  (Table.mem_write t h).imp_right fun he => by rw [he.1]

/-- Every code the walk below a node writes goes on from the node's path by fewer bits than the depth bound (R191). -/
theorem assignFrom_entry {node : Table Node} {d : Nat} {k : NodeIx} {p : Bits} {t t' : Table (Option Bits)}
    (h : assignFrom node d k p t = some t') {e : Nat × Option Bits} (he : e ∈ t') :
    e ∈ t ∨ ∃ q, e.2 = some (p ++ q) ∧ q.length < d := by
  induction d generalizing k p t t' with
  | zero => simp [assignFrom] at h
  | succ d ih =>
    have longer {x : Bool} (hx : ∃ q, e.2 = some (p ++ [x] ++ q) ∧ q.length < d) :
        ∃ q, e.2 = some (p ++ q) ∧ q.length < d + 1 := by
      obtain ⟨q, hq, hl⟩ := hx
      exact ⟨x :: q, by simpa using hq, by simpa using hl⟩
    rw [assignFrom] at h
    split at h
    · cases h
      exact (codeSet_entry he).imp_right fun hc => ⟨[], by simpa using hc, by simp⟩
    · split at h
      · simp at h
      · rename_i tl htl
        exact (ih h he).elim (fun hl => (ih htl hl).imp_right longer) fun hr => .inr (longer hr)

/-- From an internal node on every code written is longer than the node's path. -/
theorem assignFrom_entry_of_isInternal {node : Table Node} {d : Nat} {k : NodeIx} {p : Bits}
    {t t' : Table (Option Bits)} (hk : IsInternal node k) (h : assignFrom node (d + 1) k p t = some t')
    {e : Nat × Option Bits} (he : e ∈ t') : e ∈ t ∨ ∃ q, e.2 = some (p ++ q) ∧ 1 ≤ q.length ∧ q.length ≤ d := by
  have longer {x : Bool} (hx : ∃ q, e.2 = some (p ++ [x] ++ q) ∧ q.length < d) :
      ∃ q, e.2 = some (p ++ q) ∧ 1 ≤ q.length ∧ q.length ≤ d := by
    obtain ⟨q, hq, hl⟩ := hx
    exact ⟨x :: q, by simpa using hq, by simp, by simpa using hl⟩
  obtain ⟨f, l, r, hn⟩ := hk
  simp only [assignFrom, hn] at h
  split at h
  · simp at h
  · rename_i tl htl
    exact (assignFrom_entry h he).elim (fun hl => (assignFrom_entry htl hl).imp_right longer) fun hr => .inr (longer hr)

theorem assignFrom_canonical {node : Table Node} {d : Nat} {k : NodeIx} {p : Bits} {t t' : Table (Option Bits)}
    (ht : Table.Canonical none Config.symMax t) (h : assignFrom node d k p t = some t') :
    Table.Canonical none Config.symMax t' := by
  induction d generalizing k p t t' with
  | zero => simp [assignFrom] at h
  | succ d ih =>
    rw [assignFrom] at h
    split at h
    · cases h
      exact codeSet_canonical _ p ht
    · split at h
      · simp at h
      · rename_i tl htl
        exact ih (ih ht htl) h

/-- All `CASSIGN` does to the code table: nothing for the empty tree (R193), the code "0" for the single leaf (R192), the
walk from the root otherwise (R191). -/
theorem assignCodes_cases {t : Tree} {codes codes' : Table (Option Bits)} (h : assignCodes t codes = some codes') :
    (t.nsym = 0 ∧ codes' = codes) ∨ (t.nsym = 1 ∧ ∃ v, codes' = codeSet codes v [false]) ∨
    (t.nsym ≠ 0 ∧ t.nsym ≠ 1 ∧ assignFrom t.node (Config.codeMax + 1) t.root [] codes = some codes') := by
  unfold assignCodes at h
  split at h
  · cases h
    exact .inl ⟨‹_›, rfl⟩
  · split at h
    · split at h
      · cases h
        exact .inr (.inl ⟨‹_›, _, rfl⟩)
      · simp at h
    · exact .inr (.inr ⟨‹_›, ‹_›, h⟩)

theorem assignCodes_canonical {t : Tree} {codes codes' : Table (Option Bits)}
    (hc : Table.Canonical none Config.symMax codes) (h : assignCodes t codes = some codes') :
    Table.Canonical none Config.symMax codes' := by
  rcases assignCodes_cases h with ⟨-, rfl⟩ | ⟨-, v, rfl⟩ | ⟨-, -, h⟩
  · exact hc
  · exact codeSet_canonical v _ hc
  · exact assignFrom_canonical hc h

/-- Every code of a built tree fits its entry: 1 to 255 bits (R29, R172). -/
theorem assignCodes_wfCode {freq : Table Nat} {codes : Table (Option Bits)}
    (h : assignCodes (buildTree [] freq) [] = some codes) {e : Nat × Option Bits} (he : e ∈ codes) :
    e.2.all wfCode = true := by
  rcases assignCodes_cases h with ⟨-, rfl⟩ | ⟨-, v, rfl⟩ | ⟨h0, h1, h⟩
  · simp at he
  · rcases codeSet_entry he with he | he
    · simp at he
    · rw [he]
      rfl
  · rcases assignFrom_entry_of_isInternal (buildTree_root_isInternal h0 h1) h he with he | ⟨q, hq, hpos, hle⟩
    · simp at he
    · rw [hq]
      simpa [wfCode] using ⟨hpos, hle⟩

/-! ### The tables at rest -/

/-- What every stage's row of R42 says of the counts, the arena and the codes. -/
theorem HoldsAt.tables {st : Stage} {s : State} (h : HoldsAt st s) :
    CountsHold s ∧ (s.node = [] ∨ s.tree = buildTree [] s.freq) ∧
      (s.code = [] ∨ s.tree = buildTree [] s.freq ∧ assignCodes s.tree [] = some s.code) := by
  cases st with
  | cleared =>
    obtain ⟨htotal, -, -, -, hfreq, hnode, hcode⟩ := h
    refine ⟨⟨by simp [hfreq, Table.Canonical], [], htotal.symm, Nat.zero_le _, fun v => ?_⟩, .inl hnode, .inl hcode⟩
    simp [hfreq, Table.read]
  | counted =>
    obtain ⟨hcounts, -, -, -, hnode, hcode⟩ := h
    exact ⟨hcounts, .inl hnode, .inl hcode⟩
  | built =>
    obtain ⟨hcounts, htree, hcode, -⟩ := h
    exact ⟨hcounts, .inr htree, .inl hcode⟩
  | assigned =>
    obtain ⟨hcounts, htree, hcodes, -⟩ := h
    exact ⟨hcounts, .inr htree, .inr ⟨htree, hcodes⟩⟩
  | encoded =>
    obtain ⟨hcounts, htree, hcodes⟩ := h
    exact ⟨hcounts, .inr htree, .inr ⟨htree, hcodes⟩⟩

theorem HoldsAt.node_wf {st : Stage} {s : State} (h : HoldsAt st s) :
    Table.Canonical Node.unused Config.nodeMax s.node ∧ ∀ e ∈ s.node, e.2.freqOf ≤ s.total := by
  obtain ⟨hcounts, hnode | htree, -⟩ := h.tables
  · simp [hnode, Table.Canonical]
  · have hnode : s.node = (buildTree [] s.freq).node := congrArg Tree.node htree
    rw [hnode, ← hcounts.countSum_present]
    exact ⟨buildTree_node_canonical s.freq, fun e he => buildTree_node_freqOf_le s.freq he⟩

theorem HoldsAt.code_wf {st : Stage} {s : State} (h : HoldsAt st s) :
    Table.Canonical none Config.symMax s.code ∧ ∀ e ∈ s.code, e.2.all wfCode = true := by
  obtain ⟨-, -, hcode | ⟨htree, hcodes⟩⟩ := h.tables
  · simp [hcode, Table.Canonical]
  · refine ⟨assignCodes_canonical ⟨.nil, by simp⟩ hcodes, fun e he => ?_⟩
    rw [htree] at hcodes
    exact assignCodes_wfCode hcodes he

theorem Inv.holdsAt {s : State} (h : Inv s) (hr : s.running = none) : HoldsAt s.stage s := by
  have h := h.2
  rwa [hr] at h

/-- Settles O49: every count and node frequency is at most the length of the input, which the counters hold, and every
code is a path of the built tree. -/
theorem invariantKeepsTheTablesWellFormed : Obligations.InvariantKeepsTheTablesWellFormed := by
  intro s hinv hr
  have h := hinv.holdsAt hr
  have hcounts := h.tables.1
  obtain ⟨hnode, hnodeFreq⟩ := h.node_wf
  obtain ⟨hcode, hcodeLen⟩ := h.code_wf
  exact ⟨hcounts.1, hnode, hcode, hcounts.total_lt, fun e he => (hcounts.freq_le_total he).trans_lt hcounts.total_lt,
    fun e he => (hnodeFreq e he).trans_lt hcounts.total_lt, hcodeLen⟩

/-- Settles O26: the forest of the merge loop ends as one tree, no deeper than its 256 leaves allow, and `buildTree`
reads nothing but the counts. -/
theorem arenaStandsForATree : Obligations.ArenaStandsForATree := by
  intro s₁ s₂ hinv₁ hr₁ hst₁
  have tree_eq {s : State} (hinv : Inv s) (hr : s.running = none) (hst : s.stage = .built) :
      s.tree = buildTree [] s.freq := by
    have h := hinv.holdsAt hr
    rw [hst] at h
    exact h.2.1
  have htree₁ := tree_eq hinv₁ hr₁ hst₁
  refine ⟨fun hn => ?_, fun hinv₂ hr₂ hst₂ hfreq => ?_⟩
  · obtain ⟨t, hstands, hperm, hsums⟩ := buildTree_stands (freq := s₁.freq) (htree₁ ▸ hn)
    rw [← htree₁] at hstands
    have hheight := t.height_lt_length_symbols
    have hlen := hperm.length_eq.trans_le (length_present_le s₁.freq)
    exact ⟨t, hstands.treeAt_eq (by omega), hperm.nodup_iff.2 (nodup_present s₁.freq),
      fun b => hperm.mem_iff.trans (mem_present s₁.freq b), hsums⟩
  · have htree : s₂.tree = s₁.tree := by rw [tree_eq hinv₂ hr₂ hst₂, hfreq, htree₁]
    exact ⟨congrArg Tree.node htree, congrArg Tree.nsym htree, congrArg Tree.root htree⟩

end Sys2Proof.Machine
end

section
/-! PROOFS. Every step keeps the session invariant (spec 10_state.md R42). The invariant of a running command is kept by
every item taken and gives, at `End`, what the command's ending needs; `feed_cases` carries it over the stream. -/

namespace Sys2Proof.Machine

/-! ### One item -/

/-- Before the first byte the counts are those of the empty stream (R142). -/
theorem holdsAt_counted_sessionClear (s : State) : HoldsAt .counted (sessionClear s) :=
  ⟨⟨by simp [Table.Canonical], [], rfl, Nat.zero_le _, fun _ => rfl⟩, rfl, rfl, rfl, rfl, rfl⟩

theorem holdsAt_cleared_sessionClear (s : State) : HoldsAt .cleared (sessionClear s) :=
  ⟨rfl, rfl, rfl, rfl, rfl, rfl, rfl⟩

/-- A byte counted below the limit leaves the counts those of a stream one byte longer (R143). -/
theorem CountsHold.countByte {s : State} (h : CountsHold s) (b : Byte) (hlt : s.total ≠ Config.lenLimit s.cntW) :
    CountsHold (countByte b s) := by
  obtain ⟨hcan, d, hd, hl, hc⟩ := h
  refine ⟨countByte_canonical b hcan, b :: d, by simp [hd], ?_, fun v => ?_⟩
  · rw [List.length_cons, countByte_cntW]
    omega
  · by_cases hv : v = b
    · subst hv
      rw [List.count_cons_self, ← hc v]
      exact freqAt_countByte_same v hcan.1
    · rw [List.count_cons_of_ne (Ne.symm hv), ← hc v]
      exact freqAt_countByte_other s hv

/-- A byte leaves `FSCAN` counting the bytes taken so far, or drains the stream of a cleared session (R141, R144). -/
theorem scanByte_keeps_runningHolds {b : Byte} {s : State} {r : Running} (hst : s.stage = .cleared)
    (h : HoldsAt .counted s) : RunningHolds { r with phase := (scanByte b s).phase } (scanByte b s).state := by
  unfold scanByte
  split
  · exact ⟨rfl, holdsAt_cleared_sessionClear s⟩
  · exact ⟨hst, h.1.countByte b ‹_›, h.2⟩

/-- A cursor that has just emitted a symbol, or has not moved yet, stands at the root (R244, R245). -/
theorem cursorOnTree_root {freq : Table Nat} (h : (buildTree [] freq).nsym ≠ 0) :
    CursorOnTree (buildTree [] freq) (buildTree [] freq).root :=
  ⟨h, fun _ => rfl, fun h1 => buildTree_root_isInternal h h1⟩

theorem walkBit_keeps_cursorOnTree {freq : Table Nat} {c c' : NodeIx} {x : Bool} {o : Option Byte}
    (h : CursorOnTree (buildTree [] freq) c) (hw : walkBit (buildTree [] freq) c x = .ok (c', o)) :
    CursorOnTree (buildTree [] freq) c' := by
  unfold walkBit at hw
  split at hw
  · split at hw
    · split at hw
      · simp at hw
      · cases hw
        exact h
    · simp at hw
  · split at hw
    · simp at hw
    · dsimp only at hw
      split at hw
      · cases hw
        exact cursorOnTree_root h.1
      · rename_i hk
        cases hw
        exact ⟨h.1, fun h1 => absurd h1 ‹_›, fun _ => ⟨_, _, _, hk⟩⟩

theorem walkBits_keeps_cursorOnTree {freq : Table Nat} {c : NodeIx} (bits : Bits)
    (h : CursorOnTree (buildTree [] freq) c) :
    CursorOnTree (buildTree [] freq) (walkBits (buildTree [] freq) c bits).cursor := by
  induction bits generalizing c with
  | nil => exact h
  | cons x xs ih =>
    rw [walkBits]
    split
    · exact h
    · exact ih (walkBit_keeps_cursorOnTree h ‹_›)

/-- All `DECODE` does with a byte (R242, R246): the session stays, and the command goes on from where the walk ended or
drains. -/
theorem decodeByte_cases {b : Byte} {c : NodeIx} {la : Option Byte} {s : State} {tk : Taken}
    (h : decodeByte b c la s = .ok tk) : tk.state = s ∧
      ((∃ bits, tk.phase = .decoding (walkBits s.tree c bits).cursor (some b)) ∨ tk.phase = .draining .badBit) := by
  unfold decodeByte at h
  split at h
  · cases h
    exact ⟨rfl, .inl ⟨[], rfl⟩⟩
  · dsimp only at h
    split at h
    · cases h
      exact ⟨rfl, .inl ⟨_, rfl⟩⟩
    · cases h
      exact ⟨rfl, .inr rfl⟩
    · simp at h

/-- The ways a decoded stream can end (R246). -/
theorem decodeEnd_cases {c : NodeIx} {la : Option Byte} {s : State} {e : Ending} {out : List Item}
    (h : decodeEnd c la s = .ok (e, out)) : e = .decoded ∨ e = .dangling ∨ e = .badBit := by
  unfold decodeEnd at h
  dsimp only at h
  split at h
  · cases h
    exact or_assoc.1 (.inl (ite_eq_or_eq _ _ _))
  · cases h
    exact .inr (.inr rfl)
  · simp at h

/-- The pad count an encoded stream ends with is the only thing that varies (R214). -/
theorem encodeEnd_fst (bitbuf : Bits) : ∃ p, (encodeEnd bitbuf).1 = .encoded p := by
  unfold encodeEnd
  split <;> exact ⟨_, rfl⟩

/-- Taking a byte keeps the invariant of a running command. -/
theorem takeByte_keeps_runningHolds {b : Byte} {r : Running} {s : State} {tk : Taken} (h : RunningHolds r s)
    (htk : takeByte b s r.phase = .ok tk) : RunningHolds { r with phase := tk.phase } tk.state := by
  obtain ⟨st0, ph, pend⟩ := r
  cases ph with
  | counting =>
    obtain ⟨hst, hcounted⟩ := h
    cases htk
    exact scanByte_keeps_runningHolds hst hcounted
  | encoding bitbuf =>
    obtain ⟨hst, hat, -⟩ := h
    simp only [takeByte, encodeByte] at htk
    split at htk
    · cases htk
      exact ⟨hst, hat⟩
    · cases htk
      exact ⟨hst, hat, flush_rest_length _⟩
  | decoding c la =>
    obtain ⟨hst, hat, hcur⟩ := h
    obtain ⟨hs, ⟨bits, hph⟩ | hph⟩ := decodeByte_cases htk
    · rw [hs, hph]
      refine ⟨hst, hat, ?_⟩
      obtain ⟨-, htree, -⟩ := hat
      rw [htree] at hcur ⊢
      exact walkBits_keeps_cursorOnTree bits hcur
    · rw [hs, hph]
      exact ⟨hst, hat⟩
  | draining e =>
    cases htk
    exact h
  | finishing e =>
    cases htk
    exact h

/-- At `End` the invariant of a running command gives what its ending needs. -/
theorem takeEnd_endingHolds {ph : Phase} {st0 : Stage} {pend : List Item} {s : State} {e : Ending} {out : List Item}
    (h : RunningHolds ⟨st0, ph, pend⟩ s) (he : takeEnd s ph = .ok (e, out)) : EndingHolds e s := by
  cases ph with
  | counting =>
    cases he
    exact h
  | encoding bitbuf =>
    obtain ⟨hst, hat, -⟩ := h
    obtain ⟨p, hp⟩ := encodeEnd_fst bitbuf
    have : e = .encoded p := by
      rw [← hp]
      exact (congrArg Prod.fst (Except.ok.inj he)).symm
    rw [this]
    exact ⟨hst, hat⟩
  | decoding c la =>
    obtain ⟨hst, hat, -⟩ := h
    rcases decodeEnd_cases he with rfl | rfl | rfl <;> exact ⟨hst, hat⟩
  | draining e =>
    cases he
    exact h
  | finishing e =>
    cases he
    exact h

/-! ### The streaming engine -/

/-- The invariant of a running command says nothing of its OUT items or its stage of acceptance. -/
theorem RunningHolds.of_phase_eq {r r' : Running} {s : State} (h : RunningHolds r s) (hp : r'.phase = r.phase) :
    RunningHolds r' s := by
  unfold RunningHolds at h ⊢
  rwa [hp]

/-- Putting items on OUT keeps the invariant of a running command. -/
theorem RunningHolds.putOut {r : Running} {s : State} (h : RunningHolds r s) (items : List Item) :
    RunningHolds (putOut items r s).1 (putOut items r s).2 := by
  rw [putOut_frame]
  exact RunningHolds.of_phase_eq (s := { s with outStream := _, outRoom := _ }) h (putOut_phase items r s).1

/-- However a command ends, the session then stands as its stage says (R122, R124, R306). -/
theorem finish_holdsAt {e : Ending} {s : State} (h : EndingHolds e s) : HoldsAt (finish e s).stage (finish e s) := by
  cases e with
  | scanned => exact h.2
  | overflowed =>
    obtain ⟨hst, hat⟩ := h
    show HoldsAt s.stage s
    rwa [hst]
  | encoded p =>
    obtain ⟨hst | hst, hat⟩ := h <;> rw [hst] at hat
    · obtain ⟨hcounts, htree, hcodes, -⟩ := hat
      exact ⟨hcounts, htree, hcodes⟩
    · exact hat
  | unknownSym b =>
    obtain ⟨hst | hst, hat⟩ := h <;> rw [hst] at hat
    · obtain ⟨hcounts, htree, hcodes, -⟩ := hat
      exact ⟨hcounts, htree, hcodes, rfl⟩
    · obtain ⟨hcounts, htree, hcodes⟩ := hat
      exact ⟨hcounts, htree, hcodes, rfl⟩
  | decoded | dangling | badBit =>
    obtain ⟨hst, hat⟩ := h
    show HoldsAt s.stage s
    rwa [hst]

theorem finish_keeps_inv {e : Ending} {s : State} (hw : 1 ≤ s.cntW) (h : EndingHolds e s) : Inv (finish e s) := by
  refine ⟨by rwa [finish_frame], ?_⟩
  rw [finish_running]
  exact finish_holdsAt h

/-- Wherever the engine stops, the session invariant holds. -/
theorem feed_keeps_inv {ended : Bool} {bs : List Byte} {r : Running} {s t : State} (hw : 1 ≤ s.cntW)
    (h : RunningHolds r s) (hf : feed ended bs r s = .next t) : Inv t := by
  have keep (b : Byte) (r : Running) (s : State) (tk : Taken) (h : 1 ≤ s.cntW ∧ RunningHolds r s) (_ : r.pend = [])
      (htk : takeByte b s r.phase = .ok tk) :
      1 ≤ (putOut tk.out { r with phase := tk.phase } tk.state).2.cntW ∧
      RunningHolds (putOut tk.out { r with phase := tk.phase } tk.state).1
        (putOut tk.out { r with phase := tk.phase } tk.state).2 := by
    refine ⟨?_, (takeByte_keeps_runningHolds h.2 htk).putOut _⟩
    rw [cntW_of_hostSide (putOut_hostSide _ _ _), cntW_of_hostSide (takeByte_hostSide htk)]
    exact h.1
  rcases feed_cases (fun r s => 1 ≤ s.cntW ∧ RunningHolds r s) keep ⟨hw, h⟩ hf with
    ⟨bs', r', s', h', rfl, -⟩ | ⟨r', s', e, out, ⟨hw', h'⟩, -, -, he, hc⟩
  · exact h'
  · have hend : EndingHolds e (putOut out r' s').2 := by
      rw [putOut_frame]
      exact takeEnd_endingHolds h' he
    have hw'' : 1 ≤ (putOut out r' s').2.cntW := by rwa [cntW_of_hostSide (putOut_hostSide _ _ _)]
    rcases conclude_cases hc with ⟨-, rfl⟩ | ⟨-, rfl⟩
    · exact finish_keeps_inv (s := { (putOut out r' s').2 with inStream := InStream.nothing }) hw'' hend
    · exact ⟨hw'', hend⟩

theorem start_keeps_inv {st0 : Stage} {ph : Phase} {s t : State} (hw : 1 ≤ s.cntW)
    (ht : start st0 ph s = .next t) (h : RunningHolds ⟨st0, ph, []⟩ s) : Inv t :=
  feed_keeps_inv hw h ht

/-- Going on with a running command keeps the session invariant. -/
theorem resume_keeps_inv {s t : State} (h : Inv s) (ht : resume s = .next t) : Inv t := by
  rcases resume_cases ht with ⟨-, rfl⟩ | ⟨r, hr, hcase⟩
  · exact h
  · obtain ⟨hw, h⟩ := h
    rw [hr] at h
    have hw' : 1 ≤ (putOut [] r s).2.cntW := by rwa [cntW_of_hostSide (putOut_hostSide _ _ _)]
    have h' := h.putOut []
    rcases hcase with ⟨e, he, hdone⟩ | ⟨-, hf⟩
    · have hend : EndingHolds e (putOut [] r s).2 := by
        unfold RunningHolds at h'
        rwa [(putOut_phase [] r s).1, he] at h'
      rcases hdone with ⟨-, rfl⟩ | ⟨-, rfl⟩
      · exact finish_keeps_inv hw' hend
      · exact ⟨hw', h'⟩
    · exact feed_keeps_inv hw' h' hf

/-! ### Commands and moves -/

/-- Every command issued at rest keeps the session invariant. -/
theorem exec_keeps_inv {i : Instr} {s t : State} (h : Inv s) (hr : s.running = none) (ht : exec i s = .next t) :
    Inv t := by
  have hw := h.1
  have hat := h.holdsAt hr
  rcases exec_cases ht with ⟨-, rfl⟩ | ⟨hl, ht⟩
  · exact ⟨hw, hat⟩
  rw [legalAt_iff] at hl
  cases i with
  | clear =>
    obtain rfl : t = _ := ht
    exact ⟨hw, holdsAt_cleared_sessionClear s⟩
  | fscan => exact start_keeps_inv (s := sessionClear s) hw ht ⟨rfl, holdsAt_counted_sessionClear s⟩
  | tbuild =>
    rw [show s.stage = .counted from hl] at hat
    obtain ⟨hcounts, -, -, hpad, hnode, hcode⟩ := hat
    obtain rfl : t = _ := ht
    refine ⟨hw, hcounts, ?_, hcode, hpad⟩
    rw [hnode]
    rfl
  | cassign =>
    rw [show s.stage = .built from hl] at hat
    obtain ⟨hcounts, htree, hcode, hpad⟩ := hat
    obtain ⟨codes, hcodes, rfl⟩ := ht
    rw [hcode] at hcodes
    exact ⟨hw, hcounts, htree, hcodes, hpad⟩
  | encode => exact start_keeps_inv hw ht ⟨hl, hat, Nat.zero_le _⟩
  | decode =>
    have hst : s.stage = .encoded := hl
    rw [hst] at hat
    rcases ht with ⟨-, ht⟩ | ⟨hn, ht⟩
    · exact start_keeps_inv hw ht ⟨hst, hat⟩
    · refine start_keeps_inv hw ht ⟨hst, hat, ?_⟩
      have htree : s.tree = buildTree [] s.freq := hat.2.1
      have hn' : s.tree.nsym ≠ 0 := hn
      show CursorOnTree s.tree s.tree.root
      rw [htree] at hn' ⊢
      exact cursorOnTree_root hn'

theorem hostMove_keeps_inv {m : HostMove} {s t : State} (h : Inv s) (ht : hostMove m s = .next t) : Inv t := by
  rcases hostMove_cases ht with ⟨w, operand, hr, hd⟩ | hsel | ⟨inS, room, hres⟩ | rfl
  · rcases dispatch_cases hd with rfl | ⟨i, hi, he⟩
    · exact ⟨h.1, h.holdsAt hr⟩
    · rw [handOver_frame] at he
      exact exec_keeps_inv (s := { s with inStream := (handOver i operand s).inStream }) h hr he
  · rw [hsel]
    exact h
  · exact resume_keeps_inv (s := { s with inStream := inS, outRoom := room }) h hres
  · exact ⟨h.1, holdsAt_cleared_sessionClear s⟩

/-- Settles O47: a move dispatches a command at rest, goes on with the running one, resets the block or leaves its session
alone, and each of these keeps the invariant. -/
theorem everyStepKeepsTheSessionInvariant : Obligations.EveryStepKeepsTheSessionInvariant := by
  intro s t h ht
  cases hm : s.hostMoves with
  | nil =>
    rw [step_of_no_move hm] at ht
    cases ht
    exact h
  | cons m rest =>
    rw [step_of_move hm] at ht
    exact hostMove_keeps_inv (s := { s with hostMoves := rest }) h ht

/-- Settles O46: the reset state is a cleared session at rest. -/
theorem resetMeetsTheSessionInvariant : Obligations.ResetMeetsTheSessionInvariant :=
  ⟨by decide, holdsAt_cleared_sessionClear State.reset⟩

end Sys2Proof.Machine
end

section
/-! PROOFS. The streaming engine, the commands that start it and the moves that go on with it, as equations: one byte,
`End`, going on (spec 20_memory.md R64), a command that is accepted or rejected (spec 40_command_dispatch.md R120), an
item no command takes (spec 70_reset_and_hazards.md R348), and a step while a command runs (R343, R347). -/

namespace Sys2Proof.Machine

/-! ### Items put and taken -/

theorem State.with_outRoom {s : State} {room : Option Nat} (h : s.outRoom = room) : { s with outRoom := room } = s := by
  subst h
  rfl

/-- Nothing put while nothing waits changes nothing. -/
theorem putOut_nil_of_pend_nil {r : Running} (s : State) (h : r.pend = []) : putOut [] r s = (r, s) := by
  obtain ⟨st0, ph, pend⟩ := r
  obtain rfl : pend = [] := h
  cases s
  unfold putOut
  split <;> simp_all

/-- A host that takes no OUT item lets every item wait. -/
theorem putOut_stalled (items : List Item) (r : Running) {s : State} (h : s.outRoom = some 0) :
    putOut items r s = ({ r with pend := r.pend ++ items }, s) := by
  simp only [putOut, h, List.drop_zero, List.take_zero, List.append_nil, Nat.zero_sub, State.with_outRoom h]

/-- One byte more than the counters can hold clears the session and drains the stream (R144). -/
theorem scanByte_at_limit (b : Byte) {s : State} (h : s.total = Config.lenLimit s.cntW) :
    scanByte b s = ⟨sessionClear s, .draining .overflowed, []⟩ := if_pos h

/-- Any other byte is counted (R143). -/
theorem scanByte_off_limit (b : Byte) {s : State} (h : s.total ≠ Config.lenLimit s.cntW) :
    scanByte b s = ⟨countByte b s, .counting, []⟩ := if_neg h

/-- A taken byte never leads to the phase in which `End` is taken. -/
theorem takeByte_phase_ne_finishing {b : Byte} {s : State} {ph : Phase} {tk : Taken} (hph : ∀ e, ph ≠ .finishing e)
    (h : takeByte b s ph = .ok tk) : ∀ e, tk.phase ≠ .finishing e := by
  cases ph with
  | counting =>
    cases h
    unfold scanByte
    split <;> nofun
  | encoding bitbuf =>
    cases h
    unfold encodeByte
    split <;> nofun
  | decoding c la =>
    obtain ⟨-, ⟨bits, hp⟩ | hp⟩ := decodeByte_cases h <;> rw [hp] <;> nofun
  | draining e =>
    cases h
    nofun
  | finishing e => exact absurd rfl (hph e)

/-- One byte of the stream (R141, R221, R252). -/
theorem feed_cons_of_taken {ended : Bool} {b : Byte} {bs : List Byte} {r : Running} {s : State} {tk : Taken}
    (hp : r.pend = []) (h : takeByte b s r.phase = .ok tk) :
    feed ended (b :: bs) r s =
      feed ended bs (putOut tk.out { r with phase := tk.phase } tk.state).1
        (putOut tk.out { r with phase := tk.phase } tk.state).2 := by
  rw [feed, hp, h]
  rfl

/-- The end of the stream (R141, R221, R252). -/
theorem feed_nil_of_end {r : Running} {s : State} {e : Ending} {out : List Item} (hp : r.pend = [])
    (h : takeEnd s r.phase = .ok (e, out)) :
    feed true [] r s = conclude e (putOut out r s).1 (putOut out r s).2 := by
  rw [feed, hp, h]
  rfl

/-! ### Commands -/

/-- A command that is not legal is rejected (R302). -/
theorem exec_of_illegal {i : Instr} {s : State} (h : Instr.legalAt i s.stage = false) :
    exec i s = .next (s.complete .seq (encodeWord i)) := by
  cases i
  case clear => rw [exec, execClear, ifLegal_of_illegal h]
  case fscan => rw [exec, execFscan, ifLegal_of_illegal h]
  case tbuild => rw [exec, execTbuild, ifLegal_of_illegal h]
  case cassign => rw [exec, execCassign, ifLegal_of_illegal h]
  case encode => rw [exec, execEncode, ifLegal_of_illegal h]
  case decode => rw [exec, execDecode, ifLegal_of_illegal h]

theorem exec_fscan (s : State) : exec .fscan s = start s.stage .counting (sessionClear s) := by
  rw [exec, execFscan, ifLegal_of_legal rfl]

theorem exec_encode_of_legal {s : State} (h : Instr.legalAt .encode s.stage = true) :
    exec .encode s = start s.stage (.encoding []) s := by
  rw [exec, execEncode, ifLegal_of_legal h]

/-- Where `DECODE` starts: it only drains its stream when the tree is empty (R241). -/
def decodeStart (s : State) : Phase := if s.nsym = 0 then .draining .decoded else .decoding s.root none

theorem exec_decode_of_legal {s : State} (h : Instr.legalAt .decode s.stage = true) :
    exec .decode s = start s.stage (decodeStart s) s := by
  rw [exec, execDecode, ifLegal_of_legal h]
  exact (apply_ite (fun ph => start s.stage ph s) ..).symm

theorem decodeStart_cases (s : State) : decodeStart s = .draining .decoded ∨ decodeStart s = .decoding s.root none :=
  ite_eq_or_eq ..

/-- `DECODE` starts before its first item. -/
theorem decodeStart_ne_finishing (s : State) (e : Ending) : decodeStart s ≠ .finishing e := by
  rcases decodeStart_cases s with h | h <;> rw [h] <;> nofun

/-! ### Going on with a command -/

theorem resume_of_idle {s : State} (h : s.running = none) : resume s = .next s := by
  rw [resume, h]

/-- Going on with a command that waits: what waits is put first, then the engine runs on over the IN port. -/
theorem resume_of_running {r : Running} {s : State} (hr : s.running = some r) (hph : ∀ e, r.phase ≠ .finishing e) :
    resume s = feed s.inStream.ended s.inStream.bytes (putOut [] r s).1 (putOut [] r s).2 := by
  unfold resume
  rw [hr]
  dsimp only
  split
  · rename_i e he
    exact absurd ((putOut_phase [] r s).1.symm.trans he) (hph e)
  · rw [putOut_frame]

/-- Going on with a command that has taken `End`: it completes when the host has taken the last OUT items. -/
theorem resume_of_finishing {e : Ending} {r : Running} {s : State} (hr : s.running = some r)
    (hph : r.phase = .finishing e) (hin : s.inStream = InStream.nothing) :
    resume s = conclude e (putOut [] r s).1 (putOut [] r s).2 := by
  have hph' : (putOut [] r s).1.phase = .finishing e := (putOut_phase [] r s).1.trans hph
  have hr' : { (putOut [] r s).1 with phase := .finishing e } = (putOut [] r s).1 := by rw [← hph']
  have hs' : { (putOut [] r s).2 with inStream := InStream.nothing } = (putOut [] r s).2 := by
    rw [putOut_frame, ← hin]
  rw [conclude, park, hr', hs']
  simp only [resume, hr, hph']
  rw [← hs']

/-- `End` has been supplied when it waits at the IN port or has been taken. -/
theorem endSupplied_iff (r : Running) (s : State) :
    endSupplied r s = true ↔ s.inStream.ended = true ∨ ∃ e, r.phase = .finishing e := by
  obtain ⟨st0, ph, pend⟩ := r
  cases ph <;> simp [endSupplied]

theorem endSupplied_eq_false_iff (r : Running) (s : State) :
    endSupplied r s = false ↔ s.inStream.ended = false ∧ ∀ e, r.phase ≠ .finishing e := by
  simp [← Bool.not_eq_true, endSupplied_iff]

/-- An item for no command is refused (R348). -/
theorem supplyIn_of_idle {bytes : List Byte} {last : Bool} {s : State} (hsome : bytes ≠ [] ∨ last = true)
    (hr : s.running = none) : supplyIn bytes last s = .refused .itemForNoCommand := by
  rcases supplyIn_cases bytes last s with ⟨hb, hl, -⟩ | ⟨-, ⟨-, he⟩ | ⟨q, hq, -⟩⟩
  · simp [hb, hl] at hsome
  · exact he
  · cases hr.symm.trans hq

/-- An item after the running command's `End` is refused (R348). -/
theorem supplyIn_after_end {bytes : List Byte} {last : Bool} {s : State} {r : Running}
    (hsome : bytes ≠ [] ∨ last = true) (hr : s.running = some r) (hend : endSupplied r s = true) :
    supplyIn bytes last s = .refused .itemAfterEnd := by
  rcases supplyIn_cases bytes last s with ⟨hb, hl, -⟩ | ⟨-, ⟨hn, -⟩ | ⟨q, hq, ⟨-, he⟩ | ⟨hno, -⟩⟩⟩
  · simp [hb, hl] at hsome
  · cases hr.symm.trans hn
  · exact he
  · obtain rfl : r = q := Option.some.inj (hr.symm.trans hq)
    cases hend.symm.trans hno

/-- A write of `CMD` while a command runs is ignored (R343). -/
theorem writeCmd_of_running {s : State} {r : Running} (hr : s.running = some r) (w : Byte)
    (operand : Option (List Byte)) : writeCmd w operand s = .next s := by
  simp [writeCmd, State.busy, hr]

/-- All a step can do while a command runs: change nothing but the selectors, what was read and the moves to come;
supply the command with items before its `End`; grant it room for OUT; or reset the block. -/
theorem step_cases_of_running {s t : State} {r : Running} (hr : s.running = some r) (h : step s = .next t) :
    t = { s with
      symSel := t.symSel, nodeSel := t.nodeSel, hostMoves := t.hostMoves, hostRead := t.hostRead,
      freeReads := t.freeReads } ∨
    (∃ bytes last rest, s.hostMoves = .supply bytes last :: rest ∧ endSupplied r s = false ∧
      resume { s with hostMoves := rest, inStream := ⟨s.inStream.bytes ++ bytes, last⟩ } = .next t) ∨
    (∃ room rest, s.hostMoves = .takeOut room :: rest ∧
      resume { s with hostMoves := rest, outRoom := room } = .next t) ∨
    ∃ rest, s.hostMoves = .reset :: rest := by
  cases hm : s.hostMoves with
  | nil =>
    rw [step_of_no_move hm] at h
    cases h
    exact .inl rfl
  | cons m rest =>
    rw [step_of_move hm] at h
    have hr' : { s with hostMoves := rest }.running = some r := hr
    cases m with
    | command w operand =>
      rw [hostMove, writeCmd_of_running hr'] at h
      cases h
      exact .inl rfl
    | write n v =>
      rw [hostMove, writeCmd_of_running hr'] at h
      left
      split at h <;> cases h
      · rfl
      · unfold writeSelector
        split <;> rfl
    | read n =>
      cases h
      left
      unfold readReg
      split <;> rfl
    | supply bytes last =>
      rw [hostMove] at h
      rcases supplyIn_cases bytes last { s with hostMoves := rest } with
        ⟨-, -, he⟩ | ⟨-, ⟨-, he⟩ | ⟨q, hq, ⟨-, he⟩ | ⟨hend, he⟩⟩⟩ <;> rw [he] at h
      · cases h
        exact .inl rfl
      · cases h
      · cases h
      · obtain rfl : r = q := Option.some.inj (hr.symm.trans hq)
        exact .inr (.inl ⟨bytes, last, rest, rfl, hend, h⟩)
    | takeOut room => exact .inr (.inr (.inl ⟨room, rest, rfl, h⟩))
    | reset => exact .inr (.inr (.inr ⟨rest, rfl⟩))

end Sys2Proof.Machine
end

section
/-! PROOFS. What a streaming command still puts on OUT (spec 20_memory.md R63), and hosts that withhold `End` or take no
OUT item (R64). -/

namespace Sys2Proof.Machine

/-! ### The items a command still puts -/

/-- `items` can be what a command at this phase has still to put: the rest of an OUT stream, bytes and its `End`, or
nothing when OUT is ended or there is none (R63, R215, R246). -/
def Phase.Puts (ph : Phase) (items : List Item) : Prop :=
  match ph with
  | .encoding _ | .decoding _ _ | .draining .decoded => ∃ bytes, items = outItems bytes
  | _ => items = []

/-- Bytes put before the rest of an OUT stream. -/
theorem map_byte_append_outItems (bytes bytes' : List Byte) :
    bytes.map .byte ++ outItems bytes' = outItems (bytes ++ bytes') := by
  simp [outItems]

/-- What a byte puts, with what the command still puts after it, is what it had still to put before. -/
theorem takeByte_puts {b : Byte} {s : State} {ph : Phase} {tk : Taken} {rest : List Item}
    (h : takeByte b s ph = .ok tk) (hrest : tk.phase.Puts rest) : ph.Puts (tk.out ++ rest) := by
  cases ph with
  | counting =>
    cases h
    by_cases hl : s.total = Config.lenLimit s.cntW
    · rw [scanByte_at_limit b hl] at hrest ⊢
      exact hrest
    · rw [scanByte_off_limit b hl] at hrest ⊢
      exact hrest
  | encoding bitbuf =>
    simp only [takeByte, encodeByte] at h
    split at h <;> cases h
    · obtain rfl : rest = [] := hrest
      exact ⟨[], rfl⟩
    · obtain ⟨bytes, rfl⟩ := hrest
      exact ⟨_, map_byte_append_outItems _ bytes⟩
  | decoding c la =>
    simp only [takeByte, decodeByte] at h
    split at h
    · cases h
      exact hrest
    · split at h <;> cases h
      · obtain ⟨bytes, rfl⟩ := hrest
        exact ⟨_, map_byte_append_outItems _ bytes⟩
      · obtain rfl : rest = [] := hrest
        exact ⟨_, List.append_nil _⟩
  | draining e | finishing e =>
    cases h
    exact hrest

/-- What `End` puts is what the command had still to put. -/
theorem takeEnd_puts {s : State} {ph : Phase} {e : Ending} {out : List Item} (h : takeEnd s ph = .ok (e, out)) :
    ph.Puts out := by
  cases ph with
  | counting | finishing =>
    cases h
    rfl
  | encoding bitbuf =>
    simp only [takeEnd, encodeEnd] at h
    split at h <;> cases h
    · exact ⟨[], rfl⟩
    · exact ⟨[_], rfl⟩
  | decoding c la =>
    simp only [takeEnd, decodeEnd] at h
    split at h <;> cases h <;> exact ⟨_, rfl⟩
  | draining e =>
    cases h
    cases e with
    | decoded => exact ⟨[], rfl⟩
    | _ => rfl

/-- A command owes output when some waits for the host or it cannot end without putting more. -/
theorem owesOutput_iff (r : Running) : OwesOutput r ↔ r.pend ≠ [] ∨ ¬ r.phase.Puts [] := by
  have hnil : ¬ ∃ bytes, [] = outItems bytes := by simp [outItems]
  obtain ⟨st0, ph, pend⟩ := r
  refine or_congr Iff.rfl ?_
  cases ph with
  | encoding bitbuf | decoding c la => exact iff_of_true trivial hnil
  | counting | finishing => exact iff_of_false id (not_not_intro rfl)
  | draining e =>
    cases e with
    | decoded => exact iff_of_true trivial hnil
    | _ => exact iff_of_false id (not_not_intro rfl)

/-- Items that wait, or an unfinished OUT stream, are owed. -/
theorem owesOutput_of_puts {ph ph' : Phase} {st0 : Stage} {items : List Item} (howes : ¬ ph.Puts [])
    (h : items = [] → ph'.Puts [] → ph.Puts []) : OwesOutput ⟨st0, ph', items⟩ :=
  (owesOutput_iff _).2 (not_and_or.1 fun ⟨hi, hp⟩ => howes (h hi hp))

/-! ### What taking and putting items leaves alone -/

/-- What a host sees of a command's completion: `result`, `rinfo` and the run's record (R124, R349). -/
def State.reported (s : State) : ResultCode × Byte × List (ResultCode × Byte) := (s.result, s.rinfo, s.record)

/-- The OUT port: the host's room and the stream. -/
def State.outPort (s : State) : Option Nat × List Item := (s.outRoom, s.outStream)

theorem takeByte_reported {b : Byte} {s : State} {ph : Phase} {tk : Taken} (h : takeByte b s ph = .ok tk) :
    tk.state.reported = s.reported := by
  rcases takeByte_state h with h | h | h <;> rw [h] <;> rfl

theorem takeByte_outPort {b : Byte} {s : State} {ph : Phase} {tk : Taken} (h : takeByte b s ph = .ok tk) :
    tk.state.outPort = s.outPort := by
  rcases takeByte_state h with h | h | h <;> rw [h] <;> rfl

theorem putOut_reported (items : List Item) (r : Running) (s : State) :
    (putOut items r s).2.reported = s.reported := by
  rw [putOut_frame]
  rfl

/-! ### A stream served whole -/

/-- With every OUT item taken, a command at `q` in `u` has put so much that, with what it has still to put, it puts on
OUT, after `base`, what a command at the phase `ph` has to put. -/
def OnTheWay (ph : Phase) (base : List Item) (q : Running) (u : State) : Prop :=
  u.outRoom = none ∧ q.pend = [] ∧
  ∀ rest, q.phase.Puts rest → ∃ items, ph.Puts items ∧ u.outStream ++ rest = base ++ items

theorem takeByte_keeps_onTheWay {ph : Phase} {base : List Item} {b : Byte} {q : Running} {u : State} {tk : Taken}
    (h : OnTheWay ph base q u) (htk : takeByte b u q.phase = .ok tk) :
    OnTheWay ph base (putOut tk.out { q with phase := tk.phase } tk.state).1
      (putOut tk.out { q with phase := tk.phase } tk.state).2 := by
  obtain ⟨hu, hq, hputs⟩ := h
  obtain ⟨hroom, hout⟩ := Prod.mk.inj (takeByte_outPort htk)
  rw [putOut_none (hroom.trans hu)]
  refine ⟨hroom.trans hu, rfl, fun rest hrest => ?_⟩
  obtain ⟨items, hi, ho⟩ := hputs _ (takeByte_puts htk hrest)
  refine ⟨items, hi, ?_⟩
  simp only [hq, hout, List.nil_append, List.append_assoc]
  exact ho

/-- A command is served whole when its stream is offered with `End` and every OUT item is taken: it completes, every IN
item is taken, and OUT gets what the command has to put (R63). -/
theorem feed_served {bs : List Byte} {r : Running} {s t : State} (hroom : s.outRoom = none) (hp : r.pend = [])
    (h : feed true bs r s = .next t) :
    t.running = none ∧ t.inStream = ⟨[], false⟩ ∧ ∃ items, r.phase.Puts items ∧ t.outStream = s.outStream ++ items := by
  rcases feed_cases (OnTheWay r.phase s.outStream) (fun b q u tk hq _ htk => takeByte_keeps_onTheWay hq htk)
      ⟨hroom, hp, fun rest hrest => ⟨rest, hrest, rfl⟩⟩ h with
    ⟨bs', q, u, ⟨-, hq, -⟩, -, hq' | ⟨-, hend⟩⟩ | ⟨q, u, e, out, ⟨hu, hq, hputs⟩, -, -, he, hc⟩
  · exact absurd hq hq'
  · cases hend
  · obtain ⟨items, hi, ho⟩ := hputs out (takeEnd_puts he)
    rw [putOut_none hu, hq] at hc
    rcases conclude_cases hc with ⟨-, rfl⟩ | ⟨hne, -⟩
    · rw [finish_frame]
      exact ⟨rfl, rfl, items, hi, ho⟩
    · exact absurd rfl hne

/-- Settles O10: the engine, served whole, takes every IN item and puts what its starting phase still has to put, which
is nothing for `FSCAN`; the other commands and a rejection touch no stream. -/
theorem streamsAreFramed : Obligations.StreamsAreFramed := by
  intro s t d ⟨hin, hroom⟩
  have served {st0 : Stage} {ph : Phase} {u : State} (hu : u.inStream = ⟨d, true⟩) (hur : u.outRoom = none)
      (h : start st0 ph u = .next t) :
      t.running = none ∧ t.inStream = ⟨[], false⟩ ∧ ∃ items, ph.Puts items ∧ t.outStream = u.outStream ++ items := by
    rw [start, hu] at h
    exact feed_served hur rfl h
  refine ⟨fun h => ?_, fun i hi hl h => ?_, fun i hi h => ?_⟩
  · rw [exec_fscan] at h
    obtain ⟨hr, hs, items, rfl, ho⟩ := served (u := sessionClear s) hin hroom h
    exact ⟨hr, hs, ho.trans (List.append_nil _)⟩
  · have framed {ph : Phase} (hph : ∀ items, ph.Puts items → ∃ bytes, items = outItems bytes)
        (h : start s.stage ph s = .next t) : t.running = none ∧ t.inStream = ⟨[], false⟩ ∧
          ∃ bytes : List Byte, t.outStream = s.outStream ++ bytes.map .byte ++ [.eos] := by
      obtain ⟨hr, hs, items, hputs, ho⟩ := served hin hroom h
      obtain ⟨bytes, rfl⟩ := hph items hputs
      exact ⟨hr, hs, bytes, ho.trans (List.append_assoc ..).symm⟩
    rcases hi with rfl | rfl
    · rw [exec_encode_of_legal hl] at h
      exact framed (fun _ => id) h
    · rw [exec_decode_of_legal hl] at h
      refine framed (fun items hputs => ?_) h
      rcases decodeStart_cases s with hph | hph <;> rwa [hph] at hputs
  · rcases exec_cases h with ⟨-, rfl⟩ | ⟨hl, h⟩
    · exact ⟨rfl, rfl⟩
    rcases hi with rfl | rfl | rfl | hi
    · obtain rfl : t = _ := h
      exact ⟨rfl, rfl⟩
    · obtain rfl : t = _ := h
      exact ⟨rfl, rfl⟩
    · obtain ⟨codes, -, rfl⟩ := h
      exact ⟨rfl, rfl⟩
    · rw [hl] at hi
      cases hi

/-! ### A stream without `End` -/

/-- Without `End` a command never completes (R64): it is left running, still before `End`, and reports nothing. -/
theorem feed_without_end {bs : List Byte} {r : Running} {s t : State} (hph : ∀ e, r.phase ≠ .finishing e)
    (h : feed false bs r s = .next t) :
    (∃ r', t.running = some r' ∧ ∀ e, r'.phase ≠ .finishing e) ∧ t.inStream.ended = false ∧
      t.reported = s.reported := by
  rcases feed_cases (fun q u => (∀ e, q.phase ≠ .finishing e) ∧ u.reported = s.reported)
      (fun b q u tk hq _ htk => ⟨by simpa using takeByte_phase_ne_finishing hq.1 htk,
        (putOut_reported ..).trans ((takeByte_reported htk).trans hq.2)⟩) ⟨hph, rfl⟩ h with
    ⟨bs', q, u, ⟨hq, hu⟩, rfl, -⟩ | ⟨q, u, e, out, -, -, hend, -⟩
  · exact ⟨⟨q, rfl, hq⟩, rfl, hu⟩
  · cases hend

/-- Going on without `End` leaves the command running, still before `End`, and reports nothing (R64). -/
theorem resume_without_end {r : Running} {s t : State} (h : resume s = .next t) (hr : s.running = some r)
    (hph : ∀ e, r.phase ≠ .finishing e) (hend : s.inStream.ended = false) :
    (∃ r', t.running = some r' ∧ ∀ e, r'.phase ≠ .finishing e) ∧ t.inStream.ended = false ∧
      t.reported = s.reported := by
  rw [resume_of_running hr hph, hend] at h
  obtain ⟨hrun, hend', hrep⟩ := feed_without_end (by simpa using hph) h
  exact ⟨hrun, hend', hrep.trans (putOut_reported ..)⟩

/-- Settles O50: the only moves that reach a running command without `End` or a reset supply bytes or grant room, and
the engine then goes on without `End`. -/
theorem streamWithoutEndNeverCompletes : Obligations.StreamWithoutEndNeverCompletes := by
  intro s t r hr hph hend h hreset hsupply
  have key : (∃ r', t.running = some r' ∧ ∀ e, r'.phase ≠ .finishing e) ∧ t.inStream.ended = false ∧
      t.reported = s.reported := by
    rcases step_cases_of_running hr h with ht | ⟨bytes, last, rest, hm, -, hres⟩ | ⟨room, rest, -, hres⟩ | ⟨rest, hm⟩
    · rw [ht]
      exact ⟨⟨r, hr, hph⟩, hend, rfl⟩
    · cases last with
      | false => exact resume_without_end (s := { s with hostMoves := rest, inStream := _ }) hres hr hph rfl
      | true => exact absurd hm (hsupply bytes rest)
    · exact resume_without_end (s := { s with hostMoves := rest, outRoom := _ }) hres hr hph hend
    · exact absurd hm (hreset rest)
  simpa [State.reported] using key

/-! ### A host that takes no OUT item -/

/-- What stays while the host of a command that was at `s` takes no OUT item: the command owes output, and neither OUT
nor what is reported has changed. -/
def StallsAs (s : State) (q : Running) (u : State) : Prop :=
  OwesOutput q ∧ u.outPort = s.outPort ∧ u.reported = s.reported

theorem takeByte_keeps_stallsAs {s : State} {b : Byte} {q : Running} {u : State} {tk : Taken}
    (hroom : s.outRoom = some 0) (h : StallsAs s q u) (hp : q.pend = []) (htk : takeByte b u q.phase = .ok tk) :
    StallsAs s (putOut tk.out { q with phase := tk.phase } tk.state).1
      (putOut tk.out { q with phase := tk.phase } tk.state).2 := by
  obtain ⟨howes, hport, hrep⟩ := h
  have hport' : tk.state.outPort = s.outPort := (takeByte_outPort htk).trans hport
  rw [putOut_stalled _ _ ((congrArg Prod.fst hport').trans hroom), hp, List.nil_append]
  refine ⟨?_, hport', (takeByte_reported htk).trans hrep⟩
  have howes' : ¬ q.phase.Puts [] := by simpa [owesOutput_iff, hp] using howes
  refine owesOutput_of_puts howes' fun hi hputs => ?_
  have hall := takeByte_puts htk hputs
  rwa [hi] at hall

/-- While the host takes no OUT item, a command that owes output never completes (R64): it is left running and owing,
and neither OUT nor what it reports changes. -/
theorem feed_stalled {ended : Bool} {bs : List Byte} {r : Running} {s t : State} (hroom : s.outRoom = some 0)
    (howes : OwesOutput r) (h : feed ended bs r s = .next t) : ∃ r', t.running = some r' ∧ StallsAs s r' t := by
  rcases feed_cases (StallsAs s) (fun b q u tk hq hp htk => takeByte_keeps_stallsAs hroom hq hp htk)
      ⟨howes, rfl, rfl⟩ h with
    ⟨bs', q, u, hq, rfl, -⟩ | ⟨q, u, e, out, ⟨hq, hport, hrep⟩, hp, -, he, hc⟩
  · exact ⟨q, rfl, hq⟩
  · have hputs : ¬ q.phase.Puts [] := by simpa [owesOutput_iff, hp] using hq
    have hout : out ≠ [] := fun ho => hputs (ho ▸ takeEnd_puts he)
    rw [putOut_stalled _ _ ((congrArg Prod.fst hport).trans hroom), hp, List.nil_append] at hc
    rcases conclude_cases hc with ⟨hnil, -⟩ | ⟨-, rfl⟩
    · exact absurd hnil hout
    · exact ⟨_, rfl, .inl hout, hport, hrep⟩

/-- Going on while the host takes no OUT item leaves the command running and owing (R64). -/
theorem resume_stalled {r : Running} {s t : State} (h : resume s = .next t) (hr : s.running = some r)
    (hph : ∀ e, r.phase ≠ .finishing e) (hroom : s.outRoom = some 0) (howes : OwesOutput r) :
    ∃ r', t.running = some r' ∧ StallsAs s r' t := by
  rw [resume_of_running hr hph, putOut_stalled [] r hroom, List.append_nil] at h
  exact feed_stalled hroom howes h

/-- Settles O51: `ENCODE` and `DECODE` start owing their `End`, and the engine, stalled, keeps a command owing; of the
moves other than a reset or a `takeOut` only a supply of items reaches it. -/
theorem outputNeverTakenNeverCompletes : Obligations.OutputNeverTakenNeverCompletes := by
  have stalled {s t : State} (hroom : s.outRoom = some 0) (h : ∃ r', t.running = some r' ∧ StallsAs s r' t) :
      (∃ r, t.running = some r ∧ OwesOutput r) ∧ t.outRoom = some 0 ∧ t.outStream = s.outStream ∧
        t.result = s.result ∧ t.rinfo = s.rinfo ∧ t.record = s.record := by
    obtain ⟨r, hr, howes, hport, hrep⟩ := h
    obtain ⟨hroom', hout⟩ := Prod.mk.inj hport
    obtain ⟨hresult, hrest⟩ := Prod.mk.inj hrep
    obtain ⟨hrinfo, hrecord⟩ := Prod.mk.inj hrest
    exact ⟨⟨r, hr, howes⟩, hroom'.trans hroom, hout, hresult, hrinfo, hrecord⟩
  refine ⟨fun s t i hi hl hroom h => stalled hroom ?_, fun s t r hr howes hroom h hreset htake => stalled hroom ?_⟩
  · rcases hi with rfl | rfl
    · rw [exec_encode_of_legal hl] at h
      exact feed_stalled hroom (.inr trivial) h
    · rw [exec_decode_of_legal hl] at h
      refine feed_stalled hroom (.inr ?_) h
      rcases decodeStart_cases s with hph | hph <;> rw [hph] <;> trivial
  · rcases step_cases_of_running hr h with ht | ⟨bytes, last, rest, -, hend, hres⟩ | ⟨room, rest, hm, -⟩ | ⟨rest, hm⟩
    · rw [ht]
      exact ⟨r, hr, howes, rfl, rfl⟩
    · exact resume_stalled (s := { s with hostMoves := rest, inStream := _ }) hres hr
        ((endSupplied_eq_false_iff _ _).1 hend).2 hroom howes
    · exact absurd hm (htake room rest)
    · exact absurd hm (hreset rest)

end Sys2Proof.Machine
end

section
/-! PROOFS. Streams that stall (spec 20_memory.md R64, R74). A command that is served later, by further items at the IN
port or by further room at OUT, stands where it would stand had it been served at once. Every item and every ending
commutes with the service, so one induction over the stream covers both ports. -/

namespace Sys2Proof.Machine

/-! ### Service at the ports -/

/-- The room of a host that will take `room` OUT items and then says that it will take `extra` more; `none` is all of
them. -/
def moreRoom : Option Nat → Option Nat → Option Nat
  | some m, some k => some (k + m)
  | _, _ => none

@[simp] theorem moreRoom_none (room : Option Nat) : moreRoom none room = none := rfl

@[simp] theorem moreRoom_zero (room : Option Nat) : moreRoom (some 0) room = room := by
  cases room <;> rfl

/-- `s` with a change of what stands at its ports: the running command, the IN port and the host's room for OUT. -/
def State.mapPorts (run : Option Running → Option Running) (inS : InStream → InStream)
    (room : Option Nat → Option Nat) (s : State) : State :=
  { s with running := run s.running, inStream := inS s.inStream, outRoom := room s.outRoom }

/-- `s` after its host has supplied further bytes, `End` after them if `last`, and has granted `extra` room. -/
def State.serve (bytes : List Byte) (last : Bool) (extra : Option Nat) (s : State) : State :=
  s.mapPorts id (fun i => ⟨i.bytes ++ bytes, i.ended || last⟩) (moreRoom extra)

theorem serve_room (extra : Option Nat) (s : State) :
    s.serve [] false extra = { s with outRoom := moreRoom extra s.outRoom } := by
  simp [State.serve, State.mapPorts]

theorem serve_input (bytes : List Byte) (last : Bool) (s : State) :
    s.serve bytes last (some 0) = { s with inStream := ⟨s.inStream.bytes ++ bytes, s.inStream.ended || last⟩ } := by
  simp [State.serve, State.mapPorts]

/-! ### Items and endings -/

/-- No command looks at the ports to take a byte. -/
theorem takeByte_mapPorts (run : Option Running → Option Running) (inS : InStream → InStream)
    (room : Option Nat → Option Nat) (b : Byte) (s : State) (ph : Phase) :
    takeByte b (s.mapPorts run inS room) ph =
      (takeByte b s ph).map fun tk => { tk with state := tk.state.mapPorts run inS room } := by
  cases ph with
  | counting =>
    by_cases h : s.total = Config.lenLimit s.cntW
    · rw [takeByte, takeByte, scanByte_at_limit b h, scanByte_at_limit (s := s.mapPorts run inS room) b h]
      rfl
    · rw [takeByte, takeByte, scanByte_off_limit b h, scanByte_off_limit (s := s.mapPorts run inS room) b h]
      rfl
  | encoding bitbuf =>
    refine congrArg Except.ok ?_
    have hcode : (s.mapPorts run inS room).codeAt b = s.codeAt b := rfl
    unfold encodeByte
    rw [hcode]
    cases s.codeAt b <;> rfl
  | decoding c la =>
    have htree : (s.mapPorts run inS room).tree = s.tree := rfl
    cases la with
    | none => rfl
    | some p =>
      simp only [takeByte, decodeByte, htree]
      cases (walkBits s.tree c (bitsOf p)).stop with
      | none => rfl
      | some stop => cases stop <;> rfl
  | draining e | finishing e => rfl

theorem takeByte_serve {b : Byte} {s : State} {ph : Phase} {tk : Taken} {bytes : List Byte} {last : Bool}
    {extra : Option Nat} (h : takeByte b s ph = .ok tk) :
    takeByte b (s.serve bytes last extra) ph = .ok { tk with state := tk.state.serve bytes last extra } := by
  rw [State.serve, takeByte_mapPorts, h]
  rfl

/-- No command looks at the ports to end. -/
theorem takeEnd_mapPorts (run : Option Running → Option Running) (inS : InStream → InStream)
    (room : Option Nat → Option Nat) (s : State) (ph : Phase) :
    takeEnd (s.mapPorts run inS room) ph = takeEnd s ph := by
  cases ph <;> rfl

theorem finish_serve (e : Ending) (bytes : List Byte) (last : Bool) (extra : Option Nat) (s : State) :
    finish e (s.serve bytes last extra) = (finish e s).serve bytes last extra := by
  cases e <;> rfl

/-- Where the items go depends neither on the running command nor on the IN port. -/
theorem putOut_mapPorts (run : Option Running → Option Running) (inS : InStream → InStream) (items : List Item)
    (r : Running) (s : State) :
    putOut items r (s.mapPorts run inS id) = ((putOut items r s).1, (putOut items r s).2.mapPorts run inS id) := by
  unfold putOut State.mapPorts
  cases s.outRoom <;> rfl

/-- Nor does it depend on the phase. -/
theorem putOut_with_phase (ph : Phase) (items : List Item) (r : Running) (s : State) :
    putOut items { r with phase := ph } s = ({ (putOut items r s).1 with phase := ph }, (putOut items r s).2) := by
  unfold putOut
  cases s.outRoom <;> rfl

/-- Items put while the host stalls, and taken when it grants more room, are where a host with that room from the
start would have them. -/
theorem putOut_putOut_serve (bytes : List Byte) (last : Bool) (extra : Option Nat) (items : List Item) (r : Running)
    (s : State) :
    putOut [] (putOut items r s).1 ((putOut items r s).2.serve bytes last extra) =
      putOut items r (s.serve bytes last extra) := by
  unfold putOut State.serve State.mapPorts
  generalize r.pend ++ items = waiting
  cases s.outRoom with
  | none => cases extra <;> simp [moreRoom]
  | some k =>
    cases extra with
    | none => simp
    | some m =>
      rcases Nat.le_total waiting.length k with h | h
      · have hm : waiting.length ≤ k + m := Nat.le_add_right_of_le h
        have hroom : k - waiting.length + m = k + m - waiting.length := by omega
        simp [moreRoom, List.take_of_length_le, List.drop_of_length_le, h, hm, hroom]
      · have hroom : m - (waiting.length - k) = k + m - waiting.length := by omega
        simp [moreRoom, Nat.sub_eq_zero_of_le h, List.take_add, hroom]

/-! ### The engine -/

theorem conclude_mapPorts (run : Option Running → Option Running) (inS : InStream → InStream) (e : Ending)
    (r : Running) (s : State) : conclude e r (s.mapPorts run inS id) = conclude e r s := by
  unfold conclude
  split
  · cases e <;> rfl
  · rfl

/-- The engine runs over the bytes it is given, whatever command is noted as running and whatever stands at the IN
port. -/
theorem feed_mapPorts (run : Option Running → Option Running) (inS : InStream → InStream) (ended : Bool)
    (bs : List Byte) (r : Running) (s : State) : feed ended bs r (s.mapPorts run inS id) = feed ended bs r s := by
  induction bs generalizing r s with
  | nil =>
    simp only [feed, takeEnd_mapPorts, putOut_mapPorts, conclude_mapPorts]
    rfl
  | cons b bs ih =>
    rw [feed, feed, takeByte_mapPorts]
    cases takeByte b s r.phase with
    | error f => rfl
    | ok tk =>
      simp only [Except.map, putOut_mapPorts, ih]
      rfl

/-- A command that has taken `End` and is granted room later ends as it would have with that room at once. -/
theorem resume_conclude {e : Ending} {r : Running} {s t : State} (extra : Option Nat) (h : conclude e r s = .next t) :
    resume (t.serve [] false extra) =
      conclude e (putOut [] r (s.serve [] false extra)).1 (putOut [] r (s.serve [] false extra)).2 := by
  rcases conclude_cases h with ⟨hp, rfl⟩ | ⟨-, rfl⟩
  · rw [putOut_nil_of_pend_nil _ hp, conclude, hp, ← finish_serve]
    cases e <;> rfl
  · have hserve : State.serve [] false extra
          { s with running := some { r with phase := .finishing e }, inStream := InStream.nothing } =
        (s.serve [] false extra).mapPorts (fun _ => some { r with phase := .finishing e })
          (fun _ => InStream.nothing) id := rfl
    rw [hserve, resume_of_finishing (r := { r with phase := .finishing e }) rfl rfl rfl, putOut_with_phase,
      putOut_mapPorts, conclude_mapPorts]
    rfl

/-- A command that waits and is served later goes on as it would have, served at once. -/
theorem resume_park {r : Running} (d d' : List Byte) (ended last : Bool) (extra : Option Nat) (s : State)
    (hph : ∀ e, r.phase ≠ .finishing e) :
    resume (State.serve d' last extra { s with running := some r, inStream := ⟨d, ended⟩ }) =
      feed (ended || last) (d ++ d') (putOut [] r (s.serve d' last extra)).1
        (putOut [] r (s.serve d' last extra)).2 := by
  rw [resume_of_running (r := r) rfl hph]
  have hserve : State.serve d' last extra { s with running := some r, inStream := ⟨d, ended⟩ } =
      (s.serve d' last extra).mapPorts (fun _ => some r) (fun _ => ⟨d ++ d', ended || last⟩) id := rfl
  rw [hserve, putOut_mapPorts, feed_mapPorts]
  rfl

/-- A command that waits for its host and is served later stands where it would have stood, served at once: whatever
the bytes, whether `End` follows, and whatever room is granted. Nothing is supplied after `End` (R348). -/
theorem resume_feed {ended last : Bool} {d d' : List Byte} {extra : Option Nat} {r : Running} {s t : State}
    (hph : ∀ e, r.phase ≠ .finishing e) (hend : ended = true → d' = [] ∧ last = false)
    (h : feed ended d r s = .next t) :
    resume (t.serve d' last extra) =
      feed (ended || last) (d ++ d') (putOut [] r (s.serve d' last extra)).1
        (putOut [] r (s.serve d' last extra)).2 := by
  induction d generalizing r s with
  | nil =>
    rw [feed] at h
    split at h
    · rename_i hc
      obtain ⟨hp, rfl⟩ : r.pend = [] ∧ ended = true := by simpa using hc
      obtain ⟨rfl, rfl⟩ := hend rfl
      split at h
      · cases h
      · rename_i e out he
        have he' : takeEnd (s.serve [] false extra) r.phase = .ok (e, out) := (takeEnd_mapPorts ..).trans he
        rw [resume_conclude extra h, putOut_putOut_serve, putOut_nil_of_pend_nil _ hp]
        exact (feed_nil_of_end hp he').symm
    · cases h
      exact resume_park [] d' ended last extra s hph
  | cons b bs ih =>
    rw [feed] at h
    split at h
    · rename_i hp
      rw [List.isEmpty_iff] at hp
      split at h
      · cases h
      · rename_i tk htk
        rw [ih (by simpa using takeByte_phase_ne_finishing hph htk) h, putOut_putOut_serve,
          putOut_nil_of_pend_nil _ hp]
        exact (feed_cons_of_taken hp (takeByte_serve htk)).symm
    · cases h
      exact resume_park (b :: bs) d' ended last extra s hph

/-! ### Commands -/

/-- Started over what the IN port offers, a command served later is a command served at once. -/
theorem start_serve {st0 : Stage} {ph : Phase} {bytes : List Byte} {last : Bool} {extra : Option Nat} {s t : State}
    (hph : ∀ e, ph ≠ .finishing e) (hend : s.inStream.ended = true → bytes = [] ∧ last = false)
    (h : start st0 ph s = .next t) :
    resume (t.serve bytes last extra) = start st0 ph (s.serve bytes last extra) := by
  rw [resume_feed hph hend h, putOut_nil_of_pend_nil _ rfl]
  rfl

/-- A command that is served after it was issued gives what it would have given, served at once. -/
theorem exec_serve {i : Instr} {bytes : List Byte} {last : Bool} {extra : Option Nat} {s t : State}
    (h : exec i s = .next t) (hend : s.inStream.ended = true → bytes = [] ∧ last = false) :
    resume (t.serve bytes last extra) = exec i (s.serve bytes last extra) := by
  have hstage : (s.serve bytes last extra).stage = s.stage := rfl
  cases hl : Instr.legalAt i s.stage with
  | false =>
    rw [exec_of_illegal hl] at h
    cases h
    rw [exec_of_illegal (hstage ▸ hl), resume_of_idle rfl]
    rfl
  | true =>
    cases i with
    | clear =>
      cases h
      rfl
    | tbuild =>
      rw [exec, execTbuild, ifLegal_of_legal hl] at h
      cases h
      rw [exec, execTbuild, ifLegal_of_legal (hstage ▸ hl), resume_of_idle rfl]
      rfl
    | cassign =>
      rw [exec, execCassign, ifLegal_of_legal hl] at h
      have hcodes : assignCodes (s.serve bytes last extra).tree (s.serve bytes last extra).code =
          assignCodes s.tree s.code := rfl
      rw [exec, execCassign, ifLegal_of_legal (hstage ▸ hl), hcodes]
      split at h <;> cases h
      rfl
    | fscan =>
      rw [exec_fscan] at h ⊢
      exact start_serve (s := sessionClear s) nofun hend h
    | encode =>
      rw [exec_encode_of_legal hl] at h
      rw [exec_encode_of_legal (hstage ▸ hl)]
      exact start_serve nofun hend h
    | decode =>
      rw [exec_decode_of_legal hl] at h
      rw [exec_decode_of_legal (hstage ▸ hl)]
      exact start_serve (decodeStart_ne_finishing s) hend h

/-- An accepted streaming command with no `End` yet waits for it. -/
theorem exec_without_end {i : Instr} {s t : State} (h : exec i s = .next t)
    (hi : Instr.takesStream i = true) (hl : Instr.legalAt i s.stage = true) (hend : s.inStream.ended = false) :
    ∃ r, t.running = some r ∧ endSupplied r t = false := by
  have waits {st0 : Stage} {ph : Phase} {u : State} (h : start st0 ph u = .next t)
      (hph : ∀ e, ph ≠ .finishing e) (hu : u.inStream.ended = false) :
      ∃ r, t.running = some r ∧ endSupplied r t = false := by
    rw [start, hu] at h
    obtain ⟨⟨r, hr, hph'⟩, hend', -⟩ := feed_without_end hph h
    exact ⟨r, hr, (endSupplied_eq_false_iff r t).2 ⟨hend', hph'⟩⟩
  cases i with
  | clear | tbuild | cassign => cases hi
  | fscan =>
    rw [exec_fscan] at h
    exact waits h nofun hend
  | encode =>
    rw [exec_encode_of_legal hl] at h
    exact waits h nofun hend
  | decode =>
    rw [exec_decode_of_legal hl] at h
    exact waits h (decodeStart_ne_finishing s) hend

/-- Settles O53: the room a host grants later is the room it could have granted at once, for every command. -/
theorem stalledOutputChangesNoResult : Obligations.StalledOutputChangesNoResult := by
  refine ⟨fun s t i k d ended h => ?_, fun s room rest hr hm => ?_⟩
  · have served (extra : Option Nat) := exec_serve (extra := extra) h fun _ => ⟨rfl, rfl⟩
    simp only [serve_room] at served
    refine ⟨served none, fun hroom m => ?_⟩
    have hm := served (some m)
    rwa [hroom, moreRoom, Nat.zero_add] at hm
  · rw [step_of_move hm]
    exact resume_of_idle hr

/-- Settles O52: a piece supplied later is a piece supplied at once, and an accepted command that has had no `End` still
waits for it; what no command takes is refused as `supplyIn` says. -/
theorem piecewiseSupplyChangesNoResult : Obligations.PiecewiseSupplyChangesNoResult := by
  refine ⟨fun s t i d₁ d₂ last hi hl h => ?_, fun s bytes last rest hm => ?_⟩
  · have served := exec_serve (bytes := d₂) (last := last) (extra := some 0) h nofun
    obtain ⟨r, hr, hend⟩ := exec_without_end h hi hl rfl
    simp only [serve_input, ((endSupplied_eq_false_iff r t).1 hend).1, Bool.false_or] at served
    rw [hostMove]
    rcases supplyIn_cases d₂ last t with ⟨rfl, rfl, he⟩ | ⟨-, ⟨hn, -⟩ | ⟨q, hq, ⟨hend', -⟩ | ⟨-, he⟩⟩⟩
    · rw [he, ← h, List.append_nil]
    · cases hr.symm.trans hn
    · obtain rfl : r = q := Option.some.inj (hr.symm.trans hq)
      cases hend.symm.trans hend'
    · exact he.trans served
  · rw [step_of_move hm, hostMove]
    refine ⟨fun ⟨hb, hl⟩ => ?_, fun hsome hr => ?_, fun hsome r hr hend => ?_⟩
    · rw [hb, hl]
      rfl
    · exact supplyIn_of_idle hsome hr
    · exact supplyIn_after_end hsome hr ((endSupplied_iff _ _).2 hend)

end Sys2Proof.Machine
end

section
/-! PROOFS. `ENCODE` of a coded stream (spec 30_encoding.md R98, 44_encoder.md R211 to R217). Each flush takes whole
bytes off the front of the bit stream, so what is put and what the buffer and the bytes to come still give is always
the packed stream. -/

namespace Sys2Proof.Machine

/-! ### The packed stream -/

@[simp] theorem codeBits_nil (s : State) : codeBits s [] = [] := rfl

theorem codeBits_cons {s : State} {b : Byte} {c : Bits} (d : List Byte) (h : s.codeAt b = some c) :
    codeBits s (b :: d) = c ++ codeBits s d := by
  simp [codeBits, h]

theorem padFor_add_eight (t : Nat) : padFor (8 + t) = padFor t := by
  simp [padFor]

@[simp] theorem length_packed (bits : Bits) : (packed bits).length = (bits.length + 7) / 8 := by
  simp [packed, packedBytes]

/-- Eight bits in front of a sequence are one byte in front of its packed stream. -/
theorem packed_append_of_length_eight {bs : Bits} (h : bs.length = 8) (bits : Bits) :
    packed (bs ++ bits) = byteOf bs :: packed bits := by
  have hl : ((bs ++ bits).length + 7) / 8 = (bits.length + 7) / 8 + 1 := by
    rw [List.length_append]
    omega
  rw [packed, hl, packedBytes_succ, List.length_append, h, padFor_add_eight, List.append_assoc, List.take_left' h,
    List.drop_left' h, packed]

/-- A flush (R212) takes the first bytes off the packed stream, whatever bits follow the buffer. -/
theorem packed_append_eq_flush (buf bits : Bits) :
    packed (buf ++ bits) = (flush buf).1 ++ packed ((flush buf).2 ++ bits) := by
  induction buf using flush.induct with
  | case1 x0 x1 x2 x3 x4 x5 x6 x7 rest ih =>
    have hcons := packed_append_of_length_eight (bs := [x0, x1, x2, x3, x4, x5, x6, x7]) rfl (rest ++ bits)
    rw [flush]
    exact hcons.trans (congrArg _ ih)
  | case2 buf h =>
    rw [flush]
    · rfl
    · exact h

/-- A flush (R212) takes whole bytes of bits. -/
theorem padFor_append_eq_flush (buf bits : Bits) :
    padFor (buf ++ bits).length = padFor ((flush buf).2 ++ bits).length := by
  rw [flush_eq, List.length_append, List.length_append, List.length_drop]
  unfold padFor
  omega

/-- The last bits, padded with 0 bits, are the last byte (R214). -/
theorem encodeEnd_eq {buf : Bits} (h : buf.length ≤ 7) :
    encodeEnd buf = (.encoded (BitVec.ofNat 3 (padFor buf.length)), outItems (packed buf)) := by
  unfold encodeEnd
  split
  · rename_i h0
    obtain rfl := List.length_eq_zero_iff.1 h0
    rfl
  · rename_i h0
    have hn : (buf.length + 7) / 8 = 1 := by omega
    have hp : padFor buf.length = 8 - buf.length := by
      unfold padFor
      omega
    rw [packed, hn, hp, packedBytes_succ, List.take_of_length_le (by simp [zeros]; omega)]
    rfl

/-! ### The engine -/

/-- Over coded bytes `ENCODE` puts the packed stream of its buffer's bits and the bytes' codes (R98). -/
theorem feed_encoding {st0 : Stage} {s : State} {d : List Byte} {buf : Bits} (hroom : s.outRoom = none)
    (hd : AllCoded s d) (hbuf : buf.length ≤ 7) :
    feed true d ⟨st0, .encoding buf, []⟩ s = .next (finish
      (.encoded (BitVec.ofNat 3 (padFor (buf ++ codeBits s d).length)))
      { s with
        inStream := InStream.nothing, outStream := s.outStream ++ outItems (packed (buf ++ codeBits s d)) }) := by
  induction d generalizing s buf with
  | nil =>
    have hend : takeEnd s (.encoding buf) = .ok (_, _) := congrArg Except.ok (encodeEnd_eq hbuf)
    rw [feed_nil_of_end rfl hend, putOut_none hroom, codeBits_nil, List.append_nil]
    rfl
  | cons b d ih =>
    obtain ⟨c, hc⟩ := Option.ne_none_iff_exists'.1 (hd b List.mem_cons_self)
    have htake : takeByte b s (.encoding buf) =
        .ok ⟨s, .encoding (flush (buf ++ c)).2, (flush (buf ++ c)).1.map .byte⟩ := by
      simp [takeByte, encodeByte, hc]
    have hpacked : packed (buf ++ codeBits s (b :: d)) =
        (flush (buf ++ c)).1 ++ packed ((flush (buf ++ c)).2 ++ codeBits s d) := by
      rw [codeBits_cons d hc, ← List.append_assoc, packed_append_eq_flush]
    have hpad : padFor (buf ++ codeBits s (b :: d)).length =
        padFor ((flush (buf ++ c)).2 ++ codeBits s d).length := by
      rw [codeBits_cons d hc, ← List.append_assoc, padFor_append_eq_flush]
    rw [feed_cons_of_taken rfl htake, putOut_none hroom, hpacked, hpad, ← map_byte_append_outItems,
      ← List.append_assoc s.outStream (List.map .byte _)]
    exact ih (s := { s with outStream := s.outStream ++ (flush (buf ++ c)).1.map .byte }) hroom
      (fun v hv => hd v (List.mem_cons_of_mem _ hv)) (flush_rest_length (buf ++ c))

/-- `ENCODE` of a stream every byte of which has a code (R98, R216). -/
theorem exec_encode_of_allCoded {s : State} {d : List Byte} (hst : s.stage = .assigned ∨ s.stage = .encoded)
    (hs : HostServes s d) (hd : AllCoded s d) :
    exec .encode s = .next { s with
      stage := .encoded, pad := BitVec.ofNat 3 (padFor (codeBits s d).length), result := .ok, rinfo := 0,
      running := none, inStream := ⟨[], false⟩, outStream := s.outStream ++ outItems (packed (codeBits s d)),
      record := s.record ++ [(.ok, 0)] } := by
  obtain ⟨hin, hroom⟩ := hs
  rw [exec_encode_of_legal ((legalAt_iff .encode _).2 hst), start, hin]
  exact feed_encoding hroom hd (Nat.zero_le _)

/-! ### The bits of OUT -/

theorem getD_append_zeros (bits : Bits) (k i : Nat) : (bits ++ zeros k).getD i false = bits.getD i false := by
  rcases Nat.lt_or_ge i bits.length with h | h
  · rw [List.getD_append _ _ _ _ h]
  · rw [List.getD_append_right _ _ _ _ h, List.getD_eq_default _ _ h]
    simp [zeros]

/-- Bit i of a sequence of whole bytes is bit `7 - (i mod 8)` of byte `i div 8` (R65). -/
theorem getLsbD_packedBytes {n : Nat} {bits : Bits} (hlen : bits.length = 8 * n) (i : Nat) :
    ((packedBytes n bits).getD (i / 8) 0).getLsbD (7 - i % 8) = bits.getD i false := by
  rcases Nat.lt_or_ge (i / 8) n with h | h
  · have hi : i < bits.length := by omega
    have hbyte : ((bits.drop (8 * (i / 8))).take 8).length = 8 := by
      rw [List.length_take, List.length_drop]
      omega
    have hslice : (packedBytes n bits).getD (i / 8) 0 = byteOf ((bits.drop (8 * (i / 8))).take 8) := by
      simp [packedBytes, h]
    rw [hslice, getLsbD_byteOf_eq_getElem hbyte (by omega), List.getElem_take, List.getElem_drop,
      List.getD_eq_getElem _ _ hi]
    simp only [Nat.div_add_mod]
  · rw [List.getD_eq_default _ _ (by simpa [packedBytes] using h), List.getD_eq_default _ _ (by omega)]
    exact BitVec.getLsbD_zero

/-- The pad fills the last byte (R98). -/
theorem length_append_zeros_padFor (bits : Bits) :
    (bits ++ zeros (padFor bits.length)).length = 8 * ((bits.length + 7) / 8) := by
  simp only [List.length_append, zeros, List.length_replicate, padFor]
  omega

/-- Bit i of a sequence is bit `7 - (i mod 8)` of byte `i div 8` of its packed stream, which holds 0 bits past the end
of the sequence (R65, R66). -/
theorem getLsbD_packed (bits : Bits) (i : Nat) :
    ((packed bits).getD (i / 8) 0).getLsbD (7 - i % 8) = bits.getD i false := by
  rw [packed, getLsbD_packedBytes (length_append_zeros_padFor bits), getD_append_zeros]

/-- The pad bits are the low bits of the last byte of a packed stream, and each is 0 (R66). -/
theorem getLsbD_packed_last {bits : Bits} {j : Nat} (h : j < padFor bits.length) :
    ((packed bits).getLastD 0).getLsbD j = false := by
  unfold padFor at h
  have hbit := getLsbD_packed bits (8 * ((bits.length + 7) / 8) - 1 - j)
  have hbyte : (8 * ((bits.length + 7) / 8) - 1 - j) / 8 = (packed bits).length - 1 := by
    rw [length_packed]
    omega
  have hlow : 7 - (8 * ((bits.length + 7) / 8) - 1 - j) % 8 = j := by omega
  rw [hbyte, hlow, List.getD_eq_default bits _ (by omega)] at hbit
  rwa [List.getLastD_eq_getLast?, List.getLast?_eq_getElem?, ← List.getD_eq_getElem?_getD]

/-- Settles O36: `ENCODE` puts the packed stream of the code bits, and past their end the packed stream holds 0 bits. -/
theorem encodeBitOrderAndPadBits : Obligations.EncodeBitOrderAndPadBits := by
  intro s d hst hs hd
  have hpad : (BitVec.ofNat 3 (padFor (codeBits s d).length)).toNat = padFor (codeBits s d).length :=
    (BitVec.toNat_ofNat ..).trans (Nat.mod_eq_of_lt (Nat.mod_lt _ (by decide)))
  exact ⟨_, packed (codeBits s d), exec_encode_of_allCoded hst hs hd, (List.append_assoc ..).symm,
    fun i _ => getLsbD_packed _ i, fun j hj => getLsbD_packed_last (hj.trans_eq hpad)⟩

end Sys2Proof.Machine
end

section
/-! PROOFS. The statements of 30_encoding.md: the opcode map (R91), that decoding and encoding agree (R90), and the
packed stream an `ENCODE` puts (R98). The map is one equivalence, `decodeWord_eq_ok_iff`: a word is its two fields, and
it decodes to the command whose fields they are. -/

namespace Sys2Proof.Machine

/-! ### The fields of a word -/

/-- R90: the field `zero` above the field `op` is the whole word. -/
theorem zeroField_append_opField (w : Byte) : zeroField w ++ opField w = w :=
  (BitVec.extractLsb'_append_extractLsb'_eq_extractLsb' rfl).trans BitVec.extractLsb'_eq_self

theorem encodeWord_eq_of_fields {w : Byte} {i : Instr} (hz : zeroField w = 0) (hop : opField w = opOf i) :
    encodeWord i = w := by
  rw [encodeWord, ← hz, ← hop, zeroField_append_opField]

/-! ### The opcode map -/

/-- What the decoder accepts has the field `zero` at 0 and the command's operation number in the field `op`. -/
theorem fields_of_decodeWord {w : Byte} {i : Instr} (h : decodeWord w = .ok i) :
    zeroField w = 0 ∧ opField w = opOf i := by
  unfold decodeWord at h
  split at h
  · cases h
  · rename_i hz
    refine ⟨not_not.1 hz, ?_⟩
    split at h <;> cases h <;> assumption

@[simp] theorem decodeWord_encodeWord (i : Instr) : decodeWord (encodeWord i) = .ok i := by
  cases i <;> rfl

/-- R90, R91: a word decodes to a command exactly when it is the command's word. -/
theorem decodeWord_eq_ok_iff {w : Byte} {i : Instr} : decodeWord w = .ok i ↔ encodeWord i = w := by
  constructor
  · intro h
    obtain ⟨hz, hop⟩ := fields_of_decodeWord h
    exact encodeWord_eq_of_fields hz hop
  · rintro rfl
    exact decodeWord_encodeWord i

/-- R91: the words of commands are 0x00 to 0x05. -/
theorem exists_encodeWord_eq_iff (w : Byte) : (∃ i, encodeWord i = w) ↔ w.toNat ≤ 5 := by
  constructor
  · rintro ⟨i, rfl⟩
    cases i <;> decide
  · intro h
    have hw : BitVec.ofNat 8 w.toNat = w := BitVec.ofNat_toNat 8 w
    rw [← hw]
    interval_cases w.toNat
    exacts [⟨.clear, rfl⟩, ⟨.fscan, rfl⟩, ⟨.tbuild, rfl⟩, ⟨.cassign, rfl⟩, ⟨.encode, rfl⟩, ⟨.decode, rfl⟩]

/-- Settles O1: each of the six words is the word of its command, and there are no others. -/
theorem commandWordsDecodeAsTheMapSays : Obligations.CommandWordsDecodeAsTheMapSays :=
  ⟨decodeWord_encodeWord .clear, decodeWord_encodeWord .fscan, decodeWord_encodeWord .tbuild,
    decodeWord_encodeWord .cassign, decodeWord_encodeWord .encode, decodeWord_encodeWord .decode, fun w => by
    simp only [decodeWord_eq_ok_iff, exists_encodeWord_eq_iff]⟩

/-- Settles O2: the decoder reads a command's one byte, and accepts a word only as the command whose word it is. -/
theorem decodeAndEncodeAgree : Obligations.DecodeAndEncodeAgree :=
  ⟨fun i rest => by simp [encodeBytes, decodeBytes], fun _ _ => decodeWord_eq_ok_iff.1⟩

/-! ### `ENCODE` -/

/-- Settles O33: what is put, and what the bit buffer and the bytes to come still give, is always the packed stream. -/
theorem encodePutsThePackedStream : Obligations.EncodePutsThePackedStream :=
  fun _ _ => exec_encode_of_allCoded

end Sys2Proof.Machine
end

section
/-! PROOFS. The completion of commands (spec 40_command_dispatch.md R122 to R124): the results and stages of the
completion table, the one result each completion reports, and `CLEAR`. For the streaming commands both are inductions
over the stream by `feed_cases`: the first keeps which command runs and the stage it works at, the second that nothing
has been reported yet. -/

namespace Sys2Proof.Machine

/-! ### `CLEAR` -/

/-- Settles O13: the stage check lets `CLEAR` pass at every stage, and it is `SessionClear()` and a completion. -/
theorem clearCompletes : Obligations.ClearCompletes := fun s =>
  ifLegal_of_legal (i := .clear) (s := s) (run := fun s => .next (sessionClear s).completeOk) rfl

/-! ### The completion table -/

/-- The command that can end so. -/
def Ending.command : Ending → Instr
  | .scanned | .overflowed => .fscan
  | .encoded _ | .unknownSym _ => .encode
  | .decoded | .dangling | .badBit => .decode

/-- The command that can stand at this phase. -/
def Phase.command : Phase → Instr
  | .counting => .fscan
  | .encoding _ => .encode
  | .decoding _ _ => .decode
  | .draining e | .finishing e => e.command

/-- The stage in which a streaming command works, where its endings leave the stage as it is: `FSCAN` on a session it
has cleared (R142, R144), `DECODE` on an encoded one (R121). -/
def Instr.WorksAt (i : Instr) (st : Stage) : Prop :=
  match i with
  | .fscan => st = .cleared
  | .decode => st = .encoded
  | _ => True

/-- A command at this phase of this session can be `i`, and the stage is one `i` works at. -/
def AtWork (i : Instr) (ph : Phase) (s : State) : Prop := ph.command = i ∧ Instr.WorksAt i s.stage

/-- The completed command `i` has left a result and a stage that the table lists together (R122). -/
def Instr.MeetsTable (i : Instr) (t : State) : Prop :=
  match i with
  | .clear => t.result = .ok ∧ t.stage = .cleared
  | .fscan => (t.result = .ok ∧ t.stage = .counted) ∨ (t.result = .countOvf ∧ t.stage = .cleared)
  | .tbuild => t.result = .ok ∧ t.stage = .built
  | .cassign => t.result = .ok ∧ t.stage = .assigned
  | .encode => (t.result = .ok ∧ t.stage = .encoded) ∨ (t.result = .unknownSym ∧ t.stage = .assigned)
  | .decode => (t.result = .ok ∨ t.result = .dangling ∨ t.result = .badBit) ∧ t.stage = .encoded

theorem takeByte_keeps_atWork {i : Instr} {b : Byte} {s : State} {ph : Phase} {tk : Taken} (h : AtWork i ph s)
    (htk : takeByte b s ph = .ok tk) : AtWork i tk.phase tk.state := by
  obtain ⟨rfl, hst⟩ := h
  cases ph with
  | counting =>
    cases htk
    by_cases hl : s.total = Config.lenLimit s.cntW
    · rw [scanByte_at_limit b hl]
      exact ⟨rfl, rfl⟩
    · rw [scanByte_off_limit b hl]
      exact ⟨rfl, hst⟩
  | encoding bitbuf =>
    simp only [takeByte, encodeByte] at htk
    split at htk <;> cases htk <;> exact ⟨rfl, trivial⟩
  | decoding c la =>
    obtain ⟨hs, ⟨bits, hp⟩ | hp⟩ := decodeByte_cases htk <;> rw [hs, hp] <;> exact ⟨rfl, hst⟩
  | draining e | finishing e =>
    cases htk
    exact ⟨rfl, hst⟩

/-- Putting items on OUT changes neither the phase nor the stage. -/
theorem AtWork.putOut {i : Instr} {r : Running} {s : State} (h : AtWork i r.phase s) (items : List Item) :
    AtWork i (putOut items r s).1.phase (putOut items r s).2 := by
  rw [(putOut_phase items r s).1, putOut_frame]
  exact h

/-- At `End` a command ends in a way of its own. -/
theorem takeEnd_command {s : State} {ph : Phase} {e : Ending} {out : List Item} (h : takeEnd s ph = .ok (e, out)) :
    e.command = ph.command := by
  cases ph with
  | counting | draining | finishing =>
    cases h
    rfl
  | encoding bitbuf =>
    obtain ⟨p, hp⟩ := encodeEnd_fst bitbuf
    have he : (encodeEnd bitbuf).1 = e := congrArg Prod.fst (Except.ok.inj h)
    rw [← he, hp]
    rfl
  | decoding c la => rcases decodeEnd_cases h with rfl | rfl | rfl <;> rfl

/-- However a command ends, its result and the stage are listed in the table (R122). -/
theorem finish_meetsTable {e : Ending} {s : State} (h : Instr.WorksAt e.command s.stage) :
    Instr.MeetsTable e.command (finish e s) := by
  cases e with
  | scanned | encoded p => exact .inl ⟨rfl, rfl⟩
  | overflowed => exact .inr ⟨rfl, h⟩
  | unknownSym b => exact .inr ⟨rfl, rfl⟩
  | decoded => exact ⟨.inl rfl, h⟩
  | dangling => exact ⟨.inr (.inl rfl), h⟩
  | badBit => exact ⟨.inr (.inr rfl), h⟩

/-- A command that completes in the engine completes as the table lists. -/
theorem feed_meetsTable {i : Instr} {ended : Bool} {bs : List Byte} {r : Running} {s t : State}
    (h : AtWork i r.phase s) (hf : feed ended bs r s = .next t) (hr : t.running = none) : Instr.MeetsTable i t := by
  rcases feed_cases (fun q u => AtWork i q.phase u)
      (fun b q u tk hq _ htk => AtWork.putOut (r := { q with phase := tk.phase }) (takeByte_keeps_atWork hq htk) tk.out)
      h hf with
    ⟨bs', q, u, -, rfl, -⟩ | ⟨q, u, e, out, hq, -, -, he, hc⟩
  · cases hr
  · rcases conclude_cases hc with ⟨-, rfl⟩ | ⟨-, rfl⟩
    · obtain ⟨rfl, hst⟩ := hq.putOut out
      rw [(putOut_phase out q u).1, ← takeEnd_command he] at hst ⊢
      exact finish_meetsTable (s := { (putOut out q u).2 with inStream := _ }) hst
    · cases hr

/-- Settles O7: a rejection leaves the stage, the commands without a stream write their row of the table, and the others
complete in the engine. -/
theorem stageMovesOnlyByTheTable : Obligations.StageMovesOnlyByTheTable := by
  intro i s t h hr
  rcases exec_cases h with ⟨hl, rfl⟩ | ⟨hl, ht⟩
  · exact .inl ⟨rfl, rfl, hl⟩
  suffices hmeets : Instr.MeetsTable i t from .inr ⟨hl, hmeets⟩
  rw [legalAt_iff] at hl
  cases i with
  | clear | tbuild =>
    obtain rfl : t = _ := ht
    exact ⟨rfl, rfl⟩
  | cassign =>
    obtain ⟨codes, -, rfl⟩ := ht
    exact ⟨rfl, rfl⟩
  | fscan => exact feed_meetsTable (s := sessionClear s) ⟨rfl, rfl⟩ ht hr
  | encode => exact feed_meetsTable ⟨rfl, trivial⟩ ht hr
  | decode => rcases ht with ⟨-, ht⟩ | ⟨-, ht⟩ <;> exact feed_meetsTable ⟨rfl, hl⟩ ht hr

/-! ### One result for each completion -/

/-- From `s` to `t` a command has either completed, with one pair joining the record, or waits and has reported nothing
(R124, R308, R349). -/
def ReportsOnce (s t : State) : Prop :=
  (t.running = none ∧ t.record = s.record ++ [(t.result, t.rinfo)] ∧ (t.result = .ok → t.rinfo = 0)) ∨
  (t.running ≠ none ∧ t.record = s.record ∧ t.result = s.result ∧ t.rinfo = s.rinfo)

theorem complete_reportsOnce {s u : State} (hu : u.record = s.record) {r : ResultCode} {info : Byte}
    (h : r = .ok → info = 0) : ReportsOnce s (u.complete r info) :=
  .inl ⟨rfl, congrArg (· ++ _) hu, h⟩

/-- Every way a command ends is one completion. -/
theorem finish_reportsOnce {s u : State} (hu : u.record = s.record) (e : Ending) : ReportsOnce s (finish e u) := by
  cases e with
  | scanned | encoded | decoded => exact complete_reportsOnce hu fun _ => rfl
  | overflowed | unknownSym | dangling | badBit => exact complete_reportsOnce hu nofun

/-- A command left running that has reported nothing. -/
theorem reportsOnce_of_running {s t : State} (hr : t.running ≠ none) (h : t.reported = s.reported) :
    ReportsOnce s t := by
  obtain ⟨hresult, hrest⟩ := Prod.mk.inj h
  obtain ⟨hrinfo, hrecord⟩ := Prod.mk.inj hrest
  exact .inr ⟨hr, hrecord, hresult, hrinfo⟩

/-- Taking and putting items reports nothing, so what the engine reports is the one completion, if it comes to it. -/
theorem feed_reportsOnce {ended : Bool} {bs : List Byte} {r : Running} {s t : State}
    (h : feed ended bs r s = .next t) : ReportsOnce s t := by
  rcases feed_cases (fun _ u => u.reported = s.reported)
      (fun b q u tk hu _ htk => (putOut_reported ..).trans ((takeByte_reported htk).trans hu)) rfl h with
    ⟨bs', q, u, hu, rfl, -⟩ | ⟨q, u, e, out, hu, -, -, -, hc⟩
  · exact reportsOnce_of_running nofun hu
  · have hput : (putOut out q u).2.reported = s.reported := (putOut_reported ..).trans hu
    rcases conclude_cases hc with ⟨-, rfl⟩ | ⟨-, rfl⟩
    · exact finish_reportsOnce (congrArg (·.2.2) hput) e
    · exact reportsOnce_of_running nofun hput

/-- Settles O8: a rejection and the commands without a stream are one completion each, and the others report in the
engine. -/
theorem everyCompletionReportsOneResult : Obligations.EveryCompletionReportsOneResult := by
  intro i s t h
  rcases exec_cases h with ⟨-, rfl⟩ | ⟨-, ht⟩
  · exact complete_reportsOnce rfl nofun
  cases i with
  | clear | tbuild =>
    obtain rfl : t = _ := ht
    exact complete_reportsOnce rfl fun _ => rfl
  | cassign =>
    obtain ⟨codes, -, rfl⟩ := ht
    exact complete_reportsOnce rfl fun _ => rfl
  | fscan => exact feed_reportsOnce (s := sessionClear s) ht
  | encode => exact feed_reportsOnce ht
  | decode => exact ht.elim (fun h => feed_reportsOnce h.2) fun h => feed_reportsOnce h.2

end Sys2Proof.Machine
end

section
/-! PROOFS. `FSCAN` (spec 41_frequency_scan.md R141 to R145). A byte below the limit is counted and puts nothing on OUT,
so a stream within the limit ends with its own counts, and one byte more than the counters can hold leaves a cleared
session that takes the rest of the stream. Neither depends on the session `FSCAN` found. -/

namespace Sys2Proof.Machine

/-! ### The counts of a stream -/

/-- The counts after the bytes of `d` are counted into `freq`, in order (R143). -/
def countInto (freq : Table Nat) (d : List Byte) : Table Nat :=
  d.foldl (fun f b => Table.write 0 f b.toNat (Table.read 0 f b.toNat + 1)) freq

/-- Counting a stream starts with what `countByte` does to the counts. -/
theorem countInto_cons (s : State) (b : Byte) (d : List Byte) :
    countInto s.freq (b :: d) = countInto (countByte b s).freq d := rfl

theorem countInto_canonical {freq : Table Nat} (h : Table.Canonical 0 Config.symMax freq) (d : List Byte) :
    Table.Canonical 0 Config.symMax (countInto freq d) := by
  induction d generalizing freq with
  | nil => exact h
  | cons b d ih => exact ih (Table.write_canonical _ h b.isLt)

theorem read_countInto (freq : Table Nat) (d : List Byte) (v : Byte) :
    Table.read 0 (countInto freq d) v.toNat = Table.read 0 freq v.toNat + d.count v := by
  induction d generalizing freq with
  | nil => rfl
  | cons b d ih =>
    refine (ih _).trans ?_
    by_cases hv : v = b
    · subst hv
      rw [Table.read_write_of_ne _ _ (Nat.succ_ne_zero _), List.count_cons_self]
      omega
    · rw [Table.read_write_other _ _ fun he => hv (BitVec.eq_of_toNat_eq he), List.count_cons_of_ne (Ne.symm hv)]

/-- From a cleared frequency table the counts are those of the stream. -/
theorem countsOf_countInto (d : List Byte) : CountsOf d (countInto [] d) := fun v =>
  (read_countInto [] d v).trans (Nat.zero_add _)

/-- The counts of a stream add up to its length (R143). -/
theorem CountsOf.countSum_allBytes {d : List Byte} {freq : Table Nat} (h : CountsOf d freq) :
    countSum freq allBytes = d.length := by
  have hmap : (allBytes.map fun v => Table.read 0 freq v.toNat) = allBytes.map fun v => (d : Multiset Byte).count v :=
    List.map_congr_left fun v _ => (h v).trans (Multiset.coe_count v d).symm
  rw [countSum, hmap, ← List.sum_toFinset _ nodup_allBytes]
  exact Multiset.sum_count_eq_card fun v _ => List.mem_toFinset.2 (mem_allBytes v)

/-! ### The engine -/

/-- A byte for which nothing is put on OUT. -/
theorem feed_cons_of_taken_silent {ended : Bool} {b : Byte} {bs : List Byte} {st0 : Stage} {ph ph' : Phase}
    {s s' : State} (h : takeByte b s ph = .ok ⟨s', ph', []⟩) :
    feed ended (b :: bs) ⟨st0, ph, []⟩ s = feed ended bs ⟨st0, ph', []⟩ s' := by
  rw [feed_cons_of_taken rfl h, putOut_nil_of_pend_nil s' rfl]

/-- A stream for whose `End` nothing is put on OUT. -/
theorem feed_nil_of_end_silent {st0 : Stage} {ph : Phase} {s : State} {e : Ending}
    (h : takeEnd s ph = .ok (e, [])) :
    feed true [] ⟨st0, ph, []⟩ s = .next (finish e { s with inStream := InStream.nothing }) := by
  rw [feed_nil_of_end rfl h, putOut_nil_of_pend_nil s rfl]
  rfl

/-- Draining (`In.drain`) discards every byte up to `End`. -/
theorem feed_draining (st0 : Stage) (e : Ending) (d : List Byte) (s : State) :
    feed true d ⟨st0, .draining e, []⟩ s = feed true [] ⟨st0, .draining e, []⟩ s := by
  induction d with
  | nil => rfl
  | cons b d ih => rw [feed_cons_of_taken_silent rfl, ih]

/-- A byte counted below the limit (R143). -/
theorem feed_counting_cons_off_limit {b : Byte} {d : List Byte} (st0 : Stage) {s : State}
    (h : s.total ≠ Config.lenLimit s.cntW) :
    feed true (b :: d) ⟨st0, .counting, []⟩ s = feed true d ⟨st0, .counting, []⟩ (countByte b s) :=
  feed_cons_of_taken_silent (congrArg Except.ok (scanByte_off_limit b h))

/-- A byte at the limit (R144): the session is cleared, and the rest of the stream is taken without effect. -/
theorem feed_counting_cons_at_limit {b : Byte} {d : List Byte} (st0 : Stage) {s : State}
    (h : s.total = Config.lenLimit s.cntW) :
    feed true (b :: d) ⟨st0, .counting, []⟩ s =
      .next (finish .overflowed { sessionClear s with inStream := InStream.nothing }) := by
  have htake : takeByte b s .counting = .ok ⟨sessionClear s, .draining .overflowed, []⟩ :=
    congrArg Except.ok (scanByte_at_limit b h)
  rw [feed_cons_of_taken_silent htake, feed_draining]
  exact feed_nil_of_end_silent rfl

/-- A stream the counters can hold is counted to its `End` (R143). -/
theorem feed_counting_within {d : List Byte} (st0 : Stage) {s : State}
    (h : s.total + d.length ≤ Config.lenLimit s.cntW) :
    feed true d ⟨st0, .counting, []⟩ s = .next (finish .scanned
      { s with freq := countInto s.freq d, total := s.total + d.length, inStream := InStream.nothing }) := by
  induction d generalizing s with
  | nil => exact feed_nil_of_end_silent rfl
  | cons b d ih =>
    rw [List.length_cons, ← Nat.add_assoc, Nat.add_right_comm] at h ⊢
    rw [feed_counting_cons_off_limit st0 (by omega), ih h, countInto_cons]
    rfl

/-- A stream the counters cannot hold is taken to its `End` and leaves the session cleared (R144). -/
theorem feed_counting_beyond {d : List Byte} (st0 : Stage) {s : State} (hle : s.total ≤ Config.lenLimit s.cntW)
    (h : Config.lenLimit s.cntW < s.total + d.length) :
    feed true d ⟨st0, .counting, []⟩ s =
      .next (finish .overflowed { sessionClear s with inStream := InStream.nothing }) := by
  induction d generalizing s with
  | nil => exact absurd h (Nat.not_lt.2 hle)
  | cons b d ih =>
    rw [List.length_cons] at h
    by_cases htotal : s.total = Config.lenLimit s.cntW
    · exact feed_counting_cons_at_limit st0 htotal
    · rw [feed_counting_cons_off_limit st0 htotal]
      refine ih ?_ ?_ <;> rw [countByte_total, countByte_cntW] <;> omega

/-! ### The command -/

/-- `FSCAN` of a whole stream the counters can hold (R143). -/
theorem exec_fscan_within {s : State} {d : List Byte} (hin : s.inStream = ⟨d, true⟩)
    (h : d.length ≤ Config.lenLimit s.cntW) :
    exec .fscan s = .next { s with
      stage := .counted, total := d.length, nsym := 0, root := 0, pad := 0, freq := countInto [] d, node := [],
      code := [], result := .ok, rinfo := 0, running := none, inStream := ⟨[], false⟩,
      record := s.record ++ [(.ok, 0)] } := by
  have hlen : (sessionClear s).total + d.length = d.length := Nat.zero_add _
  rw [exec_fscan, start, sessionClear_inStream, hin, feed_counting_within s.stage (hlen.trans_le h), hlen]
  rfl

/-- `FSCAN` of a whole stream the counters cannot hold (R144, R303). -/
theorem exec_fscan_beyond {s : State} {d : List Byte} (hin : s.inStream = ⟨d, true⟩)
    (h : Config.lenLimit s.cntW < d.length) :
    exec .fscan s = .next { s with
      stage := .cleared, total := 0, nsym := 0, root := 0, pad := 0, freq := [], node := [], code := [],
      result := .countOvf, rinfo := 0, running := none, inStream := ⟨[], false⟩,
      record := s.record ++ [(.countOvf, 0)] } := by
  have hlen : (sessionClear s).total + d.length = d.length := Nat.zero_add _
  rw [exec_fscan, start, sessionClear_inStream, hin,
    feed_counting_beyond (s := sessionClear s) s.stage (Nat.zero_le _) (h.trans_eq hlen.symm)]
  rfl

/-- Settles O14: the counts are those of the stream counted into the cleared table. -/
theorem fscanCountsItsStream : Obligations.FscanCountsItsStream := by
  intro s d hin hlen
  have hcounts := countsOf_countInto d
  refine ⟨countInto [] d, exec_fscan_within hin hlen,
    countInto_canonical (by simp [Table.Canonical]) d, hcounts, fun v => ?_, hcounts.countSum_allBytes⟩
  rw [hcounts v, List.count_eq_zero]

/-- Settles O16: within the limit and beyond it, what `FSCAN` leaves in the session is written with the stream alone. -/
theorem fscanForgetsTheOldSession : Obligations.FscanForgetsTheOldSession := by
  intro s₁ s₂ d hw hin₁ hin₂
  rcases Nat.lt_or_ge (Config.lenLimit s₁.cntW) d.length with hlen | hlen
  · exact ⟨_, _, exec_fscan_beyond hin₁ hlen, exec_fscan_beyond hin₂ (hw ▸ hlen),
      rfl, rfl, rfl, rfl, rfl, rfl, rfl, rfl, rfl, rfl⟩
  · exact ⟨_, _, exec_fscan_within hin₁ hlen, exec_fscan_within hin₂ (hw ▸ hlen),
      rfl, rfl, rfl, rfl, rfl, rfl, rfl, rfl, rfl, rfl⟩

end Sys2Proof.Machine
end

section
/-! PROOFS. `TBUILD` at `COUNTED` and what the queue of the Tree Builder gives (spec 42_tree_builder.md R160, R163 to
R166, R168, R169, R174). -/

namespace Sys2Proof.Machine

/-! ### The command -/

theorem exec_tbuild_of_counted {s : State} (h : s.stage = .counted) :
    exec .tbuild s = .next { s with
      node := (buildTree s.node s.freq).node, nsym := (buildTree s.node s.freq).nsym,
      root := (buildTree s.node s.freq).root, stage := .built, result := .ok, rinfo := 0, running := none,
      record := s.record ++ [(.ok, 0)] } := by
  rw [exec, execTbuild, ifLegal_of_legal ((legalAt_iff _ _).2 h)]
  rfl

/-- Settles O17: at `COUNTED` the stage check lets `TBUILD` run. -/
theorem tbuildCompletes : Obligations.TbuildCompletes := fun _ h => exec_tbuild_of_counted h

/-- With no byte value of non-zero frequency the builder leaves the arena as it is (R168). -/
theorem buildTree_of_present_nil (arena : Table Node) {freq : Table Nat} (h : present freq = []) :
    buildTree arena freq = ⟨arena, 0, 0⟩ := by
  rw [buildTree, seedLeaves_eq, h]
  rfl

/-- With one byte value of non-zero frequency its leaf is all the builder adds (R169). -/
theorem buildTree_of_present_singleton (arena : Table Node) {freq : Table Nat} {v : Byte} (h : present freq = [v]) :
    buildTree arena freq = ⟨arenaSet arena 0 (leafFor freq v), 1, 0⟩ := by
  rw [buildTree, seedLeaves_eq, h]
  rfl

/-- Settles O22: no byte value is seeded, so the arena stays and the queue is empty. -/
theorem tbuildOfNoSymbols : Obligations.TbuildOfNoSymbols := by
  intro s hst hzero
  have hnone : present s.freq = [] :=
    List.eq_nil_iff_forall_not_mem.2 fun v hv => absurd (hzero v) ((mem_present _ _).1 hv).ne'
  rw [exec_tbuild_of_counted hst, buildTree_of_present_nil s.node hnone]

/-- Settles O23: one leaf is seeded, so the queue holds its index alone and nothing is merged. -/
theorem tbuildOfOneSymbol : Obligations.TbuildOfOneSymbol := by
  intro s v hst hnode hpos hzero
  have hmem (w : Byte) : w ∈ present s.freq ↔ w ∈ [v] := by
    rw [mem_present, List.mem_singleton]
    refine ⟨fun hw => by_contra fun hne => absurd (hzero w hne) hw.ne', fun hw => hw ▸ hpos⟩
  have hone : present s.freq = [v] :=
    List.perm_singleton.1 ((List.perm_ext_iff_of_nodup (nodup_present _) (List.nodup_singleton v)).2 hmem)
  have hleaf : Node.leaf (s.freqAt v) v ≠ .unused := fun he => absurd (congrArg Node.freqOf he) hpos.ne'
  have harena : arenaSet [] 0 (leafFor s.freq v) = [(0, .leaf (s.freqAt v) v)] := if_neg hleaf
  rw [exec_tbuild_of_counted hst, hnode, buildTree_of_present_singleton [] hone, harena]

/-! ### The order of the queue -/

theorem keyBefore_iff (node : Table Node) (p q : NodeIx) : keyBefore node p q = true ↔ KeyLess node p q := by
  simp [keyBefore, KeyLess]

theorem not_keyLess_self (node : Table Node) (p : NodeIx) : ¬ KeyLess node p p := by
  unfold KeyLess
  omega

theorem KeyLess.ne {node : Table Node} {p q : NodeIx} (h : KeyLess node p q) : p ≠ q := fun he =>
  not_keyLess_self node p (he ▸ h)

theorem KeyLess.asymm {node : Table Node} {p q : NodeIx} (h : KeyLess node p q) : ¬ KeyLess node q p := by
  unfold KeyLess at *
  omega

theorem not_keyLess_trans {node : Table Node} {p q r : NodeIx} (hqp : ¬ KeyLess node q p) (hrq : ¬ KeyLess node r q) :
    ¬ KeyLess node r p := by
  unfold KeyLess at *
  omega

/-- Two indices with neither key below the other are the same (R163). -/
theorem eq_or_keyLess_of_not_keyLess {node : Table Node} {p q : NodeIx} (h : ¬ KeyLess node q p) :
    q = p ∨ KeyLess node p q := by
  unfold KeyLess at *
  rw [← BitVec.toNat_inj]
  omega

/-- The lower of two keys. -/
theorem not_keyLess_ite_keyBefore (node : Table Node) (p q : NodeIx) :
    ∀ x ∈ [q, p], ¬ KeyLess node x (if keyBefore node p q then p else q) := by
  simp only [List.mem_cons, List.not_mem_nil, or_false]
  rintro x (rfl | rfl) <;> split
  · exact KeyLess.asymm ((keyBefore_iff _ _ _).1 ‹_›)
  · exact not_keyLess_self node x
  · exact not_keyLess_self node x
  · exact fun h => ‹¬_› ((keyBefore_iff _ _ _).2 h)

/-- No index has a smaller key than the one `minKey` gives (R164). -/
theorem not_keyLess_minKey (node : Table Node) (q : NodeIx) (rest : List NodeIx) :
    ∀ x ∈ q :: rest, ¬ KeyLess node x (minKey node q rest) := by
  induction rest generalizing q with
  | nil =>
    intro x hx
    rw [List.mem_singleton.1 hx]
    exact not_keyLess_self node q
  | cons y rest ih =>
    intro x hx
    rw [show minKey node q (y :: rest) = minKey node (if keyBefore node y q then y else q) rest from rfl]
    have hx : x ∈ [q, y] ∨ x ∈ rest := by simpa [or_assoc] using hx
    rcases hx with hx | hx
    · exact not_keyLess_trans (ih _ _ List.mem_cons_self) (not_keyLess_ite_keyBefore node y q x hx)
    · exact ih _ x (List.mem_cons_of_mem _ hx)

/-- `extract_min` takes the index of smallest key out of the queue (R164). -/
theorem extractMin_eq_some {node : Table Node} {q : List NodeIx} (h : q ≠ []) :
    ∃ m, extractMin node q = some (m, q.erase m) ∧ m ∈ q ∧ ∀ x ∈ q, x ≠ m → KeyLess node m x := by
  cases q with
  | nil => exact absurd rfl h
  | cons x rest =>
    exact ⟨_, rfl, minKey_mem node x rest, fun y hy =>
      (eq_or_keyLess_of_not_keyLess (not_keyLess_minKey node x rest y hy)).resolve_left⟩

/-- Settles O19: the fold over the queue keeps the smallest key met so far. -/
theorem extractMinTakesTheSmallestKey : Obligations.ExtractMinTakesTheSmallestKey := fun _ _ h _ => extractMin_eq_some h

/-- Settles O20: the second `extract_min` finds the queue without the first index, whose smallest key is the second
lowest. -/
theorem mergePassTakesTheTwoLowest : Obligations.MergePassTakesTheTwoLowest := by
  intro b hlen hnodup
  have hqueue : b.queue ≠ [] := List.ne_nil_of_length_pos (by omega)
  obtain ⟨x, hx, hxq, hxmin⟩ := extractMin_eq_some (node := b.node) hqueue
  have hrest : b.queue.erase x ≠ [] := List.ne_nil_of_length_pos (by rw [List.length_erase_of_mem hxq]; omega)
  obtain ⟨y, hy, hyq, hymin⟩ := extractMin_eq_some (node := b.node) hrest
  obtain ⟨hyx, hyq⟩ := hnodup.mem_erase_iff.1 hyq
  refine ⟨x, y, hxq, hyq, hxmin y hyq hyx, fun z hz hzx hzy => hymin z (hnodup.mem_erase_iff.2 ⟨hzx, hz⟩) hzy, ?_⟩
  simp only [mergeOnce, hx, hy]
  rfl

end Sys2Proof.Machine
end

section
/-! PROOFS. The indices of the arena (spec 42_tree_builder.md R162, R166, R170, R171). `Grown` says of a builder that
its leaves come first, that every node merged has its two children below it in the order of their keys, and that a used
index is either in the queue or the child of exactly one node. The seeding loop and the merge loop keep it, and when one
index is left in the queue it gives R171. -/

namespace Sys2Proof.Machine

/-! ### Children -/

/-- The children of a node (R28). -/
def Node.children : Node → List NodeIx
  | .leaf _ _ => []
  | .internal _ l r => [l, r]

theorem isChild_iff_mem_children {node : Table Node} {m k : NodeIx} :
    IsChild node m k ↔ k ∈ (arenaAt node m).children := by
  unfold IsChild
  cases arenaAt node m with
  | leaf f v => simp [Node.children]
  | internal f l r => simp [Node.children, eq_comm]

/-- A node written at a free index adds its own children to those there are. -/
theorem isChild_arenaSet_iff {node : Table Node} {j m k : NodeIx} {n : Node} (hfree : arenaAt node j = .unused)
    (hset : arenaAt (arenaSet node j n) j = n) :
    IsChild (arenaSet node j n) m k ↔ (m = j ∧ k ∈ n.children) ∨ IsChild node m k := by
  simp only [isChild_iff_mem_children]
  by_cases hm : m = j
  · subst hm
    simp [hset, hfree, Node.unused, Node.children]
  · simp [arenaAt_arenaSet_other node n hm, hm]

/-! ### What the builder's loops keep -/

/-- How the nodes of a builder hang together: indices from `next` on are free, the others hold nodes of positive
frequency (R170); an internal node has the sum of its children's frequencies and the lower key at its left (R165, R166);
an index in the queue has no parent yet, and every other used index has exactly one (R171). -/
structure Linked (b : Builder) : Prop where
  nodup : b.queue.Nodup
  free : ∀ k : NodeIx, b.next.toNat ≤ k.toNat → arenaAt b.node k = .unused
  positive : ∀ k : NodeIx, k.toNat < b.next.toNat → 0 < (arenaAt b.node k).freqOf
  merged : ∀ (m l r : NodeIx) (f : Nat), arenaAt b.node m = .internal f l r →
    f = (arenaAt b.node l).freqOf + (arenaAt b.node r).freqOf ∧ KeyLess b.node l r
  parentless : ∀ k ∈ b.queue, ∀ m, ¬ IsChild b.node m k
  parent : ∀ k : NodeIx, k.toNat < b.next.toNat → k ∉ b.queue → ∃! m, IsChild b.node m k

/-- The leaves of the byte values `vs` stand at the first indices, in this order, and internal nodes after them (R162,
R171). -/
structure LeavesFirst (freq : Table Nat) (vs : List Byte) (b : Builder) : Prop where
  seeded : vs.length ≤ b.next.toNat
  leaf : ∀ (k : NodeIx) (v : Byte), vs[k.toNat]? = some v → arenaAt b.node k = leafFor freq v
  internal : ∀ k : NodeIx, vs.length ≤ k.toNat → k.toNat < b.next.toNat → IsInternal b.node k

/-- All that holds of a builder that has seeded the byte values `vs`. -/
structure Grown (freq : Table Nat) (vs : List Byte) (b : Builder) : Prop where
  forest : ∃ g, Forest freq vs g b
  linked : Linked b
  leavesFirst : LeavesFirst freq vs b

theorem toNat_next_add_one {k : NodeIx} (h : k.toNat < Config.nodeMax) : (k + 1).toNat = k.toNat + 1 := by
  rw [Config.nodeMax] at h
  exact BitVec.toNat_add_of_lt (show k.toNat + 1 < 2 ^ 9 by omega)

theorem ne_of_toNat_lt {j k : NodeIx} (h : j.toNat < k.toNat) : j ≠ k := BitVec.ne_of_lt (BitVec.lt_def.2 h)

/-- An internal node is at a used index. -/
theorem Linked.lt_next {b : Builder} (h : Linked b) {m : NodeIx} (hm : IsInternal b.node m) :
    m.toNat < b.next.toNat := by
  obtain ⟨f, l, r, hm⟩ := hm
  refine Nat.lt_of_not_le fun hle => ?_
  simp [h.free m hle, Node.unused] at hm

/-- A child lies below its parent, and its parent at a used index (R171). -/
theorem Linked.isChild_lt {b : Builder} (h : Linked b) (hbelow : ChildrenBelow b.node) {m k : NodeIx}
    (hk : IsChild b.node m k) : k.toNat < m.toNat ∧ m.toNat < b.next.toNat := by
  obtain ⟨f, l, r, hm, hlr⟩ := hk
  obtain ⟨hl, hr⟩ := hbelow m l r f hm
  refine ⟨?_, h.lt_next ⟨f, l, r, hm⟩⟩
  rcases hlr with rfl | rfl <;> assumption

/-- Adding a node whose children are taken from the queue keeps the nodes linked. -/
theorem Linked.add {freq : Table Nat} {vs : List Byte} {g : NodeIx → TreeValue} {b : Builder} (h : Linked b)
    (hf : Forest freq vs g b) {q : List NodeIx} {n : Node} (hnext : b.next.toNat < Config.nodeMax)
    (hq : b.queue.Perm (n.children ++ q)) (hpos : 0 < n.freqOf)
    (hn : ∀ f l r, n = .internal f l r →
      f = (arenaAt b.node l).freqOf + (arenaAt b.node r).freqOf ∧ KeyLess b.node l r) :
    Linked (Builder.add n { b with queue := q }) := by
  have hset := arenaAt_arenaSet_same n hf.canonical.1 hnext
  have hother {k : NodeIx} (hk : k ≠ b.next) : arenaAt (arenaSet b.node b.next n) k = arenaAt b.node k :=
    arenaAt_arenaSet_other b.node n hk
  have hsucc := toNat_next_add_one hnext
  have hchild {m k : NodeIx} := isChild_arenaSet_iff (m := m) (k := k) (h.free b.next le_rfl) hset
  have hkids {k : NodeIx} (hk : k ∈ n.children) : k ∈ b.queue := hq.mem_iff.2 (List.mem_append_left _ hk)
  have hsub {k : NodeIx} (hk : k ∈ q) : k ∈ b.queue := hq.mem_iff.2 (List.mem_append_right _ hk)
  have hfresh : b.next ∉ b.queue := fun hk => absurd (hf.below _ hk) (Nat.lt_irrefl _)
  obtain ⟨-, hqnodup, hdisjoint⟩ := List.nodup_append.1 (hq.nodup_iff.1 h.nodup)
  have hsplit {k : NodeIx} (hk : k.toNat < (b.next + 1).toNat) : k = b.next ∨ k.toNat < b.next.toNat := by
    rw [← BitVec.toNat_inj]
    omega
  exact {
    nodup := List.nodup_append.2 ⟨hqnodup, List.nodup_singleton _, fun k hk j hj he =>
      hfresh (List.mem_singleton.1 hj ▸ he ▸ hsub hk)⟩
    free := fun k (hk : (b.next + 1).toNat ≤ k.toNat) =>
      (hother (ne_of_toNat_lt (by omega)).symm).trans (h.free k (by omega))
    positive := fun k hk => by
      show 0 < (arenaAt (arenaSet b.node b.next n) k).freqOf
      rcases hsplit hk with rfl | hk
      · rwa [hset]
      · rw [hother (ne_of_toNat_lt hk)]
        exact h.positive k hk
    merged := fun m l r f (hm : arenaAt (arenaSet b.node b.next n) m = _) => by
      have hold : l.toNat < b.next.toNat ∧ r.toNat < b.next.toNat ∧
          f = (arenaAt b.node l).freqOf + (arenaAt b.node r).freqOf ∧ KeyLess b.node l r := by
        by_cases hmn : m = b.next
        · subst hmn
          rw [hset] at hm
          subst hm
          exact ⟨hf.below l (hkids List.mem_cons_self), hf.below r (hkids (by simp [Node.children])), hn f l r rfl⟩
        · rw [hother hmn] at hm
          obtain ⟨hl, hr⟩ := hf.children m l r f hm
          have := h.lt_next ⟨f, l, r, hm⟩
          exact ⟨by omega, by omega, h.merged m l r f hm⟩
      obtain ⟨hl, hr, hold⟩ := hold
      simpa only [Builder.add_node, KeyLess, hother (ne_of_toNat_lt hl), hother (ne_of_toNat_lt hr)] using hold
    parentless := fun k hk m hm => by
      rcases List.mem_append.1 hk with hk | hk <;> rcases hchild.1 hm with ⟨-, hmk⟩ | hmk
      · exact hdisjoint k hmk k hk rfl
      · exact h.parentless k (hsub hk) m hmk
      · exact hfresh (List.mem_singleton.1 hk ▸ hkids hmk)
      · obtain ⟨hkm, hmn⟩ := h.isChild_lt hf.children hmk
        rw [List.mem_singleton.1 hk] at hkm
        exact Nat.lt_asymm hkm hmn
    parent := fun k hk hkq => by
      obtain ⟨hkq, hkn⟩ := not_or.1 fun hmem => hkq (List.mem_append.2 hmem)
      have hk := (hsplit hk).resolve_left fun he => hkn (List.mem_singleton.2 he)
      by_cases hqueue : k ∈ b.queue
      · have hnew : k ∈ n.children := (List.mem_append.1 (hq.mem_iff.1 hqueue)).resolve_right hkq
        exact ⟨b.next, hchild.2 (.inl ⟨rfl, hnew⟩), fun m hm =>
          (hchild.1 hm).elim And.left fun hmk => absurd hmk (h.parentless k hqueue m)⟩
      · obtain ⟨m, hm, huniq⟩ := h.parent k hk hqueue
        exact ⟨m, hchild.2 (.inr hm), fun m' hm' =>
          (hchild.1 hm').elim (fun hnew => absurd (hkids hnew.2) hqueue) (huniq m')⟩ }

/-- The next leaf goes on after the leaves seeded (R162). -/
theorem LeavesFirst.addLeaf {freq : Table Nat} {vs : List Byte} {b : Builder} (h : LeavesFirst freq vs b)
    (hsorted : b.node.Pairwise fun x y => x.1 < y.1) (hmax : b.next.toNat < Config.nodeMax)
    (hnext : b.next.toNat = vs.length) (v : Byte) :
    LeavesFirst freq (vs ++ [v]) (b.add (leafFor freq v)) := by
  have hlen : (vs ++ [v]).length = (b.next + 1).toNat := by
    rw [toNat_next_add_one hmax, hnext, List.length_append, List.length_singleton]
  refine ⟨hlen.le, fun k w hw => ?_, fun k hk hlt => absurd (hlen.symm.trans_le hk) (Nat.not_le_of_lt hlt)⟩
  rw [Builder.add_node]
  by_cases hk : k = b.next
  · subst hk
    rw [hnext, List.getElem?_concat_length] at hw
    rw [arenaAt_arenaSet_same _ hsorted hmax, Option.some.inj hw]
  · have hne : k.toNat ≠ vs.length := fun he => hk (BitVec.eq_of_toNat_eq (he.trans hnext.symm))
    obtain ⟨hlt, -⟩ := List.getElem?_eq_some_iff.1 hw
    rw [List.length_append, List.length_singleton] at hlt
    rw [List.getElem?_append_left (by omega)] at hw
    rw [arenaAt_arenaSet_other _ _ hk]
    exact h.leaf k w hw

/-- An internal node goes after the leaves (R165). -/
theorem LeavesFirst.addInternal {freq : Table Nat} {vs : List Byte} {b : Builder} (h : LeavesFirst freq vs b)
    (hsorted : b.node.Pairwise fun x y => x.1 < y.1) (hmax : b.next.toNat < Config.nodeMax) (f : Nat) (x y : NodeIx)
    (q : List NodeIx) : LeavesFirst freq vs (Builder.add (.internal f x y) { b with queue := q }) := by
  have hseeded := h.seeded
  have hsucc := toNat_next_add_one hmax
  refine ⟨hseeded.trans (by simp only [Builder.add_next]; omega), fun k v hv => ?_,
    fun k hk (hlt : k.toNat < (b.next + 1).toNat) => ?_⟩
  · show arenaAt (arenaSet b.node b.next _) k = _
    obtain ⟨hlt, -⟩ := List.getElem?_eq_some_iff.1 hv
    rw [arenaAt_arenaSet_other _ _ (ne_of_toNat_lt (by omega))]
    exact h.leaf k v hv
  · show IsInternal (arenaSet b.node b.next _) k
    by_cases hkn : k = b.next
    · subst hkn
      exact ⟨f, x, y, arenaAt_arenaSet_same _ hsorted hmax⟩
    · have hne : k.toNat ≠ b.next.toNat := fun he => hkn (BitVec.eq_of_toNat_eq he)
      rw [IsInternal, arenaAt_arenaSet_other _ _ hkn]
      exact h.internal k hk (by omega)

/-! ### The seeding loop -/

/-- The induction over the seeding loop: what every leaf added keeps holds when the loop ends (R162). -/
theorem seedLeaves_induction {freq : Table Nat} {arena : Table Node} {P : List Byte → Builder → Prop}
    (nil : P [] ⟨arena, [], 0⟩)
    (keep : ∀ vs v b, vs.length < 256 → 0 < Table.read 0 freq v.toNat → P vs b →
      P (vs ++ [v]) (b.add (leafFor freq v))) :
    P (present freq) (seedLeaves arena freq) := by
  have fold (vs : List Byte) (h : vs <+: present freq) :
      P vs (vs.foldl (fun b v => b.add (leafFor freq v)) ⟨arena, [], 0⟩) := by
    induction vs using List.reverseRecOn with
    | nil => exact nil
    | append_singleton vs v ih =>
      have hlen := h.length_le.trans (length_present_le freq)
      rw [List.length_append, List.length_singleton] at hlen
      rw [List.foldl_append]
      exact keep vs v _ (by omega) ((mem_present freq v).1 (h.subset (by simp)))
        (ih ((List.prefix_append vs [v]).trans h))
  rw [seedLeaves_eq]
  exact fold _ (List.prefix_refl _)

theorem Grown.empty (freq : Table Nat) : Grown freq [] ⟨[], [], 0⟩ where
  forest := ⟨_, Forest.empty freq fun _ => .leaf 0 0⟩
  linked := {
    nodup := .nil
    free := fun k _ => arenaAt_nil k
    positive := fun k hk => absurd hk (Nat.not_lt_zero _)
    merged := fun m l r f hm => by simp [Node.unused] at hm
    parentless := fun k hk => by simp at hk
    parent := fun k hk => absurd hk (Nat.not_lt_zero _) }
  leavesFirst := {
    seeded := Nat.zero_le _
    leaf := fun k v hv => by simp at hv
    internal := fun k _ hk => absurd hk (Nat.not_lt_zero _) }

/-- Seeding one leaf keeps a builder grown (R162). -/
theorem Grown.addLeaf {freq : Table Nat} {vs : List Byte} {b : Builder} (h : Grown freq vs b)
    (hq : b.queue.length = vs.length) (hvs : vs.length < 256) {v : Byte} (hv : 0 < Table.read 0 freq v.toNat) :
    Grown freq (vs ++ [v]) (b.add (leafFor freq v)) := by
  obtain ⟨⟨g, hf⟩, hlinked, hleaves⟩ := h
  have hsize := hf.size
  have hnext : b.next.toNat = vs.length := by omega
  have hmax : b.next.toNat < Config.nodeMax := by
    rw [Config.nodeMax]
    omega
  exact ⟨hf.addLeaf hq hvs v, hlinked.add hf (q := b.queue) hmax (.refl _) hv (by nofun),
    hleaves.addLeaf hf.canonical.1 hmax hnext v⟩

/-! ### The merge loop -/

/-- A merge pass keeps a builder grown (R165). -/
theorem Grown.mergeOnce {freq : Table Nat} {vs : List Byte} {b : Builder} (h : Grown freq vs b)
    (hvs : vs.length ≤ 256) (hq : 2 ≤ b.queue.length) : Grown freq vs (mergeOnce b) := by
  obtain ⟨⟨g, hf⟩, hlinked, hleaves⟩ := h
  obtain ⟨x, y, hx, hy, hxy, -, hmerge⟩ := mergePassTakesTheTwoLowest b hq hlinked.nodup
  have hsize := hf.size
  have hmax : b.next.toNat < Config.nodeMax := by
    rw [Config.nodeMax]
    omega
  have hperm : b.queue.Perm ([x, y] ++ (b.queue.erase x).erase y) :=
    (List.perm_cons_erase hx).trans ((List.perm_cons_erase ((List.mem_erase_of_ne hxy.ne.symm).2 hy)).cons x)
  have hpos := hlinked.positive x (hf.below x hx)
  have he : Machine.mergeOnce b = Builder.add (.internal ((arenaAt b.node x).freqOf + (arenaAt b.node y).freqOf) x y)
      { b with queue := (b.queue.erase x).erase y } := hmerge
  refine ⟨hf.merge hvs hq, ?_, ?_⟩ <;> rw [he]
  · refine hlinked.add hf hmax hperm (Nat.add_pos_left hpos _) ?_
    rintro _ _ _ ⟨⟩
    exact ⟨rfl, hxy⟩
  · exact hleaves.addInternal hf.canonical.1 hmax _ x y _

/-! ### The tree of a frequency table -/

theorem seedLeaves_grown (freq : Table Nat) : Grown freq (present freq) (seedLeaves [] freq) :=
  (seedLeaves_induction (P := fun vs b => Grown freq vs b ∧ b.queue.length = vs.length) ⟨Grown.empty freq, rfl⟩
    fun vs v b hvs hv ⟨h, hq⟩ => ⟨h.addLeaf hq hvs hv, by simp [hq]⟩).1

theorem builtForest_grown (freq : Table Nat) : Grown freq (present freq) (builtForest freq) :=
  mergeLoop_induction (fun _ h hq => h.mergeOnce (length_present_le freq) hq) _ (seedLeaves_grown freq)

theorem builtForest_linked (freq : Table Nat) : Linked (builtForest freq) := (builtForest_grown freq).linked

theorem buildTree_childrenBelow (freq : Table Nat) : ChildrenBelow (buildTree [] freq).node :=
  (builtForest_forest freq).elim fun _ h => h.children

/-- The indices used are 0 to 2n - 2 (R171). -/
theorem builtForest_next (freq : Table Nat) : (builtForest freq).next.toNat = 2 * (present freq).length - 1 := by
  obtain ⟨g, h⟩ := builtForest_forest freq
  have hsize := h.size
  rw [builtForest_queue_length] at hsize
  omega

/-- When the merge loop ends the root alone is left in the queue (R167). -/
theorem builtForest_queue {freq : Table Nat} (h : 1 ≤ (present freq).length) :
    (builtForest freq).queue = [(buildTree [] freq).root] := by
  obtain ⟨k, hk⟩ := List.length_eq_one_iff.1 ((builtForest_queue_length freq).trans (by omega))
  rw [buildTree_root, hk]
  rfl

/-- The last index used has no parent, so it is the root (R171). -/
theorem buildTree_root_toNat {freq : Table Nat} (h : 1 ≤ (present freq).length) :
    (buildTree [] freq).root.toNat = 2 * (present freq).length - 2 := by
  have hlinked := builtForest_linked freq
  have hnext := builtForest_next freq
  have hle := length_present_le freq
  have hlast : (BitVec.ofNat 9 (2 * (present freq).length - 2)).toNat = 2 * (present freq).length - 2 := by
    rw [BitVec.toNat_ofNat]
    omega
  have hmem : BitVec.ofNat 9 (2 * (present freq).length - 2) ∈ (builtForest freq).queue := by
    by_contra hout
    obtain ⟨m, hm, -⟩ := hlinked.parent _ (by omega) hout
    obtain ⟨hkm, hmn⟩ := hlinked.isChild_lt (buildTree_childrenBelow freq) hm
    omega
  rw [builtForest_queue h, List.mem_singleton] at hmem
  rw [← hmem, hlast]

/-- The root's frequency is the sum of the counts (R170). -/
theorem buildTree_root_freqOf {freq : Table Nat} (h : (buildTree [] freq).nsym ≠ 0) :
    (arenaAt (buildTree [] freq).node (buildTree [] freq).root).freqOf = countSum freq (present freq) := by
  obtain ⟨t, ht, hperm, hsums⟩ := buildTree_stands h
  rw [ht.freqOf_eq, hsums.freq_eq, ← countSum, countSum_of_perm freq hperm]

/-- No node's frequency exceeds the sum of the counts, free indices included (R170). -/
theorem buildTree_arenaAt_freqOf_le (freq : Table Nat) (k : NodeIx) :
    (arenaAt (buildTree [] freq).node k).freqOf ≤ countSum freq (present freq) := by
  by_cases hk : arenaAt (buildTree [] freq).node k = .unused
  · rw [hk]
    exact Nat.zero_le _
  · unfold arenaAt at hk ⊢
    split
    · rw [if_pos ‹_›] at hk
      exact buildTree_node_freqOf_le freq (Table.mem_of_read hk)
    · exact Nat.zero_le _

/-- Settles O18: the seeding loop puts the leaves at the first indices, and no later node is written there. -/
theorem leavesInAscendingSymbolOrder : Obligations.LeavesInAscendingSymbolOrder := by
  intro s hst hnode
  refine ⟨_, exec_tbuild_of_counted hst, ?_, fun k hk => ?_⟩ <;> rw [hnode]
  · exact buildTree_nsym s.freq
  · exact (builtForest_grown s.freq).leavesFirst.leaf k _ (List.getElem?_eq_getElem hk)

/-- Settles O21: a merge pass makes the index of lowest key the left child, and later writes do not touch it. -/
theorem leftChildIsExtractedFirst : Obligations.LeftChildIsExtractedFirst := fun freq m l r f hm =>
  ((builtForest_linked freq).merged m l r f hm).2

/-- Settles O24: the sums are those of the merge passes, and the counts add up to the length of the input. -/
theorem frequencySums : Obligations.FrequencySums := by
  intro s hinv hr hst
  have hat := hinv.holdsAt hr
  rw [hst] at hat
  obtain ⟨hcounts, -, -, -, hnode, -⟩ := hat
  have hlinked := builtForest_linked s.freq
  refine ⟨_, exec_tbuild_of_counted hst, ?_⟩
  simp only [hnode, buildTree_nsym]
  refine ⟨fun m l r f hm => (hlinked.merged m l r f hm).1, fun k hk => ⟨hlinked.positive k ?_, ?_⟩, ?_, fun hn => ?_⟩
  · rw [builtForest_next]
    omega
  · exact (buildTree_arenaAt_freqOf_le s.freq k).trans_eq hcounts.countSum_present
  · exact Nat.le_sub_one_of_lt hcounts.total_lt
  · rw [← buildTree_nsym] at hn
    rw [buildTree_root_freqOf fun h0 => by simp [h0] at hn, hcounts.countSum_present]

/-- Settles O25: what the loops keep, at the builder whose queue holds the root alone. -/
theorem arenaIndexFacts : Obligations.ArenaIndexFacts := by
  intro freq
  have hlinked := builtForest_linked freq
  have hleaves := (builtForest_grown freq).leavesFirst
  have hnext := builtForest_next freq
  simp only [buildTree_nsym]
  refine ⟨fun k hk => hlinked.free k (hnext.trans_le hk), fun k hk he => ?_, fun k hk => ?_, fun k hk hlt => ?_,
    buildTree_root_toNat, fun m l r f hm => ?_, fun k hk hne => ?_⟩
  · exact absurd (congrArg Node.freqOf he) (hlinked.positive k (hk.trans_eq hnext.symm)).ne'
  · exact ⟨_, _, hleaves.leaf k _ (List.getElem?_eq_getElem hk)⟩
  · exact hleaves.internal k hk (hlt.trans_eq hnext.symm)
  · obtain ⟨hl, hr⟩ := buildTree_childrenBelow freq m l r f hm
    exact ⟨hl, hr, (hlinked.merged m l r f hm).2.ne⟩
  · refine hlinked.parent k (hk.trans_eq hnext.symm) ?_
    rw [builtForest_queue (by omega)]
    exact fun hmem => hne (List.mem_singleton.1 hmem)

end Sys2Proof.Machine
end

section
/-! PROOFS. The walks over a built tree. Codes are no longer than the number of leaves allows (spec 42_tree_builder.md
R172, 10_state.md R29, 43_code_assigner.md R192), and under the session invariant no step stops with a fault (R176, R199,
45_decoder.md R246): the walks of `CASSIGN` and `DECODE` stop with a fault only where the arena is no tree, a built
arena stands for one, and the invariant keeps the cursor at a node of it. -/

namespace Sys2Proof.Machine

/-! ### The code assigner's walk over a tree -/

/-- The walk below the root of a tree gives the same codes at every depth bound the tree does not exceed (R194). -/
theorem TreeValue.StandsAt.exists_assignFrom {node : Table Node} {t : TreeValue} {k : NodeIx} (h : t.StandsAt node k)
    (p : Bits) (codes : Table (Option Bits)) :
    ∃ codes', ∀ d, t.height < d → assignFrom node d k p codes = some codes' := by
  induction t generalizing k p codes with
  | leaf f v =>
    refine ⟨codeSet codes v p, fun d hd => ?_⟩
    obtain ⟨d, rfl⟩ := Nat.exists_eq_succ_of_ne_zero (Nat.ne_zero_of_lt hd)
    simp only [assignFrom, show arenaAt node k = .leaf f v from h]
  | internal f a b iha ihb =>
    obtain ⟨l, r, hk, ha, hb⟩ := h
    obtain ⟨codesL, hl⟩ := iha ha (p ++ [false]) codes
    obtain ⟨codesR, hr⟩ := ihb hb (p ++ [true]) codesL
    refine ⟨codesR, fun d hd => ?_⟩
    obtain ⟨d, rfl⟩ := Nat.exists_eq_succ_of_ne_zero (Nat.ne_zero_of_lt hd)
    rw [height] at hd
    simp only [assignFrom, hk, hl d (by omega), hr d (by omega)]

/-- Over a built tree the walk of `CASSIGN` needs no greater depth than the number of leaves (R172). -/
theorem exists_assignFrom_buildTree {freq : Table Nat} (h : (buildTree [] freq).nsym ≠ 0) (p : Bits)
    (codes : Table (Option Bits)) :
    ∃ codes', ∀ d, (buildTree [] freq).nsym.toNat ≤ d →
      assignFrom (buildTree [] freq).node d (buildTree [] freq).root p codes = some codes' := by
  obtain ⟨t, ht, hperm, -⟩ := buildTree_stands h
  obtain ⟨codes', hc⟩ := ht.exists_assignFrom p codes
  have hheight := t.height_lt_length_symbols
  rw [hperm.length_eq, ← buildTree_nsym] at hheight
  exact ⟨codes', fun d hd => hc d (hheight.trans_le hd)⟩

/-- R169: the root of a tree of one leaf is that leaf. -/
theorem buildTree_root_isLeaf {freq : Table Nat} (h : (buildTree [] freq).nsym = 1) :
    IsLeaf (buildTree [] freq).node (buildTree [] freq).root := by
  obtain ⟨t, ht, hperm, -⟩ := buildTree_stands (freq := freq) (by rw [h]; decide)
  have hlen : t.symbols.length = 1 := by
    rw [hperm.length_eq, ← buildTree_nsym, h]
    rfl
  have hheight := t.height_lt_length_symbols
  cases t with
  | leaf f v => exact ⟨f, v, ht⟩
  | internal f a b =>
    rw [TreeValue.height] at hheight
    omega

/-- `CASSIGN` meets no arena that is no tree (R199). -/
theorem exists_assignCodes_buildTree (freq : Table Nat) (codes : Table (Option Bits)) :
    ∃ codes', assignCodes (buildTree [] freq) codes = some codes' := by
  unfold assignCodes
  split
  · exact ⟨codes, rfl⟩
  · split
    · obtain ⟨f, v, hv⟩ := buildTree_root_isLeaf ‹_›
      exact ⟨codeSet codes v [false], by rw [hv]⟩
    · obtain ⟨codes', hc⟩ := exists_assignFrom_buildTree ‹_› [] codes
      refine ⟨codes', hc _ ?_⟩
      rw [buildTree_nsym]
      exact length_present_le freq

/-! ### The length of the codes -/

/-- A code of a built tree is the one bit 0 for a single leaf (R192), and otherwise shorter than the number of leaves
(R172). -/
theorem assignCodes_length {freq : Table Nat} {codes : Table (Option Bits)}
    (h : assignCodes (buildTree [] freq) [] = some codes) {k : Nat} {c : Bits} (hc : (k, some c) ∈ codes) :
    ((buildTree [] freq).nsym = 1 ∧ c = [false]) ∨
    ((buildTree [] freq).nsym ≠ 1 ∧ 1 ≤ c.length ∧ c.length ≤ (buildTree [] freq).nsym.toNat - 1) := by
  rcases assignCodes_cases h with ⟨-, rfl⟩ | ⟨h1, v, rfl⟩ | ⟨h0, h1, h⟩
  · simp at hc
  · rcases codeSet_entry hc with hc | hc
    · simp at hc
    · exact .inl ⟨h1, Option.some.inj hc⟩
  · obtain ⟨codes', hall⟩ := exists_assignFrom_buildTree h0 [] []
    have hle : (buildTree [] freq).nsym.toNat ≤ Config.codeMax + 1 :=
      (buildTree_nsym freq).trans_le (length_present_le freq)
    obtain rfl : codes = codes' := Option.some.inj (h.symm.trans (hall _ hle))
    obtain ⟨d, hd⟩ := Nat.exists_eq_succ_of_ne_zero fun he : (buildTree [] freq).nsym.toNat = 0 =>
      h0 (BitVec.eq_of_toNat_eq he)
    rcases assignFrom_entry_of_isInternal (buildTree_root_isInternal h0 h1) (hall (d + 1) hd.le) hc with
      hc | ⟨q, hq, hpos, hlen⟩
    · simp at hc
    · obtain rfl : c = q := Option.some.inj hq
      exact .inr ⟨h1, hpos, by omega⟩

/-- Settles O30: the codes are those of the built tree, which has at most 256 leaves. -/
theorem codeLengthIsBounded : Obligations.CodeLengthIsBounded := by
  intro s v c hinv hr _ hc
  have hmem : (v.toNat, some c) ∈ s.code := by
    rw [← hc]
    exact Table.mem_of_read (by rw [← State.codeAt, hc]; nofun)
  obtain ⟨-, -, hcode | ⟨htree, hcodes⟩⟩ := (hinv.holdsAt hr).tables
  · simp [hcode] at hmem
  · have hn : s.nsym = (buildTree [] s.freq).nsym := congrArg Tree.nsym htree
    have hle : s.nsym.toNat ≤ 256 := by
      rw [hn, buildTree_nsym]
      exact length_present_le s.freq
    rw [htree] at hcodes
    rcases assignCodes_length hcodes hmem with ⟨h1, rfl⟩ | ⟨h1, hpos, hlen⟩ <;> rw [← hn] at h1
    · exact ⟨le_rfl, by decide, fun h2 => by simp [h1] at h2, fun _ => rfl⟩
    · rw [← hn] at hlen
      exact ⟨hpos, by omega, fun _ => hlen, fun he => absurd he h1⟩

/-! ### The decoder's walk over a tree -/

theorem walkBit_ne_offTree {freq : Table Nat} {c : NodeIx} (h : CursorOnTree (buildTree [] freq) c) (x : Bool) :
    walkBit (buildTree [] freq) c x ≠ .error .offTree := by
  obtain ⟨-, -, hinternal⟩ := h
  unfold walkBit
  split
  · obtain ⟨f, v, hv⟩ := buildTree_root_isLeaf ‹_›
    rw [hv]
    cases x <;> nofun
  · obtain ⟨f, l, r, hn⟩ := hinternal ‹_›
    rw [hn]
    dsimp only
    split <;> nofun

theorem walkBits_stop_ne_offTree {freq : Table Nat} {c : NodeIx} (h : CursorOnTree (buildTree [] freq) c)
    (bits : Bits) : (walkBits (buildTree [] freq) c bits).stop ≠ some .offTree := by
  induction bits generalizing c with
  | nil => nofun
  | cons x xs ih =>
    rw [walkBits]
    split
    · rename_i e he
      rintro ⟨⟩
      exact walkBit_ne_offTree h x he
    · exact ih (walkBit_keeps_cursorOnTree h ‹_›)

/-- The decoder's walk over an encoded session keeps on the tree. -/
theorem HoldsAt.walkBits_stop_ne_offTree {s : State} {c : NodeIx} (h : HoldsAt .encoded s)
    (hc : CursorOnTree s.tree c) (bits : Bits) : (walkBits s.tree c bits).stop ≠ some .offTree := by
  obtain ⟨-, htree, -⟩ := h
  rw [htree] at hc ⊢
  exact Machine.walkBits_stop_ne_offTree hc bits

/-! ### One item -/

/-- A running command takes every byte. -/
theorem RunningHolds.exists_takeByte {r : Running} {s : State} (h : RunningHolds r s) (b : Byte) :
    ∃ tk, takeByte b s r.phase = .ok tk := by
  obtain ⟨st0, ph, pend⟩ := r
  cases ph with
  | counting | encoding _ | draining _ | finishing _ => exact ⟨_, rfl⟩
  | decoding c la =>
    obtain ⟨-, hat, hcur⟩ := h
    cases la with
    | none => exact ⟨_, rfl⟩
    | some p =>
      have hstop := hat.walkBits_stop_ne_offTree hcur (bitsOf p)
      simp only [takeByte, decodeByte]
      split
      · exact ⟨_, rfl⟩
      · exact ⟨_, rfl⟩
      · exact absurd ‹_› hstop

/-- A running command takes `End`. -/
theorem RunningHolds.exists_takeEnd {r : Running} {s : State} (h : RunningHolds r s) :
    ∃ p, takeEnd s r.phase = .ok p := by
  obtain ⟨st0, ph, pend⟩ := r
  cases ph with
  | counting | encoding _ | draining _ | finishing _ => exact ⟨_, rfl⟩
  | decoding c la =>
    obtain ⟨-, hat, hcur⟩ := h
    cases la with
    | none => exact ⟨_, rfl⟩
    | some p =>
      have hstop := hat.walkBits_stop_ne_offTree hcur ((bitsOf p).take (8 - s.pad.toNat))
      simp only [takeEnd, decodeEnd]
      split
      · exact ⟨_, rfl⟩
      · exact ⟨_, rfl⟩
      · exact absurd ‹_› hstop

/-! ### The engine, the commands and the moves -/

theorem conclude_ne_fault (e : Ending) (r : Running) (s : State) (f : Fault) : conclude e r s ≠ .fault f := by
  unfold conclude park
  split <;> nofun

theorem feed_ne_fault {ended : Bool} {bs : List Byte} {r : Running} {s : State} (h : RunningHolds r s) (f : Fault) :
    feed ended bs r s ≠ .fault f := by
  induction bs generalizing r s with
  | nil =>
    obtain ⟨⟨e, out⟩, he⟩ := h.exists_takeEnd
    rw [feed, he]
    split
    · exact conclude_ne_fault _ _ _ f
    · nofun
  | cons b bs ih =>
    obtain ⟨tk, htk⟩ := h.exists_takeByte b
    rw [feed, htk]
    split
    · exact ih ((takeByte_keeps_runningHolds h htk).putOut _)
    · nofun

theorem start_ne_fault {st0 : Stage} {ph : Phase} {s : State} (h : RunningHolds ⟨st0, ph, []⟩ s) (f : Fault) :
    start st0 ph s ≠ .fault f :=
  feed_ne_fault h f

theorem resume_ne_fault {s : State} (h : Inv s) (f : Fault) : resume s ≠ .fault f := by
  obtain ⟨-, h⟩ := h
  unfold resume
  split
  · nofun
  · rename_i r hr
    rw [hr] at h
    dsimp only
    split
    · split <;> nofun
    · exact feed_ne_fault (h.putOut []) f

/-- No command issued at rest stops with a fault (R176, R199, R246). -/
theorem exec_ne_fault {i : Instr} {s : State} (h : HoldsAt s.stage s) (f : Fault) : exec i s ≠ .fault f := by
  by_cases hl : Instr.legalAt i s.stage = true
  case neg =>
    rw [exec_of_illegal (by simpa using hl)]
    nofun
  cases i with
  | clear =>
    rw [exec, execClear, ifLegal_of_legal hl]
    nofun
  | fscan =>
    rw [exec_fscan]
    refine start_ne_fault ?_ f
    exact ⟨rfl, holdsAt_counted_sessionClear s⟩
  | tbuild =>
    rw [exec_tbuild_of_counted ((legalAt_iff _ _).1 hl)]
    nofun
  | cassign =>
    rw [show s.stage = .built from (legalAt_iff _ _).1 hl] at h
    obtain ⟨-, htree, -⟩ := h
    obtain ⟨codes, hc⟩ := exists_assignCodes_buildTree s.freq s.code
    rw [exec, execCassign, ifLegal_of_legal hl, htree, hc]
    nofun
  | encode =>
    rw [exec_encode_of_legal hl]
    refine start_ne_fault ?_ f
    exact ⟨(legalAt_iff _ _).1 hl, h, Nat.zero_le _⟩
  | decode =>
    have hst : s.stage = .encoded := (legalAt_iff _ _).1 hl
    rw [hst] at h
    rw [exec_decode_of_legal hl, decodeStart]
    split
    · refine start_ne_fault ?_ f
      exact ⟨hst, h⟩
    · have htree : s.tree = buildTree [] s.freq := h.2.1
      have hn : s.tree.nsym ≠ 0 := ‹_›
      have hcur : CursorOnTree s.tree s.tree.root := by
        rw [htree] at hn ⊢
        exact cursorOnTree_root hn
      refine start_ne_fault ?_ f
      exact ⟨hst, h, hcur⟩

theorem writeCmd_ne_fault {s : State} (h : Inv s) (w : Byte) (operand : Option (List Byte)) (f : Fault) :
    writeCmd w operand s ≠ .fault f := by
  unfold writeCmd dispatch
  split
  · nofun
  · split
    · nofun
    · have hr : s.running = none := by simpa [State.busy] using ‹¬s.busy = true›
      rename_i i _ _
      rw [handOver_frame]
      exact exec_ne_fault (s := { s with inStream := (handOver i operand s).inStream }) (h.holdsAt hr) f

theorem hostMove_ne_fault {m : HostMove} {s : State} (h : Inv s) (f : Fault) : hostMove m s ≠ .fault f := by
  cases m with
  | command w operand => exact writeCmd_ne_fault h w operand f
  | write n v =>
    rw [hostMove]
    split
    · exact writeCmd_ne_fault h _ none f
    · nofun
  | read n => nofun
  | supply bytes last =>
    rw [hostMove]
    rcases supplyIn_cases bytes last s with ⟨-, -, he⟩ | ⟨-, ⟨-, he⟩ | ⟨r, -, ⟨-, he⟩ | ⟨-, he⟩⟩⟩ <;> rw [he]
    · nofun
    · nofun
    · nofun
    · exact resume_ne_fault (s := { s with inStream := ⟨s.inStream.bytes ++ bytes, last⟩ }) h f
  | takeOut room => exact resume_ne_fault (s := { s with outRoom := room }) h f
  | reset => nofun

/-- Settles O48: only the walks of `CASSIGN` and `DECODE` can fault, and the invariant keeps both on a built tree. -/
theorem noStepFaultsUnderTheInvariant : Obligations.NoStepFaultsUnderTheInvariant := by
  intro s h f
  cases hm : s.hostMoves with
  | nil =>
    rw [step_of_no_move hm]
    nofun
  | cons m rest =>
    rw [step_of_move hm]
    exact hostMove_ne_fault (s := { s with hostMoves := rest }) h f

end Sys2Proof.Machine
end

section
/-! PROOFS. `CASSIGN` (spec 43_code_assigner.md R191 to R195). `TreeValue.pathOf` is the path a tree value has to a
symbol; over an arena that stands for a tree value `CASSIGN` leaves exactly these paths. That these are the
paths to the leaves, that none begins another, that their shares add up to 1 and that every bit sequence begins with one
of them are inductions on the tree value. -/

namespace Sys2Proof.Machine

/-! ### The command -/

theorem exec_cassign_of_built {s : State} {codes : Table (Option Bits)} (hst : s.stage = .built)
    (hc : assignCodes s.tree s.code = some codes) :
    exec .cassign s = .next { s with
      code := codes, stage := .assigned, result := .ok, rinfo := 0, running := none,
      record := s.record ++ [(.ok, 0)] } := by
  rw [exec, execCassign, ifLegal_of_legal ((legalAt_iff _ _).2 hst), hc]
  rfl

theorem assignCodes_of_empty {t : Tree} (h : t.nsym = 0) (codes : Table (Option Bits)) :
    assignCodes t codes = some codes := if_pos h

theorem assignCodes_of_singleLeaf {t : Tree} {f : Nat} {v : Byte} (h : t.nsym = 1)
    (hv : arenaAt t.node t.root = .leaf f v) (codes : Table (Option Bits)) :
    assignCodes t codes = some (codeSet codes v [false]) := by
  simp [assignCodes, h, hv]

/-- Settles O27: for the empty tree the code table is left as it is. -/
theorem cassignOfTheEmptyTree : Obligations.CassignOfTheEmptyTree := fun s hst hn =>
  exec_cassign_of_built hst (assignCodes_of_empty (t := s.tree) hn s.code)

/-- The code table after a write, whatever form it has. -/
theorem read_codeSet (t : Table (Option Bits)) (v w : Byte) (c : Bits) :
    Table.read none (codeSet t v c) w.toNat = if w = v then some c else Table.read none t w.toNat := by
  split
  · subst w
    exact Table.read_write_of_ne t v.toNat (Option.some_ne_none c)
  · exact read_codeSet_other t c ‹_›

/-- Settles O28: the code "0" is written for the symbol of the root's leaf, and nothing else. -/
theorem cassignOfTheSingleLeaf : Obligations.CassignOfTheSingleLeaf := by
  intro s f v hst hn hv
  refine ⟨_, exec_cassign_of_built hst (assignCodes_of_singleLeaf (t := s.tree) hn hv s.code), ?_, fun w hw => ?_⟩
  · rw [read_codeSet, if_pos rfl]
  · rw [read_codeSet, if_neg hw, State.codeAt]

/-! ### The path to a symbol -/

/-- The path from the root to the leaf of a symbol, "0" for left and "1" for right (R191), if the tree has one; the
rightmost where there are several, as the walk writes it last. -/
def TreeValue.pathOf (v : Byte) : TreeValue → Option Bits
  | .leaf _ u => if v = u then some [] else none
  | .internal _ a b => ((b.pathOf v).map (true :: ·)).or ((a.pathOf v).map (false :: ·))

/-- The walk below a node writes for every symbol of its tree the path to it, after the node's own (R191, R194). -/
theorem TreeValue.StandsAt.read_assignFrom {node : Table Node} {t : TreeValue} {k : NodeIx} (h : t.StandsAt node k)
    {d : Nat} {p : Bits} {codes codes' : Table (Option Bits)} (hc : assignFrom node d k p codes = some codes')
    (v : Byte) :
    Table.read none codes' v.toNat = ((t.pathOf v).map (p ++ ·)).or (Table.read none codes v.toNat) := by
  induction t generalizing k d p codes codes' with
  | leaf f u =>
    cases d with
    | zero => simp [assignFrom] at hc
    | succ d =>
      simp only [assignFrom, show arenaAt node k = .leaf f u from h, Option.some.injEq] at hc
      rw [← hc, read_codeSet, pathOf]
      split <;> simp
  | internal f a b iha ihb =>
    cases d with
    | zero => simp [assignFrom] at hc
    | succ d =>
      obtain ⟨l, r, hk, ha, hb⟩ := h
      simp only [assignFrom, hk] at hc
      split at hc
      · simp at hc
      · rw [ihb hb hc, iha ha ‹_›, pathOf, ← Option.or_assoc]
        simp [Option.map_or, Function.comp_def]

/-- A tree has a path to its own symbols only. -/
theorem TreeValue.pathOf_eq_none_iff {t : TreeValue} {v : Byte} : t.pathOf v = none ↔ v ∉ t.symbols := by
  induction t with
  | leaf f u => simp [pathOf, symbols]
  | internal f a b iha ihb => simp [pathOf, symbols, iha, ihb, and_comm]

/-- A path from an internal node goes on in the child its first bit names (R191). -/
theorem TreeValue.pathOf_internal_eq_some_iff {f : Nat} {a b : TreeValue} (hnodup : (a.symbols ++ b.symbols).Nodup)
    {v : Byte} {c : Bits} :
    (internal f a b).pathOf v = some c ↔
      (∃ q, c = false :: q ∧ a.pathOf v = some q) ∨ ∃ q, c = true :: q ∧ b.pathOf v = some q := by
  rw [pathOf]
  cases hb : b.pathOf v with
  | none => simp [and_comm, eq_comm]
  | some q =>
    have ha : a.pathOf v = none := pathOf_eq_none_iff.2 fun hv => by
      simp [pathOf_eq_none_iff.2 (List.disjoint_of_nodup_append hnodup hv)] at hb
    simp [ha, eq_comm]

/-- Over a tree of distinct symbols the path to a symbol is the path to a leaf of it (R191). -/
theorem TreeValue.StandsAt.pathOf_eq_some_iff {node : Table Node} {t : TreeValue} {k : NodeIx} (h : t.StandsAt node k)
    (hnodup : t.symbols.Nodup) {v : Byte} {c : Bits} :
    t.pathOf v = some c ↔ ∃ (j : NodeIx) (f : Nat), PathTo node k c j ∧ arenaAt node j = .leaf f v := by
  induction t generalizing k c with
  | leaf f u =>
    have hk : arenaAt node k = .leaf f u := h
    simp only [pathOf, Option.ite_none_right_eq_some, Option.some.injEq]
    constructor
    · rintro ⟨rfl, rfl⟩
      exact ⟨k, f, .here k, hk⟩
    · rintro ⟨j, f', hpath, hj⟩
      cases hpath with
      | here => simp_all
      | left hm | right hm => simp [hk] at hm
  | internal f a b iha ihb =>
    obtain ⟨l, r, hk, ha, hb⟩ := h
    rw [pathOf_internal_eq_some_iff hnodup]
    constructor
    · rintro (⟨q, rfl, hq⟩ | ⟨q, rfl, hq⟩)
      · obtain ⟨j, g, hpath, hj⟩ := (iha ha hnodup.of_append_left).1 hq
        exact ⟨j, g, .left hk hpath, hj⟩
      · obtain ⟨j, g, hpath, hj⟩ := (ihb hb hnodup.of_append_right).1 hq
        exact ⟨j, g, .right hk hpath, hj⟩
    · rintro ⟨j, g, hpath, hj⟩
      cases hpath with
      | here => simp [hk] at hj
      | left hm hpath =>
        cases hk.symm.trans hm
        exact .inl ⟨_, rfl, (iha ha hnodup.of_append_left).2 ⟨j, g, hpath, hj⟩⟩
      | right hm hpath =>
        cases hk.symm.trans hm
        exact .inr ⟨_, rfl, (ihb hb hnodup.of_append_right).2 ⟨j, g, hpath, hj⟩⟩

/-! ### Every bit sequence begins with exactly one path -/

/-- No path begins another symbol's (R195). -/
theorem TreeValue.eq_of_pathOf_prefix {t : TreeValue} (hnodup : t.symbols.Nodup) {x y : Byte} {cx cy : Bits}
    (hx : t.pathOf x = some cx) (hy : t.pathOf y = some cy) (hp : cx <+: cy) : x = y := by
  induction t generalizing cx cy with
  | leaf f u =>
    simp only [pathOf, Option.ite_none_right_eq_some] at hx hy
    exact hx.1.trans hy.1.symm
  | internal f a b iha ihb =>
    rw [pathOf_internal_eq_some_iff hnodup] at hx hy
    rcases hx with ⟨px, rfl, hx⟩ | ⟨px, rfl, hx⟩ <;> rcases hy with ⟨py, rfl, hy⟩ | ⟨py, rfl, hy⟩
    · exact iha hnodup.of_append_left hx hy (List.cons_prefix_cons.1 hp).2
    · simp at hp
    · simp at hp
    · exact ihb hnodup.of_append_right hx hy (List.cons_prefix_cons.1 hp).2

/-- The first `n` bits of an infinite bit sequence. -/
def firstBits (w : Nat → Bool) (n : Nat) : Bits := (List.range n).map w

theorem firstBits_succ (w : Nat → Bool) (n : Nat) : firstBits w (n + 1) = w 0 :: firstBits (fun i => w (i + 1)) n := by
  simp [firstBits, List.range_succ_eq_map, Function.comp_def]

theorem firstBits_prefix (w : Nat → Bool) {m n : Nat} (h : m ≤ n) : firstBits w m <+: firstBits w n := by
  obtain ⟨k, rfl⟩ := Nat.exists_eq_add_of_le h
  rw [firstBits, firstBits, List.range_add, List.map_append]
  exact List.prefix_append _ _

/-- Every infinite bit sequence leads from the root to a leaf (R195). -/
theorem TreeValue.exists_pathOf_eq_firstBits {t : TreeValue} (hnodup : t.symbols.Nodup) (w : Nat → Bool) :
    ∃ v n, t.pathOf v = some (firstBits w n) := by
  induction t generalizing w with
  | leaf f u => exact ⟨u, 0, if_pos rfl⟩
  | internal f a b iha ihb =>
    cases hw : w 0 with
    | false =>
      obtain ⟨v, n, hv⟩ := iha hnodup.of_append_left fun i => w (i + 1)
      exact ⟨v, n + 1, (pathOf_internal_eq_some_iff hnodup).2 (.inl ⟨_, by rw [firstBits_succ, hw], hv⟩)⟩
    | true =>
      obtain ⟨v, n, hv⟩ := ihb hnodup.of_append_right fun i => w (i + 1)
      exact ⟨v, n + 1, (pathOf_internal_eq_some_iff hnodup).2 (.inr ⟨_, by rw [firstBits_succ, hw], hv⟩)⟩

/-- Every infinite bit sequence begins with the path to exactly one symbol (R195). -/
theorem TreeValue.existsUnique_pathOf_eq_firstBits {t : TreeValue} (hnodup : t.symbols.Nodup) (w : Nat → Bool) :
    ∃! v, ∃ c, t.pathOf v = some c ∧ c = firstBits w c.length := by
  obtain ⟨v, n, hv⟩ := exists_pathOf_eq_firstBits hnodup w
  refine ⟨v, ⟨_, hv, by simp [firstBits]⟩, ?_⟩
  rintro u ⟨c, hu, hc⟩
  rw [hc] at hu
  rcases Nat.le_total c.length n with hle | hle
  · exact eq_of_pathOf_prefix hnodup hu hv (firstBits_prefix w hle)
  · exact (eq_of_pathOf_prefix hnodup hv hu (firstBits_prefix w hle)).symm

/-! ### The Kraft sum -/

/-- The share 2^(-length) of a code in the Kraft sum, times 2^d (R195); no code has no share. -/
def codeShare (d : Nat) (c : Option Bits) : Nat := (c.map fun c => 2 ^ (d - c.length)).getD 0

/-- A symbol has its share in one child at most, where the code is one bit shorter. -/
theorem TreeValue.codeShare_pathOf_internal {f : Nat} {a b : TreeValue} (hnodup : (a.symbols ++ b.symbols).Nodup)
    (d : Nat) (v : Byte) :
    codeShare (d + 1) ((internal f a b).pathOf v) = codeShare d (a.pathOf v) + codeShare d (b.pathOf v) := by
  by_cases hv : v ∈ a.symbols
  · have hb : b.pathOf v = none := pathOf_eq_none_iff.2 (List.disjoint_of_nodup_append hnodup hv)
    cases ha : a.pathOf v <;> simp [pathOf, codeShare, ha, hb]
  · have ha : a.pathOf v = none := pathOf_eq_none_iff.2 hv
    cases hb : b.pathOf v <;> simp [pathOf, codeShare, ha, hb]

/-- The shares of the codes of a tree add up to 1 (R195). -/
theorem TreeValue.sum_codeShare_pathOf {t : TreeValue} (hnodup : t.symbols.Nodup) {d : Nat} (hd : t.height ≤ d) :
    (allBytes.map fun v => codeShare d (t.pathOf v)).sum = 2 ^ d := by
  induction t generalizing d with
  | leaf f u =>
    rw [List.sum_map_eq_nsmul_single u _ fun v hv _ => by simp [pathOf, codeShare, hv],
      List.count_eq_one_of_mem nodup_allBytes (mem_allBytes u)]
    simp [pathOf, codeShare]
  | internal f a b iha ihb =>
    rw [height] at hd
    obtain ⟨d, rfl⟩ := Nat.exists_eq_add_of_le' (Nat.one_le_of_lt hd)
    simp only [codeShare_pathOf_internal hnodup, List.sum_map_add, iha hnodup.of_append_left (d := d) (by omega),
      ihb hnodup.of_append_right (d := d) (by omega)]
    omega

/-! ### The codes of a built tree -/

/-- With two or more leaves the codes are the paths of a tree value of distinct symbols (R43, R191), none longer than a
code entry holds (R172). -/
theorem assignCodes_buildTree_eq_pathOf {freq : Table Nat} {codes : Table (Option Bits)}
    (hn : 2 ≤ (buildTree [] freq).nsym.toNat) (h : assignCodes (buildTree [] freq) [] = some codes) :
    ∃ t : TreeValue, t.StandsAt (buildTree [] freq).node (buildTree [] freq).root ∧ t.symbols.Nodup ∧
      t.height ≤ 255 ∧ ∀ v : Byte, Table.read none codes v.toNat = t.pathOf v := by
  rcases assignCodes_cases h with ⟨h0, -⟩ | ⟨h1, -⟩ | ⟨h0, -, hwalk⟩
  · simp [h0] at hn
  · simp [h1] at hn
  · obtain ⟨t, ht, hperm, -⟩ := buildTree_stands h0
    have hheight := t.height_lt_length_symbols
    have hlen := hperm.length_eq.trans_le (length_present_le freq)
    refine ⟨t, ht, hperm.nodup_iff.2 (nodup_present freq), by omega, fun v => ?_⟩
    rw [ht.read_assignFrom hwalk]
    simp [Table.read]

/-- Settles O29: the walk writes the paths of the tree value the arena stands for, and no path outgrows a code entry. -/
theorem cassignGivesEveryLeafItsPath : Obligations.CassignGivesEveryLeafItsPath := by
  intro s hinv hr hst hn
  have hat := hinv.holdsAt hr
  rw [hst] at hat
  obtain ⟨-, htree, hcode, -⟩ := hat
  have hnode : s.node = (buildTree [] s.freq).node := congrArg Tree.node htree
  have hroot : s.root = (buildTree [] s.freq).root := congrArg Tree.root htree
  have hnsym : s.nsym = (buildTree [] s.freq).nsym := congrArg Tree.nsym htree
  rw [hnsym] at hn
  obtain ⟨codes, hcodes⟩ := exists_assignCodes_buildTree s.freq []
  obtain ⟨t, ht, hnodup, -, hread⟩ := assignCodes_buildTree_eq_pathOf hn hcodes
  rw [← hnode, ← hroot] at ht
  refine ⟨codes, ?_, fun v c => ?_, fun v c hc => ?_⟩
  · rw [exec_cassign_of_built hst (by rw [htree, hcode, hcodes]), ← hr]
  · rw [hread, ht.pathOf_eq_some_iff hnodup]
  · have hmem := Table.mem_of_read (hc.trans_ne (Option.some_ne_none c))
    rw [hc] at hmem
    exact of_decide_eq_true (assignCodes_wfCode hcodes hmem)

/-- At the stages with codes these are the codes of the tree built from the counts (R42). -/
theorem HoldsAt.codes {s : State} (h : HoldsAt s.stage s) (hst : s.stage = .assigned ∨ s.stage = .encoded) :
    s.nsym = (buildTree [] s.freq).nsym ∧ assignCodes (buildTree [] s.freq) [] = some s.code := by
  rcases hst with hst | hst <;> rw [hst] at h
  · obtain ⟨-, htree, hcodes, -⟩ := h
    exact ⟨congrArg Tree.nsym htree, htree ▸ hcodes⟩
  · obtain ⟨-, htree, hcodes⟩ := h
    exact ⟨congrArg Tree.nsym htree, htree ▸ hcodes⟩

/-- With one leaf its symbol alone has a code, the one bit 0 (R192, R195). -/
theorem assignCodes_read_of_singleLeaf {t : Tree} {codes : Table (Option Bits)} (h1 : t.nsym = 1)
    (h : assignCodes t [] = some codes) :
    ∃ v : Byte, ∀ u : Byte, Table.read none codes u.toNat = if u = v then some [false] else none := by
  rcases assignCodes_cases h with ⟨h0, -⟩ | ⟨-, v, rfl⟩ | ⟨-, hne, -⟩
  · simp [h0] at h1
  · exact ⟨v, fun u => read_codeSet [] v u [false]⟩
  · exact absurd h1 hne

/-- No code begins another symbol's, whatever the number of leaves (R195). -/
theorem assignCodes_buildTree_prefixFree {freq : Table Nat} {codes : Table (Option Bits)}
    (h : assignCodes (buildTree [] freq) [] = some codes) {x y : Byte} {cx cy : Bits}
    (hx : Table.read none codes x.toNat = some cx) (hy : Table.read none codes y.toNat = some cy)
    (hp : cx <+: cy) : x = y := by
  rcases assignCodes_cases h with ⟨-, rfl⟩ | ⟨h1, -⟩ | ⟨h0, h1, -⟩
  · simp [Table.read] at hx
  · obtain ⟨v, hread⟩ := assignCodes_read_of_singleLeaf h1 h
    simp only [hread, Option.ite_none_right_eq_some] at hx hy
    exact hx.1.trans hy.1.symm
  · obtain ⟨t, -, hnodup, -, hread⟩ := assignCodes_buildTree_eq_pathOf (by bv_omega) h
    rw [hread] at hx hy
    exact TreeValue.eq_of_pathOf_prefix hnodup hx hy hp

/-- Settles O31: the codes are the paths of one tree value, of which each part is an induction. -/
theorem codesArePrefixFreeAndComplete : Obligations.CodesArePrefixFreeAndComplete := by
  intro s hinv hr hst
  obtain ⟨hn, hcodes⟩ := (hinv.holdsAt hr).codes hst
  rw [hn]
  refine ⟨fun x y cx cy hne hx hy hp => hne (assignCodes_buildTree_prefixFree hcodes hx hy hp), fun h2 => ?_,
    fun h1 => ?_⟩
  · obtain ⟨t, -, hnodup, hheight, hread⟩ := assignCodes_buildTree_eq_pathOf h2 hcodes
    have hcode (v : Byte) : s.codeAt v = t.pathOf v := hread v
    simp only [hcode]
    exact ⟨TreeValue.sum_codeShare_pathOf hnodup hheight, TreeValue.existsUnique_pathOf_eq_firstBits hnodup⟩
  · obtain ⟨v, hread⟩ := assignCodes_read_of_singleLeaf h1 hcodes
    exact ⟨v, (hread v).trans (if_pos rfl), fun u hu => (hread u).trans (if_neg hu)⟩

end Sys2Proof.Machine
end

section
/-! PROOFS. The rest of 44_encoder.md: how many bytes an `ENCODE` puts and what it leaves in `pad` (R217, R218), and what
it does not write (R210, R219). The first is arithmetic on the packed stream; the second an induction over the stream by
`feed_cases`, as of the streaming commands `FSCAN` alone writes counts. -/

namespace Sys2Proof.Machine

/-! ### The pad count -/

/-- A pad count fits the 3 bits of `pad` (R25). -/
theorem toNat_ofNat_padFor (t : Nat) : (BitVec.ofNat 3 (padFor t)).toNat = padFor t :=
  (BitVec.toNat_ofNat ..).trans (Nat.mod_eq_of_lt (Nat.mod_lt _ (by decide)))

theorem padFor_eq_zero_iff (t : Nat) : padFor t = 0 ↔ t % 8 = 0 := by
  unfold padFor
  omega

/-- The bits and the pad together fill the bytes of the packed stream (R217). -/
theorem length_add_padFor (bits : Bits) : bits.length + padFor bits.length = 8 * (packed bits).length := by
  simpa [zeros] using length_append_zeros_padFor bits

/-! ### The packed stream of 0 bits -/

theorem byteOf_zeros (k : Nat) : byteOf (zeros k) = 0 :=
  BitVec.eq_of_getLsbD_eq fun j hj => by simp [getLsbD_byteOf _ hj, zeros]

theorem packedBytes_zeros (n k : Nat) : packedBytes n (zeros k) = List.replicate n 0 := by
  induction n generalizing k with
  | zero => rfl
  | succ n ih =>
    have htake : (zeros k).take 8 = zeros (min 8 k) := List.take_replicate
    have hdrop : (zeros k).drop 8 = zeros (k - 8) := List.drop_replicate
    rw [packedBytes_succ, htake, hdrop, byteOf_zeros, ih, List.replicate_succ]

theorem packed_zeros (k : Nat) : packed (zeros k) = List.replicate ((k + 7) / 8) 0 := by
  have hlen : (zeros k).length = k := List.length_replicate
  have happend : zeros k ++ zeros (padFor k) = zeros (k + padFor k) := List.replicate_append_replicate
  rw [packed, hlen, happend, packedBytes_zeros]

/-- With the code of a single-leaf tree (R192) every byte adds one 0 bit. -/
theorem codeBits_of_oneBitCodes {s : State} {d : List Byte} (h : ∀ b ∈ d, s.codeAt b = some [false]) :
    codeBits s d = zeros d.length := by
  induction d with
  | nil => rfl
  | cons b d ih =>
    rw [codeBits_cons d (h b List.mem_cons_self), ih fun v hv => h v (List.mem_cons_of_mem _ hv)]
    rfl

/-- Settles O35: `ENCODE` puts the packed stream of the code bits, whose bytes the bits and the pad fill; one-bit codes
give the packed stream of 0 bits. -/
theorem encodeLengthAndPadLaw : Obligations.EncodeLengthAndPadLaw := by
  intro s d hst hs hd
  refine ⟨_, packed (codeBits s d), exec_encode_of_allCoded hst hs hd, (List.append_assoc ..).symm, length_packed _, ?_,
    ?_, fun hone => ?_⟩
  · rw [← BitVec.toNat_inj, toNat_ofNat_padFor]
    exact padFor_eq_zero_iff _
  · rw [toNat_ofNat_padFor]
    exact length_add_padFor _
  · rw [codeBits_of_oneBitCodes hone, packed_zeros]
    exact ⟨List.length_replicate, fun b => List.eq_of_mem_replicate⟩

/-! ### What `ENCODE` does not write -/

/-- The counts, the tree and the codes of the session (R22 to R24, R27 to R29). -/
def State.coding (s : State) : Table Nat × Nat × Tree × Table (Option Bits) := (s.freq, s.total, s.tree, s.code)

theorem putOut_coding (items : List Item) (r : Running) (s : State) : (putOut items r s).2.coding = s.coding := by
  rw [putOut_frame]
  rfl

theorem finish_coding (e : Ending) (s : State) : (finish e s).coding = s.coding := by
  rw [finish_frame]
  rfl

/-- Only `FSCAN` writes the session when it takes a byte (R143, R144). -/
theorem takeByte_state_of_ne_fscan {b : Byte} {s : State} {ph : Phase} {tk : Taken} (hph : ph.command ≠ .fscan)
    (h : takeByte b s ph = .ok tk) : tk.state = s := by
  cases ph with
  | counting => exact absurd rfl hph
  | encoding bitbuf =>
    simp only [takeByte, encodeByte] at h
    split at h <;> cases h <;> rfl
  | decoding c la => exact (decodeByte_cases h).1
  | draining e | finishing e =>
    cases h
    rfl

/-- Over its stream a command other than `FSCAN` leaves the counts, the tree and the codes alone. -/
theorem feed_coding {i : Instr} (hi : i ≠ .fscan) {ended : Bool} {bs : List Byte} {r : Running} {s t : State}
    (hwork : AtWork i r.phase s) (h : feed ended bs r s = .next t) : t.coding = s.coding := by
  rcases feed_cases (fun q u => AtWork i q.phase u ∧ u.coding = s.coding)
      (fun b q u tk ⟨⟨hcmd, hst⟩, hu⟩ _ htk =>
        ⟨AtWork.putOut (r := { q with phase := tk.phase }) (takeByte_keeps_atWork ⟨hcmd, hst⟩ htk) tk.out, by
          rw [putOut_coding, takeByte_state_of_ne_fscan (hcmd.trans_ne hi) htk, hu]⟩)
      ⟨hwork, rfl⟩ h with
    ⟨bs', q, u, ⟨-, hu⟩, rfl, -⟩ | ⟨q, u, e, out, ⟨-, hu⟩, -, -, -, hc⟩
  · exact hu
  · rw [← hu, ← putOut_coding out q u]
    rcases conclude_cases hc with ⟨-, rfl⟩ | ⟨-, rfl⟩
    · exact finish_coding e _
    · rfl

theorem exec_encode_coding {s t : State} (h : exec .encode s = .next t) : t.coding = s.coding := by
  rcases exec_cases h with ⟨-, rfl⟩ | ⟨-, hstart⟩
  · rfl
  · exact feed_coding (i := .encode) nofun ⟨rfl, trivial⟩ hstart

/-- Settles O37: what `ENCODE` may not write is the counts, the tree, the codes and the host's side. -/
theorem encodeLeavesTreeAndCodesAlone : Obligations.EncodeLeavesTreeAndCodesAlone := by
  intro s t h
  have hcoding := exec_encode_coding h
  have hhost := exec_hostSide h
  cases s
  cases t
  cases hcoding
  cases hhost
  rfl

end Sys2Proof.Machine
end

section
/-! PROOFS. `DECODE` (spec 45_decoder.md R241 to R251). The engine, with its look-ahead byte, makes one walk over the
retained bits of its whole stream: `feed_decoding`, an induction over the stream. The pad bits and the empty stream
follow from what is retained; the table of R248 is what the walk gives on a built tree. What `DECODE` does not write is
an induction by `feed_cases`. -/

namespace Sys2Proof.Machine

/-! ### The retained bits -/

@[simp] theorem length_flatMap_bitsOf (p : List Byte) : (p.flatMap bitsOf).length = 8 * p.length := by
  simp [List.length_flatMap, Nat.mul_comm]

@[simp] theorem retained_nil (pad : Nat) : retained pad [] = [] := List.take_nil

/-- The pad is cut off the last byte (R243). -/
theorem retained_append_singleton {pad : Nat} (hpad : pad ≤ 8) (p : List Byte) (b : Byte) :
    retained pad (p ++ [b]) = p.flatMap bitsOf ++ (bitsOf b).take (8 - pad) := by
  have hlen : 8 * (p ++ [b]).length - pad = (p.flatMap bitsOf).length + (8 - pad) := by
    rw [length_flatMap_bitsOf, List.length_append, List.length_singleton]
    omega
  rw [retained, hlen, List.flatMap_append, List.flatMap_singleton, List.take_length_add_append]

/-- All bits of a byte that is not the last are retained (R242, R243). -/
theorem retained_cons_cons {pad : Nat} (hpad : pad ≤ 8) (a b : Byte) (p : List Byte) :
    retained pad (a :: b :: p) = bitsOf a ++ retained pad (b :: p) := by
  have hlen : 8 * (a :: b :: p).length - pad = (bitsOf a).length + (8 * (b :: p).length - pad) := by
    simp only [length_bitsOf, List.length_cons]
    omega
  rw [retained, hlen, List.flatMap_cons, List.take_length_add_append, retained]

/-- Bytes that agree from bit `pad` up have the same retained bits. -/
theorem take_bitsOf_congr {pad : Nat} {b c : Byte} (h : ∀ j, pad ≤ j → b.getLsbD j = c.getLsbD j) :
    (bitsOf b).take (8 - pad) = (bitsOf c).take (8 - pad) :=
  List.ext_getElem (by simp) fun i hb hc => by
    rw [List.length_take] at hb
    rw [List.getElem_take, List.getElem_take, getElem_bitsOf, getElem_bitsOf]
    exact h _ (by omega)

/-! ### One walk after another -/

theorem walkBits_cons_of_ok {t : Tree} {c c' : NodeIx} {x : Bool} {o : Option Byte} (xs : Bits)
    (h : walkBit t c x = .ok (c', o)) :
    walkBits t c (x :: xs) = { walkBits t c' xs with out := o.toList ++ (walkBits t c' xs).out } := by
  rw [walkBits, h]

theorem walkBits_cons_of_error {t : Tree} {c : NodeIx} {x : Bool} {e : WalkStop} (xs : Bits)
    (h : walkBit t c x = .error e) : walkBits t c (x :: xs) = ⟨[], c, some e⟩ := by
  rw [walkBits, h]

/-- A walk goes on where the walk over the bits before ended (R247). -/
theorem walkBits_append_of_stop_none {t : Tree} {c : NodeIx} {xs : Bits} (ys : Bits)
    (h : (walkBits t c xs).stop = none) :
    walkBits t c (xs ++ ys) =
      { walkBits t (walkBits t c xs).cursor ys with
        out := (walkBits t c xs).out ++ (walkBits t (walkBits t c xs).cursor ys).out } := by
  induction xs generalizing c with
  | nil => rfl
  | cons x xs ih =>
    cases hx : walkBit t c x with
    | error e =>
      rw [walkBits_cons_of_error xs hx] at h
      cases h
    | ok r =>
      obtain ⟨c', o⟩ := r
      rw [walkBits_cons_of_ok xs hx] at h ⊢
      rw [List.cons_append, walkBits_cons_of_ok _ hx, ih h]
      simp

/-- A walk that has stopped takes no further bit (R246). -/
theorem walkBits_append_of_stop_some {t : Tree} {c : NodeIx} {xs : Bits} {e : WalkStop} (ys : Bits)
    (h : (walkBits t c xs).stop = some e) : walkBits t c (xs ++ ys) = walkBits t c xs := by
  induction xs generalizing c with
  | nil => cases h
  | cons x xs ih =>
    cases hx : walkBit t c x with
    | error e' => rw [List.cons_append, walkBits_cons_of_error _ hx, walkBits_cons_of_error _ hx]
    | ok r =>
      obtain ⟨c', o⟩ := r
      rw [walkBits_cons_of_ok xs hx] at h ⊢
      rw [List.cons_append, walkBits_cons_of_ok _ hx, ih h]

/-! ### The engine -/

/-- How `DECODE` ends when all its retained bits have given the walk `w` (R246). -/
def Walked.ending (root : NodeIx) (w : Walked) : Except Fault Ending :=
  match w.stop with
  | none => .ok (if w.cursor = root then .decoded else .dangling)
  | some .badBit => .ok .badBit
  | some .offTree => .error .treeIllFormed

/-- At `End` the retained bits of the byte held back are walked, if there is one (R242). -/
theorem decodeEnd_eq (c : NodeIx) (la : Option Byte) (s : State) :
    decodeEnd c la s = ((walkBits s.tree c (retained s.pad.toNat la.toList)).ending s.root).map fun e =>
      (e, outItems (walkBits s.tree c (retained s.pad.toNat la.toList)).out) := by
  cases la with
  | none =>
    rw [Option.toList_none, retained_nil]
    rfl
  | some a =>
    have hbits : retained s.pad.toNat (some a).toList = (bitsOf a).take (8 - s.pad.toNat) := rfl
    rw [hbits]
    unfold decodeEnd
    dsimp only
    obtain ⟨out, cursor, _ | _ | _⟩ := walkBits s.tree c ((bitsOf a).take (8 - s.pad.toNat)) <;> rfl

/-- What `DECODE`, served whole, answers when all its retained bits have given the walk `w` (R246). -/
def endDecode (w : Walked) (s : State) : StepResult :=
  match w.ending s.root with
  | .error f => .fault f
  | .ok e => .next (finish e { s with inStream := InStream.nothing, outStream := s.outStream ++ outItems w.out })

/-- The state after a `DECODE` that has been served whole: the bytes it has put, then `End`, and its result (R246). -/
def State.afterDecode (o : List Byte × ResultCode) (s : State) : State :=
  State.complete o.2 0 { s with inStream := InStream.nothing, outStream := s.outStream ++ outItems o.1 }

theorem endDecode_of_stop_none {w : Walked} (s : State) (h : w.stop = none) :
    endDecode w s = .next (s.afterDecode (w.out, if w.cursor = s.root then .ok else .dangling)) := by
  rw [endDecode, Walked.ending, h]
  dsimp only
  split <;> rfl

theorem endDecode_of_badBit {w : Walked} (s : State) (h : w.stop = some .badBit) :
    endDecode w s = .next (s.afterDecode (w.out, .badBit)) := by
  rw [endDecode, Walked.ending, h]
  rfl

/-- Symbols already on OUT are in front of those still to put. -/
theorem endDecode_append (w : Walked) (out : List Byte) (s : State) :
    endDecode { w with out := out ++ w.out } s = endDecode w { s with outStream := s.outStream ++ out.map .byte } := by
  simp only [endDecode, Walked.ending, ← map_byte_append_outItems, List.append_assoc]

/-- The end of the stream (R242, R246). -/
theorem feed_decoding_nil (st0 : Stage) (c : NodeIx) (la : Option Byte) {s : State} (hroom : s.outRoom = none) :
    feed true [] ⟨st0, .decoding c la, []⟩ s =
      endDecode (walkBits s.tree c (retained s.pad.toNat la.toList)) s := by
  have htake : takeEnd s (.decoding c la) = _ := decodeEnd_eq c la s
  rw [endDecode]
  cases he : (walkBits s.tree c (retained s.pad.toNat la.toList)).ending s.root with
  | error f =>
    rw [he] at htake
    rw [feed, htake]
    rfl
  | ok e =>
    rw [he] at htake
    rw [feed_nil_of_end rfl htake, putOut_none hroom]
    rfl

/-- A byte held back is not the last when another comes: all its bits are walked (R242). -/
theorem feed_decoding_cons_of_stop_none {st0 : Stage} {c : NodeIx} {a b : Byte} {p : List Byte} {s : State}
    (hroom : s.outRoom = none) (h : (walkBits s.tree c (bitsOf a)).stop = none) :
    feed true (b :: p) ⟨st0, .decoding c (some a), []⟩ s =
      feed true p ⟨st0, .decoding (walkBits s.tree c (bitsOf a)).cursor (some b), []⟩
        { s with outStream := s.outStream ++ (walkBits s.tree c (bitsOf a)).out.map .byte } := by
  have htake : takeByte b s (.decoding c (some a)) = .ok ⟨s,
      .decoding (walkBits s.tree c (bitsOf a)).cursor (some b), (walkBits s.tree c (bitsOf a)).out.map .byte⟩ := by
    simp only [takeByte, decodeByte, h]
  rw [feed_cons_of_taken rfl htake, putOut_none hroom]
  rfl

/-- A walk that stops inside the stream ends the command, whatever bytes are to come (R246). -/
theorem feed_decoding_cons_of_stop_some {st0 : Stage} {c : NodeIx} {a b : Byte} {p : List Byte} {s : State}
    {e : WalkStop} (hroom : s.outRoom = none) (h : (walkBits s.tree c (bitsOf a)).stop = some e) :
    feed true (b :: p) ⟨st0, .decoding c (some a), []⟩ s = endDecode (walkBits s.tree c (bitsOf a)) s := by
  rw [endDecode, Walked.ending, h]
  cases e with
  | badBit =>
    have htake : takeByte b s (.decoding c (some a)) =
        .ok ⟨s, .draining .badBit, outItems (walkBits s.tree c (bitsOf a)).out⟩ := by
      simp only [takeByte, decodeByte, h, outItems]
    rw [feed_cons_of_taken rfl htake, putOut_none hroom]
    exact (feed_draining ..).trans (feed_nil_of_end_silent rfl)
  | offTree =>
    have htake : takeByte b s (.decoding c (some a)) = .error .treeIllFormed := by
      simp only [takeByte, decodeByte, h]
    rw [feed, htake]
    rfl

/-- The engine, with its look-ahead byte, makes one walk over the retained bits of the byte held back and the bytes to
come (R243, R248). -/
theorem feed_decoding {st0 : Stage} {c : NodeIx} {la : Option Byte} {p : List Byte} {s : State}
    (hroom : s.outRoom = none) :
    feed true p ⟨st0, .decoding c la, []⟩ s =
      endDecode (walkBits s.tree c (retained s.pad.toNat (la.toList ++ p))) s := by
  induction p generalizing c la s with
  | nil => rw [feed_decoding_nil st0 c la hroom, List.append_nil]
  | cons b p ih =>
    cases la with
    | none =>
      rw [feed_cons_of_taken_silent rfl, ih hroom]
      rfl
    | some a =>
      have hbits : retained s.pad.toNat ((some a).toList ++ b :: p) = bitsOf a ++ retained s.pad.toNat (b :: p) :=
        retained_cons_cons (by omega) a b p
      rw [hbits]
      cases hstop : (walkBits s.tree c (bitsOf a)).stop with
      | none =>
        rw [feed_decoding_cons_of_stop_none hroom hstop, walkBits_append_of_stop_none _ hstop, endDecode_append]
        exact ih (s := { s with outStream := s.outStream ++ _ }) hroom
      | some e => rw [feed_decoding_cons_of_stop_some hroom hstop, walkBits_append_of_stop_some _ hstop]

/-! ### The command -/

/-- `DECODE` with a tree makes one walk from the root over the retained bits (R243, R246). -/
theorem exec_decode_of_tree {s : State} {p : List Byte} (hst : s.stage = .encoded) (hn : s.nsym ≠ 0)
    (hs : HostServes s p) :
    exec .decode s = endDecode (walkBits s.tree s.root (retained s.pad.toNat p)) s := by
  obtain ⟨hin, hroom⟩ := hs
  rw [exec_decode_of_legal ((legalAt_iff .decode _).2 hst), decodeStart, if_neg hn, start, hin]
  exact feed_decoding hroom

/-- `DECODE` with the empty tree drains its stream (R241). -/
theorem exec_decode_of_emptyTree {s : State} {p : List Byte} (hst : s.stage = .encoded) (hn : s.nsym = 0)
    (hs : HostServes s p) :
    exec .decode s = .next (s.afterDecode ([], .ok)) := by
  obtain ⟨hin, hroom⟩ := hs
  rw [exec_decode_of_legal ((legalAt_iff .decode _).2 hst), decodeStart, if_pos hn, start, hin, feed_draining,
    feed_nil_of_end rfl rfl, putOut_none hroom]
  rfl

/-- `DECODE` of the empty stream (R250). -/
theorem exec_decode_of_no_bytes {s : State} (hst : s.stage = .encoded) (hs : HostServes s []) :
    exec .decode s = .next (s.afterDecode ([], .ok)) := by
  by_cases hn : s.nsym = 0
  · exact exec_decode_of_emptyTree hst hn hs
  · rw [exec_decode_of_tree hst hn hs, retained_nil, endDecode_of_stop_none s rfl, walkBits, if_pos rfl]

/-! ### The table of the whole stream -/

/-- On a single-leaf tree every 0 bit puts the one symbol, and the first 1 bit stops the walk (R245). -/
theorem walkBits_of_singleLeaf {t : Tree} {f : Nat} {v : Byte} (h1 : t.nsym = 1)
    (hv : arenaAt t.node t.root = .leaf f v) (c : NodeIx) (bits : Bits) :
    walkBits t c bits = ⟨List.replicate (bits.takeWhile fun x => !x).length v, c,
      if bits.all fun x => !x then none else some .badBit⟩ := by
  induction bits with
  | nil => rfl
  | cons x xs ih =>
    cases x with
    | false =>
      have hx : walkBit t c false = .ok (c, some v) := by simp [walkBit, h1, hv]
      rw [walkBits_cons_of_ok xs hx, ih]
      rfl
    | true =>
      have hx : walkBit t c true = .error .badBit := by simp [walkBit, h1, hv]
      rw [walkBits_cons_of_error xs hx]
      rfl

/-- A bit that leads to a leaf (R244). -/
theorem walkBit_to_leaf {t : Tree} {c l r : NodeIx} {x : Bool} {f g : Nat} {v : Byte} (h1 : t.nsym ≠ 1)
    (hc : arenaAt t.node c = .internal f l r) (hk : arenaAt t.node (if x then r else l) = .leaf g v) :
    walkBit t c x = .ok (t.root, some v) := by
  rw [walkBit, if_neg h1, hc]
  dsimp only
  rw [hk]

/-- A bit that leads to an internal node (R244). -/
theorem walkBit_to_internal {t : Tree} {c l r l' r' : NodeIx} {x : Bool} {f g : Nat} (h1 : t.nsym ≠ 1)
    (hc : arenaAt t.node c = .internal f l r) (hk : arenaAt t.node (if x then r else l) = .internal g l' r') :
    walkBit t c x = .ok (if x then r else l, none) := by
  rw [walkBit, if_neg h1, hc]
  dsimp only
  rw [hk]

/-- On a built tree with two or more leaves the walk by single bits is the walk of R248. -/
theorem walkBits_buildTree_eq_walk {freq : Table Nat} {c : NodeIx} (h1 : (buildTree [] freq).nsym ≠ 1)
    (h : CursorOnTree (buildTree [] freq) c) (bits : Bits) :
    walkBits (buildTree [] freq) c bits =
      ⟨(walk (buildTree [] freq) c bits).1, (walk (buildTree [] freq) c bits).2, none⟩ := by
  induction bits generalizing c with
  | nil => rfl
  | cons x xs ih =>
    have ⟨_, _, hinternal⟩ := h
    obtain ⟨f, l, r, hc⟩ := hinternal h1
    cases hk : arenaAt (buildTree [] freq).node (if x then r else l) with
    | leaf g v =>
      have hx := walkBit_to_leaf h1 hc hk
      rw [walkBits_cons_of_ok xs hx, ih (walkBit_keeps_cursorOnTree h hx)]
      simp [walk, hc, hk]
    | internal g l' r' =>
      have hx := walkBit_to_internal h1 hc hk
      rw [walkBits_cons_of_ok xs hx, ih (walkBit_keeps_cursorOnTree h hx)]
      simp [walk, hc, hk]

/-- The same for a tree that is a built one, from its root. -/
theorem walkBits_root_eq_walk {t : Tree} {freq : Table Nat} (ht : t = buildTree [] freq) (h0 : t.nsym ≠ 0)
    (h1 : t.nsym ≠ 1) (bits : Bits) :
    walkBits t t.root bits = ⟨(walk t t.root bits).1, (walk t t.root bits).2, none⟩ := by
  subst ht
  exact walkBits_buildTree_eq_walk h1 (cursorOnTree_root h0) bits

/-- The first row of the table (R248). -/
theorem decodeOutcome_of_emptyTree {t : Tree} (h0 : t.nsym = 0) (pad : Nat) (sym : Byte) (p : List Byte) :
    decodeOutcome t pad sym p = ([], .ok) := if_pos h0

/-- The second row of the table (R248). -/
theorem decodeOutcome_of_no_bytes (t : Tree) (pad : Nat) (sym : Byte) : decodeOutcome t pad sym [] = ([], .ok) :=
  ite_eq_left_iff.2 fun _ => if_pos rfl

/-- The rows of the table for a single-leaf tree (R248). -/
theorem decodeOutcome_of_singleLeaf {t : Tree} (h1 : t.nsym = 1) (pad : Nat) (sym : Byte) {p : List Byte}
    (hp : p ≠ []) : decodeOutcome t pad sym p =
      (List.replicate ((retained pad p).takeWhile fun x => !x).length sym,
        if (retained pad p).all fun x => !x then .ok else .badBit) := by
  rw [decodeOutcome, if_neg (by simp [h1]), if_neg hp, if_pos h1]

/-- The rows of the table for a tree with two or more leaves (R248). -/
theorem decodeOutcome_of_walk {t : Tree} (h0 : t.nsym ≠ 0) (h1 : t.nsym ≠ 1) (pad : Nat) (sym : Byte)
    {p : List Byte} (hp : p ≠ []) : decodeOutcome t pad sym p =
      ((walk t t.root (retained pad p)).1, if (walk t t.root (retained pad p)).2 = t.root then .ok else .dangling) := by
  rw [decodeOutcome, if_neg h0, if_neg hp, if_neg h1]

/-- A walk from the root of a single-leaf tree ends as the table says (R245, R248). -/
theorem endDecode_of_singleLeaf {s : State} {f : Nat} {v : Byte} (h1 : s.nsym = 1)
    (hv : arenaAt s.node s.root = .leaf f v) {p : List Byte} (hp : p ≠ []) :
    endDecode (walkBits s.tree s.root (retained s.pad.toNat p)) s =
      .next (s.afterDecode (decodeOutcome s.tree s.pad.toNat v p)) := by
  rw [walkBits_of_singleLeaf (t := s.tree) h1 hv, decodeOutcome_of_singleLeaf (t := s.tree) h1 _ _ hp]
  cases (retained s.pad.toNat p).all fun x => !x with
  | false => exact endDecode_of_badBit s rfl
  | true => rw [if_pos rfl, if_pos rfl, endDecode_of_stop_none s rfl, if_pos rfl]

/-- A walk from the root of a built tree with two or more leaves ends as the table says (R244, R248). -/
theorem endDecode_of_buildTree {s : State} (htree : s.tree = buildTree [] s.freq) (h0 : s.nsym ≠ 0)
    (h1 : s.nsym ≠ 1) (sym : Byte) {p : List Byte} (hp : p ≠ []) :
    endDecode (walkBits s.tree s.root (retained s.pad.toNat p)) s =
      .next (s.afterDecode (decodeOutcome s.tree s.pad.toNat sym p)) := by
  have hwalk : walkBits s.tree s.root (retained s.pad.toNat p) = _ := walkBits_root_eq_walk htree h0 h1 _
  rw [hwalk, endDecode_of_stop_none s rfl, decodeOutcome_of_walk (t := s.tree) h0 h1 _ _ hp]
  rfl

/-- `DECODE` of an encoded session answers as the table says (R248). -/
theorem exec_decode_eq_decodeOutcome {s : State} {p : List Byte} (hst : s.stage = .encoded)
    (htree : s.tree = buildTree [] s.freq) (hs : HostServes s p) :
    exec .decode s =
      .next (s.afterDecode (decodeOutcome s.tree s.pad.toNat (symOf (arenaAt s.node s.root)) p)) := by
  by_cases h0 : s.nsym = 0
  · rw [exec_decode_of_emptyTree hst h0 hs, decodeOutcome_of_emptyTree h0]
  by_cases hp : p = []
  · subst hp
    rw [exec_decode_of_no_bytes hst hs, decodeOutcome_of_no_bytes]
  rw [exec_decode_of_tree hst h0 hs]
  by_cases h1 : s.nsym = 1
  · have hn : (buildTree [] s.freq).nsym = 1 := (congrArg Tree.nsym htree).symm.trans h1
    have hleaf : IsLeaf s.tree.node s.tree.root := htree ▸ buildTree_root_isLeaf hn
    obtain ⟨f, v, hv⟩ : IsLeaf s.node s.root := hleaf
    rw [hv]
    exact endDecode_of_singleLeaf h1 hv hp
  · exact endDecode_of_buildTree htree h0 h1 _ hp

/-- Settles O38: the engine's one walk over the retained bits ends as the table says, row by row. -/
theorem decodeFollowsTheWholeStreamTable : Obligations.DecodeFollowsTheWholeStreamTable := by
  intro s p hinv hr hst hs
  have hat : HoldsAt .encoded s := hst ▸ hinv.holdsAt hr
  obtain ⟨-, htree, -⟩ := hat
  rw [exec_decode_eq_decodeOutcome hst htree hs, hr]
  rfl

/-! ### The empty tree, the empty stream and the pad bits -/

/-- Settles O42: with the empty tree the stream is only drained. -/
theorem decodeOfTheEmptyTree : Obligations.DecodeOfTheEmptyTree := fun _ _ => exec_decode_of_emptyTree

/-- Settles O41: the empty stream has no retained bits, so the walk ends at the root, where it began. -/
theorem decodeOfNoBytes : Obligations.DecodeOfNoBytes := fun _ => exec_decode_of_no_bytes

/-- Settles O40: `DECODE` depends on its stream through the retained bits alone, and the pad bits are not among them. -/
theorem decodeIgnoresThePadBits : Obligations.DecodeIgnoresThePadBits := by
  intro s p b c hst hroom h
  by_cases h0 : s.nsym = 0
  · have hexec (x : Byte) :=
      exec_decode_of_emptyTree (s := { s with inStream := ⟨p ++ [x], true⟩ }) hst h0 ⟨rfl, hroom⟩
    rw [hexec b, hexec c]
    rfl
  · have hexec (x : Byte) :=
      exec_decode_of_tree (s := { s with inStream := ⟨p ++ [x], true⟩ }) hst h0 ⟨rfl, hroom⟩
    have hbits : retained s.pad.toNat (p ++ [b]) = retained s.pad.toNat (p ++ [c]) := by
      rw [retained_append_singleton (by omega), retained_append_singleton (by omega), take_bitsOf_congr h]
    rw [hexec b, hexec c, hbits]
    rfl

/-! ### What `DECODE` does not write -/

/-- Every session register but `result` and `rinfo` (R20, R251). -/
def State.session (s : State) : Stage × BitVec 3 × Table Nat × Nat × Tree × Table (Option Bits) :=
  (s.stage, s.pad, s.coding)

theorem putOut_session (items : List Item) (r : Running) (s : State) : (putOut items r s).2.session = s.session := by
  rw [putOut_frame]
  rfl

/-- However `DECODE` ends, it writes neither `stage` nor `pad` (R246). -/
theorem finish_session_of_decode {e : Ending} (he : e.command = .decode) (s : State) :
    (finish e s).session = s.session := by
  cases e with
  | decoded | dangling | badBit => rfl
  | _ => cases he

/-- Over its stream `DECODE` leaves the session alone. -/
theorem feed_session_of_decode {ended : Bool} {bs : List Byte} {r : Running} {s t : State}
    (hwork : AtWork .decode r.phase s) (h : feed ended bs r s = .next t) : t.session = s.session := by
  rcases feed_cases (fun q u => AtWork .decode q.phase u ∧ u.session = s.session)
      (fun b q u tk ⟨⟨hcmd, hst⟩, hu⟩ _ htk =>
        ⟨AtWork.putOut (r := { q with phase := tk.phase }) (takeByte_keeps_atWork ⟨hcmd, hst⟩ htk) tk.out, by
          rw [putOut_session, takeByte_state_of_ne_fscan (hcmd.trans_ne nofun) htk, hu]⟩)
      ⟨hwork, rfl⟩ h with
    ⟨bs', q, u, ⟨-, hu⟩, rfl, -⟩ | ⟨q, u, e, out, ⟨⟨hcmd, -⟩, hu⟩, -, -, he, hc⟩
  · exact hu
  · rw [← hu, ← putOut_session out q u]
    rcases conclude_cases hc with ⟨-, rfl⟩ | ⟨-, rfl⟩
    · exact finish_session_of_decode ((takeEnd_command he).trans hcmd) _
    · rfl

theorem exec_decode_session {s t : State} (h : exec .decode s = .next t) : t.session = s.session := by
  rcases exec_cases h with ⟨-, rfl⟩ | ⟨hl, ⟨-, hstart⟩ | ⟨-, hstart⟩⟩
  · rfl
  all_goals exact feed_session_of_decode ⟨rfl, (legalAt_iff .decode _).1 hl⟩ hstart

/-- Settles O39: what `DECODE` may not write is the session and the host's side. -/
theorem decodeChangesOnlyTheResult : Obligations.DecodeChangesOnlyTheResult := by
  intro s t h
  have hsession := exec_decode_session h
  have hhost := exec_hostSide h
  cases s
  cases t
  cases hsession
  cases hhost
  rfl

end Sys2Proof.Machine
end

section
/-! PROOFS. A symbol of higher frequency has no longer code (spec 46_sequences_and_laws.md R286). The merge loop takes
indices out of the queue in the order of their keys (R163, R164): `MergedInOrder` says so of a builder, and that the
parents stand in the same order. So of two nodes the one with the higher key is no deeper: an induction on the path to
the other one. -/

namespace Sys2Proof.Machine

/-! ### The order of the merge passes -/

theorem KeyLess.trans {node : Table Node} {p q r : NodeIx} (hpq : KeyLess node p q) (hqr : KeyLess node q r) :
    KeyLess node p r := by
  unfold KeyLess at *
  omega

theorem IsChild.isInternal {node : Table Node} {m k : NodeIx} (h : IsChild node m k) : IsInternal node m := by
  obtain ⟨f, l, r, hm, -⟩ := h
  exact ⟨f, l, r, hm⟩

/-- Children taken out by an earlier pass have lower keys than those of a later one, and than every index still in the
queue (R164, R165). -/
structure MergedInOrder (b : Builder) : Prop where
  children : ∀ m m' p q, IsChild b.node m p → IsChild b.node m' q → m.toNat < m'.toNat → KeyLess b.node p q
  waiting : ∀ m p, IsChild b.node m p → ∀ z ∈ b.queue, KeyLess b.node p z

/-- A builder without internal nodes has merged nothing yet. -/
theorem MergedInOrder.of_no_children {b : Builder} (h : ∀ m p, ¬ IsChild b.node m p) : MergedInOrder b :=
  ⟨fun m _ p _ hp => absurd hp (h m p), fun m p hp => absurd hp (h m p)⟩

/-- Adding a node whose children are the lowest of the queue keeps the order (R165). -/
theorem MergedInOrder.add {freq : Table Nat} {vs : List Byte} {g : NodeIx → TreeValue} {b : Builder} {x : NodeIx}
    {q : List NodeIx} {n : Node} (h : MergedInOrder b) (hl : Linked b) (hf : Forest freq vs g b)
    (hnext : b.next.toNat < Config.nodeMax) (hq : q ⊆ b.queue) (hx : x ∈ n.children)
    (hkids : ∀ k ∈ n.children, k ∈ b.queue ∧ (arenaAt b.node k).freqOf < n.freqOf ∧ ∀ z ∈ q, KeyLess b.node k z) :
    MergedInOrder (Builder.add n { b with queue := q }) := by
  have hset := arenaAt_arenaSet_same n hf.canonical.1 hnext
  have hother {k : NodeIx} (hk : k.toNat < b.next.toNat) : arenaAt (arenaSet b.node b.next n) k = arenaAt b.node k :=
    arenaAt_arenaSet_other b.node n (ne_of_toNat_lt hk)
  have hold {j k : NodeIx} (hj : j.toNat < b.next.toNat) (hk : k.toNat < b.next.toNat) (hjk : KeyLess b.node j k) :
      KeyLess (arenaSet b.node b.next n) j k := by
    simpa only [KeyLess, hother hj, hother hk] using hjk
  have hnew {k : NodeIx} (hk : k ∈ n.children) : KeyLess (arenaSet b.node b.next n) k b.next := by
    obtain ⟨hkq, hlt, -⟩ := hkids k hk
    left
    rwa [hother (hf.below k hkq), hset]
  have hchild {m k : NodeIx} := isChild_arenaSet_iff (m := m) (k := k) (hl.free b.next le_rfl) hset
  have hparent {m k : NodeIx} (hm : IsChild b.node m k) : m.toNat < b.next.toNat := hl.lt_next hm.isInternal
  have hused {m k : NodeIx} (hm : IsChild b.node m k) : k.toNat < b.next.toNat :=
    (hl.isChild_lt hf.children hm).1.trans (hparent hm)
  refine ⟨fun m m' p p' hm hm' hlt => ?_, fun m p hm z hz => ?_⟩
  · rcases hchild.1 hm with ⟨rfl, -⟩ | hm <;> rcases hchild.1 hm' with ⟨rfl, hp'⟩ | hm'
    · exact absurd hlt (Nat.lt_irrefl _)
    · exact absurd hlt (Nat.lt_asymm (hparent hm'))
    · obtain ⟨hp', -⟩ := hkids p' hp'
      exact hold (hused hm) (hf.below p' hp') (h.waiting m p hm p' hp')
    · exact hold (hused hm) (hused hm') (h.children m m' p p' hm hm' hlt)
  · rcases hchild.1 hm with ⟨rfl, hp⟩ | hm <;> rcases List.mem_append.1 hz with hz | hz
    · obtain ⟨hp, -, hpz⟩ := hkids p hp
      exact hold (hf.below p hp) (hf.below z (hq hz)) (hpz z hz)
    · rw [List.mem_singleton.1 hz]
      exact hnew hp
    · exact hold (hused hm) (hf.below z (hq hz)) (h.waiting m p hm z (hq hz))
    · obtain ⟨hxq, -⟩ := hkids x hx
      rw [List.mem_singleton.1 hz]
      exact (hold (hused hm) (hf.below x hxq) (h.waiting m p hm x hxq)).trans (hnew hx)

/-- A merge pass keeps the order (R165). -/
theorem MergedInOrder.mergeOnce {freq : Table Nat} {vs : List Byte} {b : Builder} (h : MergedInOrder b)
    (hg : Grown freq vs b) (hvs : vs.length ≤ 256) (hq : 2 ≤ b.queue.length) : MergedInOrder (mergeOnce b) := by
  obtain ⟨⟨g, hf⟩, hlinked, -⟩ := hg
  obtain ⟨x, y, hx, hy, hxy, hlow, hmerge⟩ := mergePassTakesTheTwoLowest b hq hlinked.nodup
  have hsize := hf.size
  have hmax : b.next.toNat < Config.nodeMax := by
    rw [Config.nodeMax]
    omega
  have hxpos := hlinked.positive x (hf.below x hx)
  have hypos := hlinked.positive y (hf.below y hy)
  have he : Machine.mergeOnce b = Builder.add (.internal ((arenaAt b.node x).freqOf + (arenaAt b.node y).freqOf) x y)
      { b with queue := (b.queue.erase x).erase y } := hmerge
  rw [he]
  have hrest {z : NodeIx} (hz : z ∈ (b.queue.erase x).erase y) : z ∈ b.queue ∧ KeyLess b.node y z := by
    obtain ⟨hzy, hz⟩ := (hlinked.nodup.erase x).mem_erase_iff.1 hz
    obtain ⟨hzx, hz⟩ := hlinked.nodup.mem_erase_iff.1 hz
    exact ⟨hz, hlow z hz hzx hzy⟩
  refine h.add hlinked hf hmax (fun z hz => (hrest hz).1) List.mem_cons_self fun k hk => ?_
  rcases List.mem_pair.1 hk with rfl | rfl
  · exact ⟨hx, Nat.lt_add_of_pos_right hypos, fun z hz => hxy.trans (hrest hz).2⟩
  · exact ⟨hy, Nat.lt_add_of_pos_left hxpos, fun z hz => (hrest hz).2⟩

/-- The seeding loop leaves no internal node (R162). -/
theorem seedLeaves_no_children (freq : Table Nat) (m p : NodeIx) : ¬ IsChild (seedLeaves [] freq).node m p := by
  have hgrown := seedLeaves_grown freq
  obtain ⟨g, hf⟩ := hgrown.forest
  have hsize := hf.size
  rw [seedLeaves_queue_length] at hsize
  intro hm
  obtain ⟨-, hlt⟩ := hgrown.linked.isChild_lt hf.children hm
  have hleaf := hgrown.leavesFirst.leaf m _ (List.getElem?_eq_getElem (show m.toNat < (present freq).length by omega))
  simp [isChild_iff_mem_children, hleaf, leafFor, Node.children] at hm

theorem builtForest_mergedInOrder (freq : Table Nat) : MergedInOrder (builtForest freq) :=
  (mergeLoop_induction (P := fun b => Grown freq (present freq) b ∧ MergedInOrder b)
    (fun _ ⟨hg, h⟩ hq => ⟨hg.mergeOnce (length_present_le freq) hq, h.mergeOnce hg (length_present_le freq) hq⟩) _
    ⟨seedLeaves_grown freq, .of_no_children (seedLeaves_no_children freq)⟩).2

/-! ### Keys and parents of a built tree -/

/-- Of two internal nodes the later one has the higher key, as both its children have (R165). -/
theorem keyLess_of_isInternal {freq : Table Nat} {m m' : NodeIx} (hm : IsInternal (buildTree [] freq).node m)
    (hm' : IsInternal (buildTree [] freq).node m') (hlt : m.toNat < m'.toNat) :
    KeyLess (buildTree [] freq).node m m' := by
  obtain ⟨f, l, r, hm⟩ := hm
  obtain ⟨f', l', r', hm'⟩ := hm'
  have hlinked := builtForest_linked freq
  have horder := (builtForest_mergedInOrder freq).children m m'
  obtain ⟨hf, -⟩ := hlinked.merged m l r f hm
  obtain ⟨hf', -⟩ := hlinked.merged m' l' r' f' hm'
  have hll := horder l l' ⟨f, l, r, hm, .inl rfl⟩ ⟨f', l', r', hm', .inl rfl⟩ hlt
  have hrr := horder r r' ⟨f, l, r, hm, .inr rfl⟩ ⟨f', l', r', hm', .inr rfl⟩ hlt
  rw [← buildTree_node] at hf hf' hll hrr
  unfold KeyLess at hll hrr ⊢
  rw [hm, hm', Node.freqOf, Node.freqOf]
  omega

/-- A parent's key is not lower when its child's is not (R165, R166). -/
theorem not_keyLess_parents {freq : Table Nat} {m m' p q : NodeIx} (hp : IsChild (buildTree [] freq).node m p)
    (hq : IsChild (buildTree [] freq).node m' q) (hpq : ¬ KeyLess (buildTree [] freq).node p q) :
    ¬ KeyLess (buildTree [] freq).node m m' := by
  have hle : m'.toNat ≤ m.toNat :=
    Nat.le_of_not_lt fun hlt => hpq ((builtForest_mergedInOrder freq).children m m' p q hp hq hlt)
  rcases Nat.eq_or_lt_of_le hle with he | hlt
  · rw [BitVec.eq_of_toNat_eq he]
    exact not_keyLess_self _ m
  · exact (keyLess_of_isInternal hq.isInternal hp.isInternal hlt).asymm

/-- Every child's key is lower than the root's (R168, R170). -/
theorem keyLess_root_of_isChild {freq : Table Nat} {m p : NodeIx} (h : IsChild (buildTree [] freq).node m p) :
    KeyLess (buildTree [] freq).node p (buildTree [] freq).root := by
  have hlinked := builtForest_linked freq
  have hchild : IsChild (builtForest freq).node m p := h
  obtain ⟨hpm, hm⟩ := hlinked.isChild_lt (buildTree_childrenBelow freq) hchild
  have hnext := builtForest_next freq
  refine (builtForest_mergedInOrder freq).waiting m p h _ ?_
  rw [builtForest_queue (by omega)]
  exact List.mem_singleton_self _

/-! ### Paths by their last bit -/

/-- A path that ends with a bit goes through the parent of its end (R191). -/
theorem PathTo.parent_of_concat {node : Table Node} {k j : NodeIx} {c : Bits} {x : Bool}
    (h : PathTo node k (c ++ [x]) j) : ∃ m, PathTo node k c m ∧ IsChild node m j := by
  induction c generalizing k with
  | nil =>
    cases h with
    | left hk h =>
      cases h
      exact ⟨k, .here k, _, _, _, hk, .inl rfl⟩
    | right hk h =>
      cases h
      exact ⟨k, .here k, _, _, _, hk, .inr rfl⟩
  | cons y c ih =>
    cases h with
    | left hk h =>
      obtain ⟨m, hm, hj⟩ := ih h
      exact ⟨m, .left hk hm, hj⟩
    | right hk h =>
      obtain ⟨m, hm, hj⟩ := ih h
      exact ⟨m, .right hk hm, hj⟩

/-- Of two nodes of a built tree the one whose key is not lower is no deeper. -/
theorem pathTo_length_le {freq : Table Nat} {p q : NodeIx} {cp cq : Bits}
    (hp : PathTo (buildTree [] freq).node (buildTree [] freq).root cp p)
    (hq : PathTo (buildTree [] freq).node (buildTree [] freq).root cq q)
    (hkey : ¬ KeyLess (buildTree [] freq).node p q) : cp.length ≤ cq.length := by
  induction cp using List.reverseRecOn generalizing cq p q with
  | nil => exact Nat.zero_le _
  | append_singleton cp x ih =>
    obtain ⟨m, hm, hmp⟩ := hp.parent_of_concat
    rcases List.eq_nil_or_concat cq with rfl | ⟨cq, y, rfl⟩
    · cases hq
      exact absurd (keyLess_root_of_isChild hmp) hkey
    · rw [List.concat_eq_append] at hq ⊢
      obtain ⟨m', hm', hmq⟩ := hq.parent_of_concat
      simpa using ih hm hm' (not_keyLess_parents hmp hmq hkey)

/-! ### Leaves and their codes -/

/-- At an internal node of the arena stands an internal tree value over those of its children. -/
theorem TreeValue.StandsAt.eq_internal {node : Table Node} {t : TreeValue} {k l r : NodeIx} {f : Nat}
    (h : t.StandsAt node k) (hk : arenaAt node k = .internal f l r) :
    ∃ a b, t = .internal f a b ∧ a.StandsAt node l ∧ b.StandsAt node r := by
  cases t with
  | leaf g u => cases hk.symm.trans h
  | internal g a b =>
    obtain ⟨l', r', hk', ha, hb⟩ := h
    cases hk.symm.trans hk'
    exact ⟨a, b, rfl, ha, hb⟩

/-- At a leaf of the arena stands this leaf. -/
theorem TreeValue.StandsAt.eq_leaf {node : Table Node} {t : TreeValue} {k : NodeIx} {f : Nat} {v : Byte}
    (h : t.StandsAt node k) (hk : arenaAt node k = .leaf f v) : t = .leaf f v := by
  cases t with
  | leaf g u =>
    cases hk.symm.trans h
    rfl
  | internal g a b =>
    obtain ⟨l, r, hk', -⟩ := h
    cases hk.symm.trans hk'

/-- A leaf that a tree of sums reaches has the count of its symbol (R162). -/
theorem TreeValue.StandsAt.leaf_freq {node : Table Node} {freq : Table Nat} {t : TreeValue} {k j : NodeIx} {c : Bits}
    {f : Nat} {v : Byte} (h : t.StandsAt node k) (hs : t.Sums freq) (hp : PathTo node k c j)
    (hj : arenaAt node j = .leaf f v) : f = Table.read 0 freq v.toNat := by
  induction hp generalizing t with
  | here k =>
    obtain rfl := h.eq_leaf hj
    exact hs
  | left hm _ ih =>
    obtain ⟨a, b, rfl, ha, -⟩ := h.eq_internal hm
    obtain ⟨-, hsa, -⟩ := hs
    exact ih ha hsa hj
  | right hm _ ih =>
    obtain ⟨a, b, rfl, -, hb⟩ := h.eq_internal hm
    obtain ⟨-, -, hsb⟩ := hs
    exact ih hb hsb hj

/-- With two or more leaves a code is the path to a leaf that holds its symbol with its count (R162, R191). -/
theorem assignCodes_buildTree_pathTo {freq : Table Nat} {codes : Table (Option Bits)}
    (hn : 2 ≤ (buildTree [] freq).nsym.toNat) (h : assignCodes (buildTree [] freq) [] = some codes) {v : Byte}
    {c : Bits} (hc : Table.read none codes v.toNat = some c) :
    ∃ j : NodeIx, PathTo (buildTree [] freq).node (buildTree [] freq).root c j ∧
      arenaAt (buildTree [] freq).node j = leafFor freq v := by
  obtain ⟨t, ht, hnodup, -, hread⟩ := assignCodes_buildTree_eq_pathOf hn h
  obtain ⟨u, hu, -, hsums⟩ := buildTree_stands (freq := freq) fun h0 => by simp [h0] at hn
  rw [hread, ht.pathOf_eq_some_iff hnodup] at hc
  obtain ⟨j, f, hpath, hj⟩ := hc
  exact ⟨j, hpath, hj.trans (congrArg (Node.leaf · v) (hu.leaf_freq hsums hpath hj))⟩

/-- Settles O32: a leaf of higher frequency has the higher key, so it is no deeper. -/
theorem higherFrequencyNeverLongerCode : Obligations.HigherFrequencyNeverLongerCode := by
  intro s x y cx cy hinv hr hst hx hy hlt
  obtain ⟨-, hcodes⟩ := (hinv.holdsAt hr).codes hst
  rcases assignCodes_cases hcodes with ⟨-, hnil⟩ | ⟨h1, -⟩ | ⟨h0, h1, -⟩
  · simp [State.codeAt, hnil, Table.read] at hx
  · obtain ⟨v, hread⟩ := assignCodes_read_of_singleLeaf h1 hcodes
    simp only [State.codeAt, hread, Option.ite_none_right_eq_some] at hx hy
    obtain ⟨rfl, -⟩ := hx
    obtain ⟨rfl, -⟩ := hy
    exact absurd hlt (Nat.lt_irrefl _)
  · have hn : 2 ≤ (buildTree [] s.freq).nsym.toNat := by bv_omega
    obtain ⟨p, hp, hpx⟩ := assignCodes_buildTree_pathTo hn hcodes hx
    obtain ⟨q, hq, hqy⟩ := assignCodes_buildTree_pathTo hn hcodes hy
    refine pathTo_length_le hp hq fun hkey => ?_
    unfold KeyLess at hkey
    rw [hpx, hqy] at hkey
    simp only [leafFor, Node.freqOf] at hkey
    unfold State.freqAt at hlt
    omega

end Sys2Proof.Machine
end

section
/-! PROOFS. `DECODE` gives back what `ENCODE` packed (spec 46_sequences_and_laws.md R290). The retained bits of a packed
stream are the bits packed; a walk over the code of a symbol puts this symbol and ends at the root, so a walk over the
codes of a stream puts the stream. -/

namespace Sys2Proof.Machine

/-! ### The retained bits of a packed stream -/

theorem flatMap_bitsOf_packedBytes {n : Nat} {bits : Bits} (h : bits.length = 8 * n) :
    (packedBytes n bits).flatMap bitsOf = bits := by
  induction n generalizing bits with
  | zero => exact (List.length_eq_zero_iff.1 h).symm
  | succ n ih =>
    have htake : (bits.take 8).length = 8 := by
      rw [List.length_take]
      omega
    have hdrop : (bits.drop 8).length = 8 * n := by
      rw [List.length_drop]
      omega
    rw [packedBytes_succ, List.flatMap_cons, bitsOf_byteOf htake, ih hdrop, List.take_append_drop]

/-- Packing and retaining are inverse (R98, R243). -/
theorem retained_packed (bits : Bits) : retained (padFor bits.length) (packed bits) = bits := by
  have hlen : 8 * (packed bits).length - padFor bits.length = bits.length :=
    Nat.sub_eq_of_eq_add (length_add_padFor bits).symm
  rw [retained, hlen, packed, flatMap_bitsOf_packedBytes (length_append_zeros_padFor bits), List.take_left]

/-! ### The walk over one code -/

/-- The first edge of a path to a leaf leads to the leaf, or the walk goes on from an internal node (R244). -/
theorem walkBits_cons_of_pathTo {t : Tree} {c l r j : NodeIx} {x : Bool} {p : Bits} {f g : Nat} {v : Byte}
    (h1 : t.nsym ≠ 1) (hc : arenaAt t.node c = .internal f l r) (hp : PathTo t.node (if x then r else l) p j)
    (hj : arenaAt t.node j = .leaf g v)
    (ih : p ≠ [] → walkBits t (if x then r else l) p = ⟨[v], t.root, none⟩) :
    walkBits t c (x :: p) = ⟨[v], t.root, none⟩ := by
  cases hp with
  | here =>
    rw [walkBits_cons_of_ok [] (walkBit_to_leaf h1 hc hj)]
    rfl
  | left hk _ | right hk _ =>
    rw [walkBits_cons_of_ok _ (walkBit_to_internal h1 hc hk), ih (List.cons_ne_nil _ _)]
    rfl

/-- A walk over the path to a leaf puts the leaf's symbol and ends at the root (R244). -/
theorem PathTo.walkBits_eq {t : Tree} {k j : NodeIx} {p : Bits} {f : Nat} {v : Byte} (h1 : t.nsym ≠ 1)
    (h : PathTo t.node k p j) (hj : arenaAt t.node j = .leaf f v) (hp : p ≠ []) :
    walkBits t k p = ⟨[v], t.root, none⟩ := by
  induction h with
  | here => exact absurd rfl hp
  | left hk hpath ih => exact walkBits_cons_of_pathTo (x := false) h1 hk hpath hj (ih hj)
  | right hk hpath ih => exact walkBits_cons_of_pathTo (x := true) h1 hk hpath hj (ih hj)

/-- A walk from the root over the code of a symbol puts this symbol and ends at the root (R191, R192, R244, R245). -/
theorem walkBits_of_code {freq : Table Nat} {codes : Table (Option Bits)}
    (h : assignCodes (buildTree [] freq) [] = some codes) {v : Byte} {c : Bits}
    (hc : Table.read none codes v.toNat = some c) :
    walkBits (buildTree [] freq) (buildTree [] freq).root c = ⟨[v], (buildTree [] freq).root, none⟩ := by
  rcases assignCodes_cases h with ⟨-, rfl⟩ | ⟨h1, -⟩ | ⟨h0, h1, -⟩
  · simp [Table.read] at hc
  · obtain ⟨f, u, hu⟩ := buildTree_root_isLeaf h1
    cases (assignCodes_of_singleLeaf h1 hu []).symm.trans h
    simp only [read_codeSet, Table.read, Option.ite_none_right_eq_some, Option.some.injEq] at hc
    obtain ⟨rfl, rfl⟩ := hc
    exact walkBits_of_singleLeaf h1 hu _ [false]
  · obtain ⟨j, hpath, hj⟩ := assignCodes_buildTree_pathTo (by bv_omega) h hc
    refine hpath.walkBits_eq h1 hj ?_
    rintro rfl
    cases hpath
    obtain ⟨f, l, r, hroot⟩ := buildTree_root_isInternal h0 h1
    cases hj.symm.trans hroot

/-! ### The session after an `ENCODE` -/

/-- The session holds the codes of its counts, and the coded stream `e` is the one encoded last: `pad` is its pad count
(R42, R98). -/
structure HasEncoded (e : List Byte) (s : State) : Prop where
  stage : s.stage = .encoded
  tree : s.tree = buildTree [] s.freq
  codes : assignCodes s.tree [] = some s.code
  coded : AllCoded s e
  pad : s.pad.toNat = padFor (codeBits s e).length

/-- It is a matter of the session alone. -/
theorem HasEncoded.of_session_eq {e : List Byte} {s t : State} (h : HasEncoded e s) (ht : t.session = s.session) :
    HasEncoded e t := by
  cases s
  cases t
  cases ht
  exact ⟨h.stage, h.tree, h.codes, h.coded, h.pad⟩

theorem codeBits_of_session_eq {s t : State} (ht : t.session = s.session) (e : List Byte) :
    codeBits t e = codeBits s e := by
  cases s
  cases t
  cases ht
  rfl

/-- With the empty tree no byte has a code (R193). -/
theorem AllCoded.eq_nil {s : State} {e : List Byte} (h : AllCoded s e) (hn : s.nsym = 0)
    (hcodes : assignCodes s.tree [] = some s.code) : e = [] := by
  have hnil : s.code = [] := Option.some.inj (hcodes.symm.trans (assignCodes_of_empty (t := s.tree) hn []))
  refine List.eq_nil_iff_forall_not_mem.2 fun b hb => h b hb ?_
  rw [State.codeAt, hnil]
  rfl

/-- A walk from the root over the codes of a stream puts the stream (R290). -/
theorem walkBits_codeBits {s : State} (htree : s.tree = buildTree [] s.freq)
    (hcodes : assignCodes s.tree [] = some s.code) {e : List Byte} (he : AllCoded s e) :
    walkBits s.tree s.root (codeBits s e) = ⟨e, s.root, none⟩ := by
  induction e with
  | nil => rfl
  | cons b e ih =>
    obtain ⟨c, hc⟩ := Option.ne_none_iff_exists'.1 (he b List.mem_cons_self)
    have hb : walkBits s.tree s.root c = ⟨[b], s.root, none⟩ := by
      have hroot : s.root = (buildTree [] s.freq).root := congrArg Tree.root htree
      rw [hroot, htree]
      exact walkBits_of_code (htree ▸ hcodes) hc
    rw [codeBits_cons e hc, walkBits_append_of_stop_none _ (congrArg Walked.stop hb), hb,
      ih fun v hv => he v (List.mem_cons_of_mem _ hv)]
    rfl

/-- `DECODE` of the packed stream puts the stream that was packed (R290). -/
theorem HasEncoded.exec_decode {e : List Byte} {s : State} (h : HasEncoded e s)
    (hs : HostServes s (packed (codeBits s e))) : exec .decode s = .next (s.afterDecode (e, .ok)) := by
  by_cases hn : s.nsym = 0
  · rw [exec_decode_of_emptyTree h.stage hn hs, h.coded.eq_nil hn h.codes]
  · rw [exec_decode_of_tree h.stage hn hs, h.pad, retained_packed, walkBits_codeBits h.tree h.codes h.coded,
      endDecode_of_stop_none s rfl, if_pos rfl]

end Sys2Proof.Machine
end

section
/-! PROOFS. The sequences of commands a host issues to a block at rest and the laws about them (spec
46_sequences_and_laws.md R280, R283, R290). Each command is one step, so a sequence is a chain of the commands'
equations; `State.withCodesFor` and `State.afterEncode` are the states at the end of its two halves. -/

namespace Sys2Proof.Machine

/-! ### One command, one step -/

/-- A command with its stream, at rest and accepted (R36, R120). -/
theorem step_of_accepted_stream {s : State} {w : Byte} {i : Instr} {d : List Byte} {rest : List HostMove}
    (hr : s.running = none) (hw : decodeWord w = .ok i) (hm : s.hostMoves = .command w (some d) :: rest)
    (hi : Instr.takesStream i = true) (hl : Instr.legalAt i s.stage = true) :
    step s = exec i { s with hostMoves := rest, inStream := ⟨d, true⟩ } :=
  ((stepRunsTheDecodedCommand s w i (some d) rest hr hw).1 hm).1 hi hl

/-- A command that takes no stream, at rest (R36, R120). -/
theorem step_of_no_stream {s : State} {w : Byte} {i : Instr} {operand : Option (List Byte)} {rest : List HostMove}
    (hr : s.running = none) (hw : decodeWord w = .ok i) (hm : s.hostMoves = .command w operand :: rest)
    (hi : Instr.takesStream i = false) : step s = exec i { s with hostMoves := rest } :=
  ((stepRunsTheDecodedCommand s w i operand rest hr hw).1 hm).2 (.inl hi)

theorem runSteps_succ_of_next {s t : State} (k : Nat) (h : step s = .next t) : runSteps (k + 1) s = runSteps k t := by
  rw [runSteps, h]

/-- A command that is not legal is rejected, whatever stream it brings, and the run goes on (R302). -/
theorem runSteps_succ_of_rejected {s : State} {w : Byte} {i : Instr} {operand : Option (List Byte)}
    {rest : List HostMove} (k : Nat) (hr : s.running = none) (hw : decodeWord w = .ok i)
    (hm : s.hostMoves = .command w operand :: rest) (hl : Instr.legalAt i s.stage = false) :
    runSteps (k + 1) s = runSteps k (State.complete .seq w { s with hostMoves := rest }) := by
  refine runSteps_succ_of_next k ?_
  rw [((stepRunsTheDecodedCommand s w i operand rest hr hw).1 hm).2 (.inr hl), ← decodeWord_eq_ok_iff.1 hw]
  exact exec_of_illegal (s := { s with hostMoves := rest }) hl

/-- A run goes on where the steps before ended. -/
theorem runSteps_add_of_next {k : Nat} {s t : State} (n : Nat) (h : runSteps k s = .next t) :
    runSteps (k + n) s = runSteps n t := by
  induction k generalizing s with
  | zero =>
    cases h
    rw [Nat.zero_add]
  | succ k ih =>
    rw [Nat.succ_add, runSteps]
    rw [runSteps] at h
    cases hs : step s with
    | next u =>
      rw [hs] at h
      exact ih h
    | fault f => simp [hs] at h
    | refused r => simp [hs] at h

/-! ### `ENCODE` and `DECODE` -/

/-- The state after an `ENCODE` of coded bytes, with the moves the host has still to make (R98, R216). -/
def State.afterEncode (e : List Byte) (rest : List HostMove) (s : State) : State :=
  { s with
    hostMoves := rest, stage := .encoded, pad := BitVec.ofNat 3 (padFor (codeBits s e).length), result := .ok,
    rinfo := 0, running := none, inStream := InStream.nothing,
    outStream := s.outStream ++ outItems (packed (codeBits s e)), record := s.record ++ [(.ok, 0)] }

theorem step_encode {s : State} {e : List Byte} {rest : List HostMove} (hr : s.running = none)
    (hroom : s.outRoom = none) (hst : s.stage = .assigned ∨ s.stage = .encoded) (he : AllCoded s e)
    (hm : s.hostMoves = .command 0x04 (some e) :: rest) : step s = .next (s.afterEncode e rest) :=
  (step_of_accepted_stream hr rfl hm rfl ((legalAt_iff .encode _).2 hst)).trans
    (exec_encode_of_allCoded (s := { s with hostMoves := rest, inStream := ⟨e, true⟩ }) hst ⟨rfl, hroom⟩ he)

theorem State.afterEncode_hasEncoded {s : State} {e : List Byte} (rest : List HostMove)
    (htree : s.tree = buildTree [] s.freq) (hcodes : assignCodes s.tree [] = some s.code) (he : AllCoded s e) :
    HasEncoded e (s.afterEncode e rest) :=
  ⟨rfl, htree, hcodes, he, toNat_ofNat_padFor _⟩

/-- `DECODE` at `ENCODED` completes, with whatever bytes and result (R248). -/
theorem step_decode {s : State} {p : List Byte} {rest : List HostMove} (hr : s.running = none)
    (hroom : s.outRoom = none) (hst : s.stage = .encoded) (htree : s.tree = buildTree [] s.freq)
    (hm : s.hostMoves = decodeMove p :: rest) :
    ∃ o, step s = .next (State.afterDecode o { s with hostMoves := rest }) :=
  ⟨_, (step_of_accepted_stream hr rfl hm rfl ((legalAt_iff .decode _).2 hst)).trans
    (exec_decode_eq_decodeOutcome (s := { s with hostMoves := rest, inStream := ⟨p, true⟩ }) hst htree ⟨rfl, hroom⟩)⟩

/-- `DECODE` of the bytes the last `ENCODE` put gives back its stream (R290). -/
theorem HasEncoded.step_decode {s : State} {e : List Byte} {rest : List HostMove} (h : HasEncoded e s)
    (hr : s.running = none) (hroom : s.outRoom = none)
    (hm : s.hostMoves = decodeMove (packed (codeBits s e)) :: rest) :
    step s = .next (State.afterDecode (e, .ok) { s with hostMoves := rest }) :=
  (step_of_accepted_stream hr rfl hm rfl ((legalAt_iff .decode _).2 h.stage)).trans
    (HasEncoded.exec_decode (s := { s with hostMoves := rest, inStream := ⟨packed (codeBits s e), true⟩ })
      (h.of_session_eq rfl) ⟨rfl, hroom⟩)

/-- Any number of `DECODE` commands leave the session alone and what is on OUT in front (R251, R290). -/
theorem HasEncoded.runSteps_decodes {s : State} {e : List Byte} {rest : List HostMove} (others : List (List Byte))
    (h : HasEncoded e s) (hr : s.running = none) (hroom : s.outRoom = none)
    (hm : s.hostMoves = others.map decodeMove ++ rest) :
    ∃ t, runSteps others.length s = .next t ∧ t.session = s.session ∧ t.running = none ∧ t.outRoom = none ∧
      t.hostMoves = rest ∧ s.outStream <+: t.outStream ∧ (others = [] → t.outStream = s.outStream) := by
  induction others generalizing s with
  | nil => exact ⟨s, rfl, rfl, hr, hroom, hm, List.prefix_refl _, fun _ => rfl⟩
  | cons p others ih =>
    obtain ⟨o, hstep⟩ := Machine.step_decode hr hroom h.stage h.tree hm
    obtain ⟨t, hrun, hsession, hidle, hopen, hrest, hout, -⟩ :=
      ih (s := State.afterDecode o { s with hostMoves := others.map decodeMove ++ rest }) (h.of_session_eq rfl) rfl
        hroom rfl
    exact ⟨t, (runSteps_succ_of_next _ hstep).trans hrun, hsession, hidle, hopen, hrest,
      (List.prefix_append _ _).trans hout, nofun⟩

/-! ### `COMPRESS` -/

/-- Every byte value of non-zero frequency has a code (R191 to R193). -/
theorem read_assignCodes_ne_none {freq : Table Nat} {codes : Table (Option Bits)}
    (h : assignCodes (buildTree [] freq) [] = some codes) {v : Byte} (hv : v ∈ present freq) :
    Table.read none codes v.toNat ≠ none := by
  have hn : (buildTree [] freq).nsym ≠ 0 := fun h0 => by
    have hlen := buildTree_nsym freq
    rw [h0] at hlen
    exact absurd (List.length_pos_of_mem hv) (by rw [← hlen]; decide)
  obtain ⟨t, ht, hperm, -⟩ := buildTree_stands hn
  rw [← hperm.mem_iff] at hv
  rcases assignCodes_cases h with ⟨h0, -⟩ | ⟨h1, -⟩ | ⟨-, -, hwalk⟩
  · exact absurd h0 hn
  · obtain ⟨f, u, hu⟩ := buildTree_root_isLeaf h1
    cases (assignCodes_of_singleLeaf h1 hu []).symm.trans h
    obtain rfl := ht.eq_leaf hu
    rw [read_codeSet, if_pos (List.mem_singleton.1 hv)]
    exact Option.some_ne_none _
  · rw [ht.read_assignFrom hwalk]
    simpa [Table.read, TreeValue.pathOf_eq_none_iff] using hv

/-- The state after `FSCAN`, `TBUILD` and `CASSIGN` of an input within the limit, whatever the session before: its
counts, their tree and the tree's codes (R143, R174, R196). -/
def State.withCodesFor (d : List Byte) (codes : Table (Option Bits)) (s : State) : State :=
  { s with
    stage := .assigned, total := d.length, nsym := (buildTree [] (countInto [] d)).nsym,
    root := (buildTree [] (countInto [] d)).root, pad := 0, freq := countInto [] d,
    node := (buildTree [] (countInto [] d)).node, code := codes, result := .ok, rinfo := 0, running := none,
    inStream := InStream.nothing, record := s.record ++ List.replicate 3 (.ok, 0) }

theorem runSteps_withCodesFor {s : State} {d : List Byte} {codes : Table (Option Bits)} {rest : List HostMove}
    (hcodes : assignCodes (buildTree [] (countInto [] d)) [] = some codes) (hr : s.running = none)
    (hlen : d.length ≤ Config.lenLimit s.cntW)
    (hm : s.hostMoves = .command 0x01 (some d) :: .command 0x02 none :: .command 0x03 none :: rest) :
    runSteps 3 s = .next (State.withCodesFor d codes { s with hostMoves := rest }) := by
  have hrecord : List.replicate 3 ((.ok, 0) : ResultCode × Byte) = [(.ok, 0)] ++ [(.ok, 0)] ++ [(.ok, 0)] := rfl
  rw [State.withCodesFor, hrecord, ← List.append_assoc, ← List.append_assoc]
  refine (runSteps_succ_of_next 2 ((step_of_accepted_stream hr rfl hm rfl rfl).trans
    (exec_fscan_within rfl hlen))).trans ?_
  refine (runSteps_succ_of_next 1 ((step_of_no_stream rfl rfl rfl rfl).trans (exec_tbuild_of_counted rfl))).trans ?_
  exact runSteps_succ_of_next 0 ((step_of_no_stream rfl rfl rfl rfl).trans (exec_cassign_of_built rfl hcodes))

/-- Every byte of the input has a code then (R280). -/
theorem State.withCodesFor_allCoded {d : List Byte} {codes : Table (Option Bits)}
    (hcodes : assignCodes (buildTree [] (countInto [] d)) [] = some codes) (s : State) :
    AllCoded (s.withCodesFor d codes) d := fun b hb => by
  refine read_assignCodes_ne_none hcodes ((mem_present _ b).2 ?_)
  rw [countsOf_countInto d b]
  exact List.count_pos_iff.2 hb

/-- The state after `COMPRESS` of an input within the limit (R280). -/
def State.afterCompress (d : List Byte) (codes : Table (Option Bits)) (rest : List HostMove) (s : State) : State :=
  (s.withCodesFor d codes).afterEncode d rest

theorem runSteps_compress {s : State} {d : List Byte} {codes : Table (Option Bits)} {rest : List HostMove}
    (hcodes : assignCodes (buildTree [] (countInto [] d)) [] = some codes) (hr : s.running = none)
    (hroom : s.outRoom = none) (hlen : d.length ≤ Config.lenLimit s.cntW)
    (hm : s.hostMoves = compressMoves d ++ rest) :
    runSteps 4 s = .next (s.afterCompress d codes rest) :=
  (runSteps_add_of_next 1 (runSteps_withCodesFor hcodes hr hlen hm)).trans
    (runSteps_succ_of_next 0 (step_encode rfl hroom (.inl rfl) (State.withCodesFor_allCoded hcodes _) rfl))

theorem State.afterCompress_hasEncoded {d : List Byte} {codes : Table (Option Bits)} (rest : List HostMove)
    (hcodes : assignCodes (buildTree [] (countInto [] d)) [] = some codes) (s : State) :
    HasEncoded d (s.afterCompress d codes rest) :=
  State.afterEncode_hasEncoded rest rfl hcodes (State.withCodesFor_allCoded hcodes s)

theorem State.afterCompress_record (d : List Byte) (codes : Table (Option Bits)) (rest : List HostMove) (s : State) :
    (s.afterCompress d codes rest).record = s.record ++ List.replicate 4 (.ok, 0) :=
  List.append_assoc ..

/-- Settles O43: within the limit the four commands are four steps that complete; beyond it `FSCAN` leaves a cleared
session, at which the other three are not legal. -/
theorem compressSequence : Obligations.CompressSequence := by
  intro s d hr hroom hm
  refine ⟨fun hlen => ?_, fun hlen => ?_⟩
  · obtain ⟨codes, hcodes⟩ := exists_assignCodes_buildTree (countInto [] d) []
    have hencoded := State.afterCompress_hasEncoded [] hcodes s
    exact ⟨_, runSteps_compress hcodes hr hroom hlen (hm.trans (List.append_nil _).symm), rfl, rfl,
      State.afterCompress_record .., countsOf_countInto d, rfl, hencoded.tree, hencoded.codes, hencoded.coded, rfl,
      hencoded.pad⟩
  · have hscan := (step_of_accepted_stream hr rfl hm rfl rfl).trans (exec_fscan_beyond rfl hlen)
    refine ⟨_, (runSteps_succ_of_next 3 hscan).trans ((runSteps_succ_of_rejected 2 rfl rfl rfl rfl).trans
      ((runSteps_succ_of_rejected 1 rfl rfl rfl rfl).trans (runSteps_succ_of_rejected 0 rfl rfl rfl rfl))),
      rfl, rfl, rfl, ?_⟩
    simp

/-! ### The round trips -/

/-- Settles O44: `COMPRESS` ends in a session that has encoded the input, and `DECODE` gives it back. -/
theorem roundTripLaw : Obligations.RoundTripLaw := by
  intro s d hr hroom hlen
  obtain ⟨codes, hcodes⟩ := exists_assignCodes_buildTree (countInto [] d) []
  have hencoded (rest : List HostMove) := State.afterCompress_hasEncoded rest hcodes s
  have hcompress (rest : List HostMove) :=
    runSteps_compress (s := { s with hostMoves := compressMoves d ++ rest }) hcodes hr hroom hlen rfl
  have hdecode := (hencoded [decodeMove (packed (codeBits (s.withCodesFor d codes) d))]).step_decode rfl hroom rfl
  refine ⟨_, _, (runSteps_add_of_next 1 (hcompress _)).trans (runSteps_succ_of_next 0 hdecode), rfl, ?_⟩
  rw [State.afterDecode, State.complete_record, State.afterCompress_record, List.append_assoc]
  rfl

/-- At the stages with codes the session holds the tree of its counts and the tree's codes (R42). -/
theorem HoldsAt.tree_and_codes {s : State} (h : HoldsAt s.stage s) (hst : s.stage = .assigned ∨ s.stage = .encoded) :
    s.tree = buildTree [] s.freq ∧ assignCodes s.tree [] = some s.code := by
  rcases hst with hst | hst <;> rw [hst] at h
  · obtain ⟨-, htree, hcodes, -⟩ := h
    exact ⟨htree, hcodes⟩
  · obtain ⟨-, hsession⟩ := h
    exact hsession

/-- Settles O45: no `DECODE` writes the session, so the last one finds what the `ENCODE` left. -/
theorem generalRoundTrip : Obligations.GeneralRoundTrip := by
  intro s e others hinv hr hroom hst he
  obtain ⟨htree, hcodes⟩ := (hinv.holdsAt hr).tree_and_codes hst
  have hencode (rest : List HostMove) :=
    step_encode (s := { s with hostMoves := .command 0x04 (some e) :: rest }) hr hroom hst he rfl
  have hencoded (rest : List HostMove) := State.afterEncode_hasEncoded rest htree hcodes he
  obtain ⟨v, hrun, hsession, hidle, hopen, hmoves, hout, hnone⟩ :=
    (hencoded (others.map decodeMove ++ [decodeMove (packed (codeBits s e))])).runSteps_decodes others rfl hroom rfl
  have hlast := (hencoded _).of_session_eq hsession
  have hbits : codeBits v e = codeBits s e := codeBits_of_session_eq hsession e
  rw [← hbits] at hmoves
  exact ⟨packed (codeBits s e), s.afterEncode e [], v, _, runSteps_succ_of_next 0 (hencode []), rfl, rfl, rfl,
    (runSteps_succ_of_next _ (hencode _)).trans hrun, hout, hnone, hlast.step_decode hidle hopen hmoves, rfl, rfl, rfl,
    rfl, rfl, rfl, fun hn => he.eq_nil hn hcodes⟩

end Sys2Proof.Machine
end

section
/-! PROOFS. The faults of 60_exceptions.md that reject a command or cut a stream short: the illegal word (R301), the
command out of order (R302), the stream too long to count (R303) and the byte without a code (R304). -/

namespace Sys2Proof.Machine

/-! ### A rejected word -/

/-- At rest a completion writes the result and its record alone. -/
theorem State.complete_of_idle {s : State} (hr : s.running = none) (r : ResultCode) (info : Byte) :
    s.complete r info = { s with result := r, rinfo := info, record := s.record ++ [(r, info)] } := by
  simp [State.complete, hr]

/-- A plain write of register 0 is a write of `CMD` without a stream (R32). -/
theorem hostMove_write_zero (v : Nat) (s : State) :
    hostMove (.write 0 v) s = writeCmd (BitVec.ofNat 8 v) none s := rfl

/-- A word above those of the six commands does not decode (R91, R93). -/
theorem decodeWord_of_illegal {w : Byte} (hw : 6 ≤ w.toNat) : ∃ e, decodeWord w = .error e := by
  cases hd : decodeWord w with
  | error e => exact ⟨e, rfl⟩
  | ok i =>
    have hlegal := (exists_encodeWord_eq_iff w).1 ⟨i, decodeWord_eq_ok_iff.1 hd⟩
    omega

/-- An illegal word written to `CMD` at rest writes `E_ILLEGAL_CMD` and the word, and nothing else (R301). -/
theorem writeCmd_of_illegal {s : State} {w : Byte} (operand : Option (List Byte)) (hr : s.running = none)
    (hw : 6 ≤ w.toNat) :
    writeCmd w operand s = .next { s with
      result := .illegalCmd, rinfo := w, record := s.record ++ [(.illegalCmd, w)] } := by
  obtain ⟨e, he⟩ := decodeWord_of_illegal hw
  rw [← State.complete_of_idle hr]
  simp [writeCmd, State.busy, hr, dispatch, decodeBytes, he]

/-- Settles O4: either form is a write of `CMD`, whose word the decoder does not accept. -/
theorem illegalWordIsRejected : Obligations.IllegalWordIsRejected := by
  intro s w m rest hr hw hmove hm
  rw [step_of_move hm]
  rcases hmove with ⟨operand, rfl⟩ | rfl
  · exact writeCmd_of_illegal (s := { s with hostMoves := rest }) operand hr hw
  · rw [hostMove_write_zero, BitVec.ofNat_toNat, BitVec.setWidth_eq]
    exact writeCmd_of_illegal (s := { s with hostMoves := rest }) none hr hw

/-! ### A command out of order -/

/-- At rest a command that is not legal writes `E_SEQ` and its own word, and nothing else (R302). -/
theorem exec_of_illegal_of_idle {i : Instr} {s : State} (hr : s.running = none)
    (hl : ¬ Instr.legalAt i s.stage = true) :
    exec i s = .next { s with
      result := .seq, rinfo := encodeWord i, record := s.record ++ [(.seq, encodeWord i)] } := by
  rw [exec_of_illegal (Bool.eq_false_iff.2 hl), State.complete_of_idle hr]

/-- Settles O5: each row names the stages at which the command is not legal. -/
theorem commandOutOfOrderIsRejected : Obligations.CommandOutOfOrderIsRejected := by
  refine fun s hr => ⟨fun h => ?_, fun h => ?_, fun h => ?_, fun h => ?_⟩
  · exact exec_of_illegal_of_idle (i := .tbuild) hr fun hl => h ((legalAt_iff ..).1 hl)
  · exact exec_of_illegal_of_idle (i := .cassign) hr fun hl => h ((legalAt_iff ..).1 hl)
  · refine exec_of_illegal_of_idle (i := .encode) hr fun hl => ?_
    rcases h with h | h | h <;> simp [legalAt_iff, h] at hl
  · exact exec_of_illegal_of_idle (i := .decode) hr fun hl => h ((legalAt_iff ..).1 hl)

/-! ### A stream too long to count -/

/-- Settles O15: the engine counts up to the limit, and one byte more clears the session and drains the stream. -/
theorem fscanOverflowClearsAndDrains : Obligations.FscanOverflowClearsAndDrains :=
  fun _ _ => exec_fscan_beyond

/-! ### A byte without a code -/

/-- The whole bytes of a sequence leave in two flushes as in one (R212). -/
theorem flush_append_fst (buf bits : Bits) :
    (flush (buf ++ bits)).1 = (flush buf).1 ++ (flush ((flush buf).2 ++ bits)).1 := by
  induction buf using flush.induct with
  | case1 x0 x1 x2 x3 x4 x5 x6 x7 rest ih => exact congrArg _ ih
  | case2 buf h =>
    have hbuf : flush buf = ([], buf) := by
      rw [flush]
      exact h
    rw [hbuf, List.nil_append]

/-- A buffer with no whole byte gives none (R212). -/
theorem flush_fst_of_length_le {buf : Bits} (h : buf.length ≤ 7) : (flush buf).1 = [] := by
  have hn : buf.length / 8 = 0 := by omega
  rw [flush_eq, hn]
  rfl

/-- `ENCODE` of a coded byte puts the whole bytes of its buffer and the code, and keeps the bits left (R211, R212). -/
theorem feed_encoding_cons_of_coded {ended : Bool} {st0 : Stage} {s : State} {b : Byte} {bs : List Byte} {buf c : Bits}
    (hroom : s.outRoom = none) (hc : s.codeAt b = some c) :
    feed ended (b :: bs) ⟨st0, .encoding buf, []⟩ s =
      feed ended bs ⟨st0, .encoding (flush (buf ++ c)).2, []⟩
        { s with outStream := s.outStream ++ (flush (buf ++ c)).1.map .byte } := by
  have htake : takeByte b s (.encoding buf) =
      .ok ⟨s, .encoding (flush (buf ++ c)).2, (flush (buf ++ c)).1.map .byte⟩ := by
    simp [takeByte, encodeByte, hc]
  rw [feed_cons_of_taken rfl htake, putOut_none hroom]
  rfl

/-- `ENCODE` at a byte without a code ends OUT, drops its buffer and drains IN (R215). -/
theorem feed_encoding_cons_of_uncoded {st0 : Stage} {s : State} {b : Byte} {bs : List Byte} {buf : Bits}
    (hroom : s.outRoom = none) (hb : s.codeAt b = none) :
    feed true (b :: bs) ⟨st0, .encoding buf, []⟩ s = .next (finish (.unknownSym b)
      { s with inStream := InStream.nothing, outStream := s.outStream ++ [.eos] }) := by
  have htake : takeByte b s (.encoding buf) = .ok ⟨s, .draining (.unknownSym b), [.eos]⟩ := by
    simp [takeByte, encodeByte, hb]
  rw [feed_cons_of_taken rfl htake, putOut_none hroom, feed_draining]
  exact feed_nil_of_end_silent rfl

/-- Over coded bytes and then one without a code, `ENCODE` puts the whole bytes of its buffer's bits and the codes
(R215, R216). -/
theorem feed_encoding_of_uncoded {st0 : Stage} {s : State} {d₁ d₂ : List Byte} {b : Byte} {buf : Bits}
    (hroom : s.outRoom = none) (hd : AllCoded s d₁) (hb : s.codeAt b = none) (hbuf : buf.length ≤ 7) :
    feed true (d₁ ++ b :: d₂) ⟨st0, .encoding buf, []⟩ s = .next (finish (.unknownSym b)
      { s with
        inStream := InStream.nothing, outStream := s.outStream ++ outItems (flush (buf ++ codeBits s d₁)).1 }) := by
  induction d₁ generalizing s buf with
  | nil =>
    rw [codeBits_nil, List.append_nil, flush_fst_of_length_le hbuf]
    exact feed_encoding_cons_of_uncoded hroom hb
  | cons a d₁ ih =>
    obtain ⟨c, hc⟩ := Option.ne_none_iff_exists'.1 (hd a List.mem_cons_self)
    have hput : (flush (buf ++ codeBits s (a :: d₁))).1 =
        (flush (buf ++ c)).1 ++ (flush ((flush (buf ++ c)).2 ++ codeBits s d₁)).1 := by
      rw [codeBits_cons d₁ hc, ← List.append_assoc, flush_append_fst]
    rw [List.cons_append, feed_encoding_cons_of_coded hroom hc, hput, ← map_byte_append_outItems,
      ← List.append_assoc s.outStream]
    exact ih (s := { s with outStream := s.outStream ++ (flush (buf ++ c)).1.map .byte }) hroom
      (fun v hv => hd v (List.mem_cons_of_mem _ hv)) hb (flush_rest_length (buf ++ c))

/-- Settles O34: the engine puts whole bytes as the codes fill them, and the byte without a code drops the bits left. -/
theorem encodeStopsAtTheFirstUnknownSymbol : Obligations.EncodeStopsAtTheFirstUnknownSymbol := by
  intro s d₁ d₂ b hst hserves hd hb
  obtain ⟨hin, hroom⟩ := hserves
  have hwhole : (flush ([] ++ codeBits s d₁)).1 = packedBytes ((codeBits s d₁).length / 8) (codeBits s d₁) := by
    rw [List.nil_append, flush_eq]
  rw [exec_encode_of_legal ((legalAt_iff .encode _).2 hst), start, hin, ← hwhole]
  exact feed_encoding_of_uncoded hroom hd hb (Nat.zero_le _)

end Sys2Proof.Machine
end

section
/-! PROOFS. The busy block and reset (spec 70_reset_and_hazards.md): a write of `CMD` while a command runs (R343), a read
while one runs (R351) and the reset input (R340, R341). -/

namespace Sys2Proof.Machine

/-- Settles O6: both forms are a write of `CMD`, which a running command ignores. -/
theorem commandWriteWhileBusyIsIgnored : Obligations.CommandWriteWhileBusyIsIgnored := by
  intro s r m rest hr hmove hm
  rw [step_of_move hm]
  rcases hmove with ⟨w, operand, rfl⟩ | ⟨v, rfl⟩
  · exact writeCmd_of_running (s := { s with hostMoves := rest }) hr w operand
  · rw [hostMove_write_zero]
    exact writeCmd_of_running (s := { s with hostMoves := rest }) hr _ none

/-- Settles O12: the move is `resetBlock`, which asks nothing of what runs. -/
theorem hostResetAtAnyTime : Obligations.HostResetAtAnyTime := fun _ _ hm => step_of_move hm

/-- While a command runs a register other than `STATUS` reads the free value, cut to its width (R351). -/
theorem readReg_of_running {s : State} {r : Running} {n : Nat} (hr : s.running = some r) (h1 : n ≠ 1) (h15 : n < 15) :
    readReg n s = { s with
      hostRead := some (Config.unspecifiedRead s.freeReads % 2 ^ regWidth s.cntW n), freeReads := s.freeReads + 1 } :=
  if_pos (by simp [State.busy, hr, h1, h15])

/-- A number that names no register reads 0 at any time (R32). -/
theorem readReg_of_no_register {n : Nat} (s : State) (h : 15 ≤ n) : readReg n s = { s with hostRead := some 0 } := by
  have hn : ¬ n < 15 := Nat.not_lt.2 h
  simp [readReg, hn, regValue_of_no_register s h]

/-- Settles O58: while a command runs a read is of the free value, which its width bounds, and past the last register
it is of 0. -/
theorem readWhileBusyChangesNothing : Obligations.ReadWhileBusyChangesNothing := by
  refine ⟨fun s r n rest hr h1 h15 hm => ?_, fun s n rest h hm => ?_⟩
  · have hread := readReg_of_running (s := { s with hostMoves := rest }) hr h1 h15
    exact ⟨_, Nat.mod_lt _ (Nat.two_pow_pos _), (step_of_move hm).trans (congrArg Host.Outcome.next hread)⟩
  · rw [step_of_move hm, hostMove, readReg_of_no_register _ h]

end Sys2Proof.Machine
end
